-- ==== Sys2Proof/Word.lean ====
section
/-! DEFINITION. The word types of AMG-CORE and nothing else.

`Word` is the 32-bit bus and command word (spec 20_memory R73, 30_encoding R90), `F32` an IEEE 754
binary32 bit pattern (00_scope R13), `Pixel` a 24-bit colour in natural red-green-blue order
(10_state R50), `Offset` a 19-bit byte offset of the aperture (20_memory R70). -/

namespace Sys2Proof

/-- A 32-bit bus word or command word. -/
abbrev Word := BitVec 32

/-- One byte lane of the bus (spec 20_memory R75). -/
abbrev Byte := BitVec 8

/-- A binary32 bit pattern; every arithmetic meaning is in Machine/Float.lean. -/
abbrev F32 := BitVec 32

/-- A pixel: red in bits 23..16, green in 15..8, blue in 7..0 (spec 10_state R50). -/
abbrev Pixel := BitVec 24

/-- A byte offset within the aperture (spec 20_memory R70). -/
abbrev Offset := BitVec 19

end Sys2Proof
end

