-- ==== Sys2Proof/Syntax.lean ====
section
/-! DEFINITION. The commands of AMG-CORE, one constructor per row of spec/opcode_table.json
(30_encoding R91). No command has an immediate or an operand field (R92). -/

namespace Sys2Proof

/-- The nine commands, in the order of their opcodes (spec 30_encoding R91). -/
inductive Instr where
  /-- NOP, opcode 0x0 (40_framebuffer R100). -/
  | nop
  /-- CLEAR, opcode 0x1 (40_framebuffer R101). -/
  | clear
  /-- SETPIX, opcode 0x2 (40_framebuffer R102). -/
  | setpix
  /-- RENDER, opcode 0x3 (40_framebuffer R103). -/
  | render
  /-- QUANT, opcode 0x4 (42_motion R177). -/
  | quant
  /-- RAMP, opcode 0x5 (42_motion R179). -/
  | ramp
  /-- MOVEC, opcode 0x6 (42_motion R182). -/
  | movec
  /-- MOVED, opcode 0x7 (42_motion R186). -/
  | moved
  /-- ENCODE, opcode 0x8 (41_encoder R130). -/
  | encode
deriving DecidableEq, Repr

end Sys2Proof
end

