-- ==== Sys2Proof/Decode.lean ====
section
/-! DEFINITION. The command decoder, total on every word and every list of bytes (spec 30_encoding
R90, R93, R94), and after it the encoder, from the same opcode map (R91). -/

namespace Sys2Proof

/-- Why a word or a list of bytes is no command. -/
inductive DecodeError where
  /-- A bit of `RSV`, bits 31:4, is set (R90, R93). -/
  | reservedField
  /-- `RSV` is 0 and `OP` is 0x9 to 0xF (R91, R93). -/
  | reservedOpcode
  /-- Fewer than four bytes stand there; a command word has 32 bits (R90). -/
  | truncated
deriving DecidableEq, Repr

/-- The field `OP`, bits 3:0 (R90). -/
def opField (w : Word) : BitVec 4 := w.extractLsb' 0 4

/-- The field `RSV`, bits 31:4 (R90). -/
def rsvField (w : Word) : BitVec 28 := w.extractLsb' 4 28

/-- The opcode map (R91). -/
def decodeOp (op : BitVec 4) : Except DecodeError Instr :=
  match op.toNat with
  | 0x0 => .ok .nop
  | 0x1 => .ok .clear
  | 0x2 => .ok .setpix
  | 0x3 => .ok .render
  | 0x4 => .ok .quant
  | 0x5 => .ok .ramp
  | 0x6 => .ok .movec
  | 0x7 => .ok .moved
  | 0x8 => .ok .encode
  | _ => .error .reservedOpcode

/-- `decode` of R94: RESERVED is the error side. -/
def decode (w : Word) : Except DecodeError Instr :=
  if rsvField w = 0 then decodeOp (opField w) else .error .reservedField

/-- The word whose byte lanes are the four bytes, lane 0 first: little-endian (20_memory R75). -/
def wordOfBytes (b0 b1 b2 b3 : Byte) : Word := b3 ++ b2 ++ b1 ++ b0

/-- The byte lanes of a word, lane 0 first (20_memory R75). -/
def bytesOfWord (w : Word) : List Byte :=
  [w.extractLsb' 0 8, w.extractLsb' 8 8, w.extractLsb' 16 8, w.extractLsb' 24 8]

/-- Decode the command at the head of a list of bytes and give back the rest of the list. -/
def decodeBytes : List Byte → Except DecodeError (Instr × List Byte)
  | b0 :: b1 :: b2 :: b3 :: rest =>
    match decode (wordOfBytes b0 b1 b2 b3) with
    | .ok i => .ok (i, rest)
    | .error e => .error e
  | _ => .error .truncated

/-- The instruction the decoder reads from an instruction of the opcode table whose `nbits` bits
are `w`, the bits above them 0. -/
def decodeTableWord (nbits w : Nat) : Option Instr :=
  match decodeBytes (bytesOfWord (BitVec.ofNat 32 (w % 2 ^ nbits))) with
  | .ok (i, _) => some i
  | .error _ => none

/-- The opcode of a command (R91). -/
def opcode : Instr → BitVec 4
  | .nop => 0x0#4
  | .clear => 0x1#4
  | .setpix => 0x2#4
  | .render => 0x3#4
  | .quant => 0x4#4
  | .ramp => 0x5#4
  | .movec => 0x6#4
  | .moved => 0x7#4
  | .encode => 0x8#4

/-- The command word of a command: `RSV` = 0 above its opcode (R90). -/
def encode (i : Instr) : Word := 0#28 ++ opcode i

/-- The bytes of a command word as the bus stores them. -/
def encodeBytes (i : Instr) : List Byte := bytesOfWord (encode i)

end Sys2Proof
end

