-- ==== Sys2Proof/Machine/Float.lean ====
section
/-! DEFINITION. IEEE 754 binary32 arithmetic (spec 00_scope R13, 42_motion R170), written on exact
integers with one rounding at the end.

Every finite binary32 value is a whole number of units of 2^-149. `magOf` reads that number (the
pattern of an infinity reads as 2^277, above every finite value, so one comparison of integers
orders them all), and `roundMag n d` is the one place where a result is rounded: the binary32
magnitude nearest to n/d units, ties to even, overflowing to infinity, subnormals kept. -/

namespace Sys2Proof.Machine

/-- Bit 31 of a pattern. -/
def signOf (v : F32) : Bool := v.getLsbD 31

/-- The biased exponent field, bits 30..23. -/
def expOf (v : F32) : Nat := v.toNat / 2 ^ 23 % 2 ^ 8

/-- The fraction field, bits 22..0. -/
def fracOf (v : F32) : Nat := v.toNat % 2 ^ 23

/-- The pattern is a NaN. -/
def isNaN (v : F32) : Bool := expOf v == 255 && fracOf v != 0

/-- The pattern is an infinity of either sign. -/
def isInf (v : F32) : Bool := expOf v == 255 && fracOf v == 0

/-- The magnitude of a pattern that is no NaN, in units of 2^-149. -/
def magOf (v : F32) : Nat :=
  if expOf v = 0 then fracOf v else (2 ^ 23 + fracOf v) * 2 ^ (expOf v - 1)

/-- The signed value of a pattern that is no NaN, in units of 2^-149. -/
def unitsOf (v : F32) : Int :=
  if signOf v then -(magOf v : Int) else (magOf v : Int)

/-- A pattern is the zero of either sign. -/
def isZero (v : F32) : Bool := !isNaN v && magOf v == 0

/-- The pattern with the given sign and the magnitude bits `m` (bits 30..0). -/
def packSign (sign : Bool) (m : Nat) : F32 :=
  BitVec.ofNat 32 (m + if sign then 2 ^ 31 else 0)

/-- The magnitude bits of infinity. -/
def infBits : Nat := 0x7F800000

/-- The exponent shift of a result of n/d units: the smallest q with n/d below 2^(24+q). -/
def quantumExp (n d : Nat) : Nat := (n / d).log2 - 23

/-- The magnitude bits of the binary32 nearest to n/d units of 2^-149, ties to even
(spec 00_scope R13). With quantum 2^q the kept significand `m` is at most 2^24, and `q * 2^23 + m`
is its pattern, subnormal or normal, carry included. -/
def roundMag (n d : Nat) : Nat :=
  let q := quantumExp n d
  let m := n / (d * 2 ^ q)
  let r := n % (d * 2 ^ q)
  let up := if 2 * r > d * 2 ^ q ∨ (2 * r = d * 2 ^ q ∧ m % 2 = 1) then 1 else 0
  min (q * 2 ^ 23 + m + up) infBits

/-- The binary32 nearest to the magnitude n/d with the given sign. -/
def roundF (sign : Bool) (n d : Nat) : F32 := packSign sign (roundMag n d)

/-- The default quiet NaN (42_motion R170). DESIGN CHOICE: the pattern 0x7FC00000, which no
register ever receives (log 8). -/
def defaultNaN : F32 := 0x7FC00000#32

/-- The pattern with bit 31 inverted. -/
def fneg (v : F32) : F32 := v ^^^ 0x80000000#32

/-- IEEE 754 addition (00_scope R13). An exact sum of zero is +0 unless both operands are
negative. -/
def fadd (a b : F32) : F32 :=
  if isNaN a || isNaN b then defaultNaN
  else if isInf a then (if isInf b && signOf a != signOf b then defaultNaN else a)
  else if isInf b then b
  else
    let sum := unitsOf a + unitsOf b
    if sum = 0 then packSign (signOf a && signOf b) 0
    else roundF (decide (sum < 0)) sum.natAbs 1

/-- IEEE 754 subtraction (00_scope R13): addition of the negated operand. -/
def fsub (a b : F32) : F32 := fadd a (fneg b)

/-- IEEE 754 multiplication (00_scope R13). -/
def fmul (a b : F32) : F32 :=
  let sign := signOf a != signOf b
  if isNaN a || isNaN b then defaultNaN
  else if isInf a || isInf b then
    (if isZero a || isZero b then defaultNaN else packSign sign infBits)
  else roundF sign (magOf a * magOf b) (2 ^ 149)

/-- IEEE 754 division (00_scope R13). -/
def fdiv (a b : F32) : F32 :=
  let sign := signOf a != signOf b
  if isNaN a || isNaN b then defaultNaN
  else if isInf a then (if isInf b then defaultNaN else packSign sign infBits)
  else if isInf b then packSign sign 0
  else if isZero b then (if isZero a then defaultNaN else packSign sign infBits)
  else roundF sign (magOf a * 2 ^ 149) (magOf b)

/-- One bit of the integer square root: `isqrtFrom k m r` adds to `r` the powers of two below 2^k
that keep its square at most `m`. -/
def isqrtFrom : Nat → Nat → Nat → Nat
  | 0, _, r => r
  | k + 1, m, r =>
    if (r + 2 ^ k) * (r + 2 ^ k) ≤ m then isqrtFrom k m (r + 2 ^ k) else isqrtFrom k m r

/-- The integer square root of `m` below 2^428, the largest being that of a finite magnitude in
units scaled by 2^149. -/
def isqrt (m : Nat) : Nat := isqrtFrom 214 m 0

/-- IEEE 754 square root (00_scope R13). In units the root is that of `magOf v * 2^149`; its
integer part `r`, in halves with a sticky half when inexact, rounds as the exact root does, since
every rounding boundary of a result that large is a whole number of units. -/
def fsqrt (v : F32) : F32 :=
  if isNaN v then defaultNaN
  else if isZero v then v
  else if signOf v then defaultNaN
  else if isInf v then v
  else
    let m := magOf v * 2 ^ 149
    let r := isqrt m
    roundF false (2 * r + if r * r = m then 0 else 1) 2

/-- a < b, the IEEE 754 ordered comparison: false on NaN, +0 equal to -0 (00_scope R13). -/
def flt (a b : F32) : Bool := !isNaN a && !isNaN b && decide (unitsOf a < unitsOf b)

/-- a ≤ b, the IEEE 754 ordered comparison (00_scope R13). -/
def fle (a b : F32) : Bool := !isNaN a && !isNaN b && decide (unitsOf a ≤ unitsOf b)

/-- a > b (00_scope R13). -/
def fgt (a b : F32) : Bool := flt b a

/-- a ≥ b (00_scope R13). -/
def fge (a b : F32) : Bool := fle b a

/-- `clamp(v, lo, hi)` of spec 00_scope R14; a NaN gives `lo`. -/
def clamp (v lo hi : F32) : F32 :=
  if fgt v hi then hi else if fge v lo then v else lo

/-- `i2f(k)`: the integer as a binary32, exact for 0 ≤ k ≤ 256 (00_scope R13). -/
def i2f (k : Nat) : F32 := roundF false (k * 2 ^ 149) 1

/-- `ffloor(v)` for 0 ≤ v ≤ 255, the only values the spec applies it to (00_scope R13); outside
that range it is the floor of the magnitude, which no rule reads (log 19). -/
def ffloor (v : F32) : Nat := magOf v / 2 ^ 149

/-- `sat(k, lo, hi) = min(max(k, lo), hi)` (00_scope R15). -/
def sat (k lo hi : Int) : Int := min (max k lo) hi

end Sys2Proof.Machine
end

