-- ==== Sys2Proof/Config.lean ====
section
/-! DEFINITION. What a part fixes (spec 00_scope R7) and the free values of the model.

The parameters are a structure of plain data that `State` carries, so that a statement about every
state is a statement about every part (log 1). The one parameter that is a function, `ATAN2_F32`,
is an opaque constant together with a finite table of points that a configuration may fix (log 2).
The other opaque constants are the unspecified values of the encoder's transient registers outside
a frame (10_state R52, log 7): nothing can evaluate them. -/

namespace Sys2Proof

/-- The parameters of spec 00_scope R7, all but the function `ATAN2_F32`, of which `atan2Points`
holds the finitely many points that this configuration fixes. Their legal ranges are
`Config.legal` (WellFormed.lean). -/
structure Config where
  /-- `WIDTH`, 1 to 256, OPEN. -/
  width : Nat
  /-- `HEIGHT`, 1 to 256, OPEN. -/
  height : Nat
  /-- `MOVE_THRESH`, any binary32 bit pattern, OPEN (decision D36). -/
  moveThresh : F32
  /-- `T0H_NS`: the high phase of a 0 bit (R9). -/
  t0hNs : Nat
  /-- `T0L_NS`: the low phase of a 0 bit (R9). -/
  t0lNs : Nat
  /-- `T1H_NS`: the high phase of a 1 bit (R9). -/
  t1hNs : Nat
  /-- `T1L_NS`: the low phase of a 1 bit (R9). -/
  t1lNs : Nat
  /-- `DUR_BITS`, 1 to 31 (decision D16). -/
  durBits : Nat
  /-- `DIAG`, any binary32 bit pattern (decision D9). -/
  diag : F32
  /-- `LATCH_NS`, OPEN; no rule of the block reads it (93_implementation_defined section 1). R7 says
  "integer ns" and gives no legal range. DESIGN CHOICE: a natural number of any size, so no negative
  value and no upper bound (log 1). -/
  latchNs : Nat
  /-- Points ((y, x), angle) of `ATAN2_F32` that this configuration fixes; elsewhere it is
  `Config.atan2F32` (log 2). -/
  atan2Points : List ((F32 × F32) × F32)
deriving DecidableEq, Repr

/-- `ATAN2_F32` at every point that `atan2Points` does not list: a total, deterministic function of
two binary32 patterns of which the spec assumes nothing (42_motion R171). Uninterpreted. -/
opaque Config.atan2F32 : F32 → F32 → F32

/-- The unspecified `rate` after draw number n (10_state R52). Free value. -/
opaque Config.freeRate : Nat → Word

/-- The unspecified tick counts after draw number n, the second argument naming which of the four
(10_state R52). Free value. -/
opaque Config.freeTicks : Nat → Nat → Nat

/-- The unspecified pixel index after draw number n (10_state R52). Free value. -/
opaque Config.freePixelIndex : Nat → Nat

/-- The unspecified bit index after draw number n (10_state R52). Free value. -/
opaque Config.freeBitIndex : Nat → Nat

/-- Whether the unspecified phase after draw number n is HIGH (10_state R52). Free value. -/
opaque Config.freePhaseHigh : Nat → Bool

/-- The unspecified GRB word after draw number n (10_state R52). Free value. -/
opaque Config.freeGrbWord : Nat → BitVec 24

/-- The unspecified edge list after draw number n, as (level, duration) pairs (10_state R52).
Free value. -/
opaque Config.freeEdges : Nat → List (Bool × Nat)

/-- A configuration with the default values of spec 00_scope R7 for the parameters that have one.
DESIGN CHOICE for the OPEN ones (log 1): the 5 by 5 grid R7 names for the board, the threshold 10.0
of 95_test_vectors section 0, no latch threshold, no fixed point of `ATAN2_F32`. -/
def Config.board : Config where
  width := 5
  height := 5
  moveThresh := 0x41200000#32
  t0hNs := 350
  t0lNs := 800
  t1hNs := 700
  t1lNs := 600
  durBits := 15
  diag := 0x3F350481#32
  latchNs := 0
  atan2Points := []

end Sys2Proof
end

