-- ==== Sys2Proof/Machine/Params.lean ====
section
/-! DEFINITION. The quantities derived from the parameters (spec 00_scope R8, 70_reset R262) and the
named reset constants (10_state R33). -/

namespace Sys2Proof.Machine

/-- `N = WIDTH * HEIGHT`, the number of pixels (R8). -/
def pixelCount (c : Config) : Nat := c.width * c.height

/-- `XMAX = WIDTH - 1` (R8). -/
def xMax (c : Config) : Nat := c.width - 1

/-- `YMAX = HEIGHT - 1` (R8). -/
def yMax (c : Config) : Nat := c.height - 1

/-- `DUR_MAX = 2^DUR_BITS - 1` (R8). -/
def durMax (c : Config) : Nat := 2 ^ c.durBits - 1

/-- `XC = WIDTH div 2`, the centre column (70_reset R262). -/
def xCentre (c : Config) : Nat := c.width / 2

/-- `YC = HEIGHT div 2`, the centre row (70_reset R262). -/
def yCentre (c : Config) : Nat := c.height / 2

/-- The pair of 8-bit coordinates `{y[7:0], x[7:0]}` as `XY` and `POS` hold it (10_state R42,
R46). -/
def packXY (x y : Nat) : BitVec 16 := BitVec.ofNat 8 y ++ BitVec.ofNat 8 x

/-- The reset value of `MULT`: 1.0, the ramp's value at t = 0 (70_reset R261). -/
def resetMult : F32 := 0x3F800000#32

/-- The reset value of `DIR`: 8, the code of Stay (70_reset R261). -/
def resetDir : BitVec 4 := 8#4

end Sys2Proof.Machine
end

