-- ==== Sys2Proof/Machine/Input.lean ====
section
/-! DEFINITION. The events of the environment: Host bus accesses (spec 20_memory), Transmitter
answers and tick-rate changes (41_encoder, ports table), reset (70_reset R260), and a step of the
Core's own state machine (41_encoder R131). `State.inputs` holds them in the single order of steps
of 20_memory R81 (log 3). -/

namespace Sys2Proof.Machine

/-- The width of a bus access. Only 32 bits is within the contract (spec 20_memory R73). -/
inductive AccessWidth where
  | bits8
  | bits16
  | bits32
  | bits64
deriving DecidableEq, Repr

/-- One Host bus access at a byte offset of the aperture (spec 20_memory R70, R73, R78). A write
carries a word; the data of a write of another width is not looked at, since it is refused. -/
inductive Access where
  | read (off : Offset) (width : AccessWidth)
  | write (off : Offset) (width : AccessWidth) (v : Word)
deriving DecidableEq, Repr

/-- The Transmitter's answer on `frame_resp` (spec 41_encoder R148, R149). -/
inductive TxAnswer where
  | ok
  | hwError
deriving DecidableEq, Repr

/-- One event in the single order of steps (spec 20_memory R81, 60_exceptions R234). -/
inductive Input where
  /-- The Host performs one bus access. -/
  | host (a : Access)
  /-- The Core takes one step of its state machine. -/
  | core
  /-- The Transmitter answers the oldest frame it has not answered. -/
  | answer (r : TxAnswer)
  /-- The Transmitter drives `tick_rate` with a new value. -/
  | tickRate (rate : Word)
  /-- The reset input is asserted. -/
  | reset
deriving DecidableEq, Repr

end Sys2Proof.Machine
end

