-- ==== Sys2Proof/WellFormed.lean ====
section
/-! DEFINITION. What is well formed: the parameter ranges of spec 00_scope R7 (a configuration
outside them is refused, 93_implementation_defined section 3) and the bus contract of 20_memory R73
and R74. A command has no operand, so every `Instr` is well formed (30_encoding R92). -/

namespace Sys2Proof

/-- `WIDTH` and `HEIGHT` lie in 1 to 256 (R7). -/
def Config.dimensionLegal (v : Nat) : Bool := decide (1 ≤ v) && decide (v ≤ 256)

/-- A timing constant lies in 1 to 10^6 nanoseconds (R7). -/
def Config.timingLegal (ns : Nat) : Bool := decide (1 ≤ ns) && decide (ns ≤ 1000000)

/-- `DUR_BITS` lies in 1 to 31 (R7). -/
def Config.durBitsLegal (bits : Nat) : Bool := decide (1 ≤ bits) && decide (bits ≤ 31)

/-- The configuration lies in the legal ranges of R7. The binary32 parameters and `LATCH_NS` have
no range. -/
def Config.legal (c : Config) : Bool :=
  Config.dimensionLegal c.width && Config.dimensionLegal c.height &&
    Config.timingLegal c.t0hNs && Config.timingLegal c.t0lNs &&
    Config.timingLegal c.t1hNs && Config.timingLegal c.t1lNs &&
    Config.durBitsLegal c.durBits

/-- Every command is well formed: it has no operand field (spec 30_encoding R92). -/
def Instr.wellFormed (_ : Instr) : Bool := true

namespace Machine

/-- The offset of an access. -/
def Access.offset : Access → Offset
  | .read off _ => off
  | .write off _ _ => off

/-- The width of an access. -/
def Access.width : Access → AccessWidth
  | .read _ width => width
  | .write _ width _ => width

/-- The access is 32 bits wide (spec 20_memory R73). -/
def Access.wordWide (a : Access) : Bool := decide (a.width = .bits32)

/-- The access is aligned: `off mod 4 = 0` (spec 20_memory R74). -/
def Access.aligned (a : Access) : Bool := decide (a.offset.toNat % 4 = 0)

/-- The access is within the bus contract (spec 20_memory R73, R74). -/
def Access.wellFormed (a : Access) : Bool := a.wordWide && a.aligned

end Machine

end Sys2Proof
end

