-- ==== Sys2Proof/Machine/State.lean ====
section
/-! DEFINITION. The state of AMG-CORE (spec 10_state R30: registers, frame buffer, `core_state` with
the encoder's transient registers, in-flight frame), the reasons a step can stop, and the state
after reset (70_reset R261).

Fields under "the model's own" are no state of the block: the parameters, the input ports, the
pending events, the read port and the counter of free values (INVENTORY.md, State). -/

namespace Sys2Proof.Machine

/-- The states of the Core (spec 10_state R51). -/
inductive CoreState where
  | idle
  | prep
  | emit
  | wait
  | halt
deriving DecidableEq, Repr

/-- The phase of the bit being sent (spec 10_state R52). -/
inductive Phase where
  | high
  | low
deriving DecidableEq, Repr

/-- A (logic-level, duration) pair, one half of a protocol bit (spec 00_scope glossary, 41_encoder
R138). -/
structure PulseEdge where
  /-- true is level 1, the high phase. -/
  level : Bool
  /-- The duration in ticks. -/
  ticks : Nat
deriving DecidableEq, Repr

/-- The encoder's transient registers (spec 10_state R52). Their values matter in PREP, EMIT and
WAIT only. -/
structure Encoder where
  /-- The sampled tick rate (41_encoder R133). -/
  rate : Word
  /-- Ticks of the high phase of a 0 bit (R134). -/
  t0h : Nat
  /-- Ticks of the low phase of a 0 bit (R134). -/
  t0l : Nat
  /-- Ticks of the high phase of a 1 bit (R134). -/
  t1h : Nat
  /-- Ticks of the low phase of a 1 bit (R134). -/
  t1l : Nat
  /-- Pixel index, 0 to N. -/
  p : Nat
  /-- Bit index, 0 to 23. -/
  b : Nat
  /-- Phase. -/
  ph : Phase
  /-- The GRB word of pixel `p` (R136). -/
  word : BitVec 24
  /-- `E`, the edges built so far. -/
  edges : List PulseEdge
deriving DecidableEq, Repr

/-- The frame buffer's storage as the byte lanes of its window (spec 10_state R49, 20_memory R72,
R75): (aperture offset, byte) pairs, offsets strictly rising, no byte 0. An unlisted byte reads 0,
which is the reset contents (70_reset R261). The operations are in Ops.lean (log 10). -/
abbrev Memory := List Host.Cell

/-- The state of the machine. -/
structure State where
  /-- `PITCH` (10_state R38). -/
  pitch : F32
  /-- `ROLL` (10_state R38). -/
  roll : F32
  /-- `DT` (10_state R39). -/
  dt : F32
  /-- `MULT` (10_state R40). -/
  mult : F32
  /-- `COLOR`, bits 23:0 (10_state R41). -/
  color : Pixel
  /-- `XY`, bits 15:0 (10_state R42). -/
  xy : BitVec 16
  /-- `DIR`, bits 3:0 (10_state R45). -/
  dir : BitVec 4
  /-- `POS`, bits 15:0 (10_state R46). -/
  pos : BitVec 16
  /-- `FX` (10_state R47). -/
  fx : F32
  /-- `FY` (10_state R47). -/
  fy : F32
  /-- `STATUS.BADCMD` (10_state R34). -/
  badcmd : Bool
  /-- `STATUS.DROP` (10_state R34). -/
  drop : Bool
  /-- `STATUS.ERRCODE` (10_state R36, 60_exceptions R221). -/
  errcode : BitVec 4
  /-- `core_state` (10_state R51); `BUSY` and `FATAL` are derived from it (R35, R36). -/
  coreState : CoreState
  /-- The transient registers (10_state R52). -/
  enc : Encoder
  /-- The in-flight frame transaction (10_state R53): what `frame_out` carries. -/
  inFlight : Option (List PulseEdge)
  /-- The frame buffer (10_state R50). -/
  mem : Memory
  /-- The model's own: the parameters (00_scope R7), never written (log 1). -/
  cfg : Config
  /-- The model's own: the present value of the port `tick_rate` (log 5). -/
  tickRate : Word
  /-- The model's own: the pending events, next one first (log 3). -/
  inputs : List Input
  /-- The model's own: the word the last Host read returned (log 13). -/
  hostRead : Option Word
  /-- The model's own: frames that a reset abandoned in WAIT and the Transmitter has yet to answer
  (log 12). -/
  abandoned : Nat
  /-- The model's own: how many times the transient registers became unspecified (log 7). -/
  draws : Nat
deriving DecidableEq, Repr

/-- Why the machine stops with a fault: never. Every error the spec names is a next state, HALT or a
sticky flag (60_exceptions R220), so no constructor stands here; nothing raises a fault (safe). -/
inductive Fault where
deriving DecidableEq, Repr

/-- Why a step is refused. -/
inductive Refusal where
  /-- An instruction without a meaning, by its mnemonic in the opcode table. Raised only by exec's
  refused arms, of which there is none (safe). -/
  | notModelled (mnemonic : String)
  /-- A Host access that is not 32 bits wide: outside the interface contract, "a model refuses it"
  (20_memory R73). Raised by the bus (safe). -/
  | accessWidth
  /-- A misaligned Host access: outside the interface contract (20_memory R74). Raised by the bus
  (safe). -/
  | misaligned
  /-- The parameters lie outside the ranges of 00_scope R7: "refuse the configuration"
  (93_implementation_defined section 3). Raised by `step` (safe). -/
  | illegalConfiguration
deriving DecidableEq, Repr

/-- The transient registers that `State.reset` holds. DESIGN CHOICE: the spec leaves them
unspecified (70_reset R261, log 6). -/
def Encoder.atReset : Encoder where
  rate := 0#32
  t0h := 0
  t0l := 0
  t1h := 0
  t1l := 0
  p := 0
  b := 0
  ph := .high
  word := 0#24
  edges := []

/-- The part with parameters `c` right after power-on (70_reset R260, R261). The values of the
model's own fields are DESIGN CHOICES (log 5 for `tickRate`, log 7 for `draws`). -/
def State.resetOf (c : Config) : State where
  pitch := 0#32
  roll := 0#32
  dt := 0#32
  mult := resetMult
  color := 0#24
  xy := 0#16
  dir := resetDir
  pos := packXY (xCentre c) (yCentre c)
  fx := i2f (xCentre c)
  fy := i2f (yCentre c)
  badcmd := false
  drop := false
  errcode := 0#4
  coreState := .idle
  enc := Encoder.atReset
  inFlight := none
  mem := []
  cfg := c
  tickRate := 80000000#32
  inputs := []
  hostRead := none
  abandoned := 0
  draws := 0

/-- The machine right after reset: `State.resetOf` at the board's parameters, of which the OPEN ones
are DESIGN CHOICES (log 1). -/
def State.reset : State := State.resetOf Config.board

end Sys2Proof.Machine
end

