-- ==== Sys2Proof/Machine/Flags.lean ====
section
/-! DEFINITION. `STATUS` and its five fields (spec 10_state R34 to R37): the flags of AMG-CORE. -/

namespace Sys2Proof.Machine

/-- `BUSY`: 1 exactly when `core_state` is PREP, EMIT or WAIT (10_state R35). -/
def busy (s : State) : Bool :=
  match s.coreState with
  | .idle => false
  | .prep => true
  | .emit => true
  | .wait => true
  | .halt => false

/-- `FATAL`: 1 exactly when `core_state` is HALT (10_state R36). -/
def fatal (s : State) : Bool :=
  match s.coreState with
  | .idle => false
  | .prep => false
  | .emit => false
  | .wait => false
  | .halt => true

/-- The word a read of `STATUS` returns: `ERRCODE` in 7:4, `DROP` 3, `BADCMD` 2, `FATAL` 1, `BUSY` 0
(10_state R34). -/
def statusWord (s : State) : Word :=
  0#24 ++ s.errcode ++ BitVec.ofBool s.drop ++ BitVec.ofBool s.badcmd ++
    BitVec.ofBool (fatal s) ++ BitVec.ofBool (busy s)

/-- `STATUS.BADCMD <- 1` (60_exceptions R229). -/
def setBadcmd (s : State) : State := { s with badcmd := true }

/-- `STATUS.DROP <- 1` (60_exceptions R230). -/
def setDrop (s : State) : State := { s with drop := true }

/-- A Host write of `v` to `STATUS` outside HALT: bits 2 and 3 are write-one-to-clear, no other bit
changes (10_state R34). -/
def clearSticky (v : Word) (s : State) : State :=
  { s with badcmd := s.badcmd && !v.getLsbD 2, drop := s.drop && !v.getLsbD 3 }

end Sys2Proof.Machine
end

