-- ==== Sys2Proof/Machine/Ops.lean ====
section
/-! DEFINITION. The named operations over the frame buffer, the register updates, command acceptance
(spec 60_exceptions R231), taking a fatal error (R224) and, beside it, the only way back: reset
(R227, 70_reset R260). -/

namespace Sys2Proof.Machine

/-! ### The frame buffer as bytes of its window -/

/-- The offset of the window `FBW` (20_memory R72). -/
def windowBase : Nat := 0x40000

/-- The byte at an aperture offset; an unlisted byte is 0 (70_reset R261). -/
def readByte : Memory → Nat → Byte
  | [], _ => 0#8
  | c :: m, a => if c.1 = a then c.2 else readByte m a

/-- Put a cell before the first cell of a higher address. -/
def insertCell : Memory → Host.Cell → Memory
  | [], c => [c]
  | d :: m, c => if c.1 < d.1 then c :: d :: m else d :: insertCell m c

/-- Write one byte, keeping the canonical form: the value an unlisted byte reads as is not listed. -/
def writeByte (m : Memory) (a : Nat) (v : Byte) : Memory :=
  let others := m.filter (fun c => decide (c.1 ≠ a))
  if v = 0#8 then others else insertCell others (a, v)

/-- The canonical form of a memory: addresses strictly rising, no byte listed that reads the same
unlisted. -/
abbrev memoryWf (m : Memory) : Prop :=
  m.Pairwise (fun c d => c.1 < d.1) ∧ ∀ c ∈ m, c.2 ≠ 0#8

/-- The offset of byte lane `k` of the window's word `i` (20_memory R72, R75). -/
def laneAddr (i k : Nat) : Nat := windowBase + 4 * i + k

/-- The byte offsets that hold the pixels `FB[0 .. n-1]`: lanes 0 to 2 of the window's words; lane 3
reads 0 (10_state R49). -/
def isPixelByte (n a : Nat) : Bool :=
  decide (windowBase ≤ a) && decide (a < windowBase + 4 * n) && decide (a % 4 ≠ 3)

/-- `FB[i]` in natural order: red in lane 2, green in lane 1, blue in lane 0 (10_state R49, R50). -/
def readPixel (m : Memory) (i : Nat) : Pixel :=
  readByte m (laneAddr i 2) ++ readByte m (laneAddr i 1) ++ readByte m (laneAddr i 0)

/-- `FB[i] <- px`. -/
def writePixel (m : Memory) (i : Nat) (px : Pixel) : Memory :=
  writeByte (writeByte (writeByte m (laneAddr i 0) (px.extractLsb' 0 8))
    (laneAddr i 1) (px.extractLsb' 8 8)) (laneAddr i 2) (px.extractLsb' 16 8)

/-- `for i in 0 .. n-1: FB[i] <- 0x000000` (40_framebuffer R101). -/
def clearPixels (n : Nat) (m : Memory) : Memory :=
  m.filter (fun c => !isPixelByte n c.1)

/-- `FB[i]` of a state. -/
def pixel (s : State) (i : Nat) : Pixel := readPixel s.mem i

/-! ### Register updates -/

/-- `FB <- m`. -/
def setMem (m : Memory) (s : State) : State := { s with mem := m }

/-- `reg(DIR) <- code`. -/
def setDir (code : BitVec 4) (s : State) : State := { s with dir := code }

/-- `reg(MULT) <- v`. -/
def setMult (v : F32) (s : State) : State := { s with mult := v }

/-- `reg(FX) <- fx; reg(FY) <- fy; reg(POS) <- { y[7:0], x[7:0] }`. -/
def setMotion (fx fy : F32) (x y : Nat) (s : State) : State :=
  { s with fx := fx, fy := fy, pos := packXY x y }

/-- `core_state <- cs` together with the transient registers. -/
def setEncoder (cs : CoreState) (e : Encoder) (s : State) : State :=
  { s with coreState := cs, enc := e }

/-! ### Transient registers outside a frame -/

/-- The transient registers as the spec leaves them in IDLE and HALT: unspecified (10_state R52).
Each is a free value within its width (log 7). -/
def unspecifiedEncoder (c : Config) (n : Nat) : Encoder where
  rate := Config.freeRate n
  t0h := Config.freeTicks n 0 % 2 ^ c.durBits
  t0l := Config.freeTicks n 1 % 2 ^ c.durBits
  t1h := Config.freeTicks n 2 % 2 ^ c.durBits
  t1l := Config.freeTicks n 3 % 2 ^ c.durBits
  p := Config.freePixelIndex n % (pixelCount c + 1)
  b := Config.freeBitIndex n % 24
  ph := if Config.freePhaseHigh n then .high else .low
  word := Config.freeGrbWord n
  edges := (Config.freeEdges n).map (fun e => ⟨e.1, e.2⟩)

/-- The encoder leaves a frame for `cs` (IDLE or HALT): the in-flight frame is gone and the
transient registers become unspecified (41_encoder R148, 60_exceptions R224). -/
def leaveFrame (cs : CoreState) (s : State) : State :=
  { s with
    coreState := cs
    inFlight := none
    enc := unspecifiedEncoder s.cfg s.draws
    draws := s.draws + 1 }

/-! ### Fatal errors, reset, acceptance -/

/-- `ERRCODE` 1: the sampled tick rate is 0 (60_exceptions R221). -/
def noTickRate : BitVec 4 := 1#4

/-- `ERRCODE` 2: a tick count is 0 or above `DUR_MAX` (60_exceptions R221). -/
def pulseRange : BitVec 4 := 2#4

/-- `ERRCODE` 3: the Transmitter answered HW_ERROR (60_exceptions R221). -/
def txError : BitVec 4 := 3#4

/-- `raise Fatal(code)`: the one fatal entry of the block (60_exceptions R224). `ERRCODE` takes the
code, the Core halts, the frame is discarded; nothing is saved and there is no handler. -/
def raiseFatal (code : BitVec 4) (s : State) : State :=
  leaveFrame .halt { s with errcode := code }

/-- The reset input (70_reset R260, R261, R263), the only way out of HALT (60_exceptions R227):
every piece of the block's state takes its reset value, the transient registers become
unspecified. The parameters, the ports and the pending events are not the block's state. A frame in
WAIT is abandoned, and the Transmitter still owes its answer (log 12). -/
def resetBlock (s : State) : State :=
  { State.resetOf s.cfg with
    enc := unspecifiedEncoder s.cfg s.draws
    draws := s.draws + 1
    tickRate := s.tickRate
    inputs := s.inputs
    hostRead := s.hostRead
    abandoned := if s.coreState = .wait then s.abandoned + 1 else s.abandoned }

/-- The acceptance order of a legal command (60_exceptions R231): HALT ignores it, BUSY drops it and
sets `DROP`, IDLE executes it. A reserved word goes the same way with `setBadcmd` as its effect. -/
def whenIdle (effect : State → State) (s : State) : State :=
  match s.coreState with
  | .idle => effect s
  | .prep => setDrop s
  | .emit => setDrop s
  | .wait => setDrop s
  | .halt => s

end Sys2Proof.Machine
end

