-- ==== Sys2Proof/Machine/Operands.lean ====
section
/-! DEFINITION. The operands commands read from registers (spec 30_encoding R91, R92) and the
in-bounds predicate (40_framebuffer R104). -/

namespace Sys2Proof.Machine

/-- The x coordinate of `XY` or `POS`: bits 7:0 (10_state R42, R46). -/
def coordX (r : BitVec 16) : Nat := (r.extractLsb' 0 8).toNat

/-- The y coordinate of `XY` or `POS`: bits 15:8 (10_state R42, R46). -/
def coordY (r : BitVec 16) : Nat := (r.extractLsb' 8 8).toNat

/-- `inb(x, y)` (40_framebuffer R104). -/
def inBounds (c : Config) (x y : Nat) : Bool := decide (x < c.width) && decide (y < c.height)

/-- `y*WIDTH + x`, row-major (10_state R50, 40_framebuffer R104). -/
def pixelIndex (c : Config) (x y : Nat) : Nat := y * c.width + x

/-- `setAt(x, y, color)`: an out-of-bounds write is a silent no-op (40_framebuffer R102,
60_exceptions R232). -/
def setAt (c : Config) (x y : Nat) (color : Pixel) (m : Memory) : Memory :=
  if inBounds c x y then writePixel m (pixelIndex c x y) color else m

end Sys2Proof.Machine
end

