-- ==== Sys2Proof/Machine/Encoder.lean ====
section
/-! DEFINITION. The protocol encoder: ENCODE, the PREP and EMIT steps of its state machine, the
Transmitter's answer, and the functions they are built from (spec 41_encoder). -/

namespace Sys2Proof.Machine

/-! ### Functions of the encoder -/

/-- `ticks(ns, rate) = floor(ns * rate / 10^9)` in exact integers (41_encoder R134). -/
def ticks (ns rate : Nat) : Nat := ns * rate / 1000000000

/-- A PulseEdge of duration `d` can be constructed (41_encoder R135). -/
def pulseOk (c : Config) (d : Nat) : Bool := decide (1 ≤ d) && decide (d ≤ durMax c)

/-- `grb(px)`: green, red, blue (41_encoder R136). -/
def grb (px : Pixel) : BitVec 24 :=
  px.extractLsb' 8 8 ++ px.extractLsb' 16 8 ++ px.extractLsb' 0 8

/-- The duration of the high phase of a bit (41_encoder R138). -/
def highTicks (e : Encoder) (v : Bool) : Nat := if v then e.t1h else e.t0h

/-- The duration of the low phase of a bit (41_encoder R138). -/
def lowTicks (e : Encoder) (v : Bool) : Nat := if v then e.t1l else e.t0l

/-- `pair(v)`: the high edge, then the low edge, of a bit (41_encoder R138). -/
def bitPair (e : Encoder) (v : Bool) : List PulseEdge :=
  [⟨true, highTicks e v⟩, ⟨false, lowTicks e v⟩]

/-- The pairs of bits n-1 down to 0 of a GRB word, most significant first (41_encoder R137). -/
def bitPairs (e : Encoder) (word : BitVec 24) : Nat → List PulseEdge
  | 0 => []
  | n + 1 => bitPair e (word.getLsbD n) ++ bitPairs e word n

/-- The 48 edges of a pixel (41_encoder R136, R137, R138). -/
def pixelEdges (e : Encoder) (px : Pixel) : List PulseEdge := bitPairs e (grb px) 24

/-- The edges of pixels 0 to n-1 in row-major order (41_encoder R140). -/
def frameEdges (e : Encoder) (m : Memory) : Nat → List PulseEdge
  | 0 => []
  | n + 1 => frameEdges e m n ++ pixelEdges e (readPixel m n)

/-- `edge_word(l, d) = (l << DUR_BITS) | d`, at most 32 bits (41_encoder R139). -/
def edgeWord (c : Config) (e : PulseEdge) : Word :=
  ((BitVec.ofBool e.level).setWidth 32 <<< c.durBits) ||| BitVec.ofNat 32 e.ticks

/-- What `frame_out` carries, as edge words (41_encoder R139, R147). -/
def frameOutWords (s : State) : Option (List Word) :=
  s.inFlight.map (fun E => E.map (edgeWord s.cfg))

/-- The duration of a list of edges in ticks (41_encoder R151, 70_reset R272). -/
def totalTicks (E : List PulseEdge) : Nat := (E.map PulseEdge.ticks).sum

/-! ### The command -/

/-- The effect of an accepted ENCODE: PREP, so `BUSY` is 1; the state machine below does the rest
(41_encoder R130, R131). -/
def encodeEffect (s : State) : State := setEncoder .prep s.enc s

/-- ENCODE (41_encoder R130). -/
def execEncode (s : State) : Host.Outcome State Fault Refusal :=
  .next (whenIdle encodeEffect s)

/-! ### The state machine -/

/-- The transient registers with the tick rate sampled and the four counts converted (41_encoder
R133, R134). -/
def sampled (s : State) : Encoder :=
  let rate := s.tickRate.toNat
  { s.enc with
    rate := s.tickRate
    t0h := ticks s.cfg.t0hNs rate
    t0l := ticks s.cfg.t0lNs rate
    t1h := ticks s.cfg.t1hNs rate
    t1l := ticks s.cfg.t1lNs rate }

/-- All four counts make pulses (41_encoder R135). -/
def countsOk (c : Config) (e : Encoder) : Bool :=
  pulseOk c e.t0h && pulseOk c e.t0l && pulseOk c e.t1h && pulseOk c e.t1l

/-- The PREP step: no tick rate is fatal, then a count out of range is fatal, else EMIT from the
first edge (41_encoder R131, R132, R135). -/
def prepStep (s : State) : State :=
  if s.tickRate = 0#32 then raiseFatal noTickRate s
  else if countsOk s.cfg (sampled s) then
    setEncoder .emit { sampled s with p := 0, b := 23, ph := .high, edges := [] } s
  else raiseFatal pulseRange s

/-- The high half of R143: load the pixel's word at bit 23, append the high edge. -/
def emitHigh (s : State) : Encoder :=
  let e := s.enc
  let word := if e.b = 23 then grb (pixel s e.p) else e.word
  { e with
    word := word
    edges := e.edges ++ [⟨true, highTicks e (word.getLsbD e.b)⟩]
    ph := .low }

/-- The low half of R143: append the low edge, go to the next bit or the next pixel. -/
def emitLow (e : Encoder) : Encoder :=
  { e with
    edges := e.edges ++ [⟨false, lowTicks e (e.word.getLsbD e.b)⟩]
    ph := .high
    b := if 0 < e.b then e.b - 1 else 23
    p := if 0 < e.b then e.p else e.p + 1 }

/-- `emit_frame(E)`: hand the whole list to the Transmitter as one transaction and wait (41_encoder
R147). -/
def emitFrame (e : Encoder) (s : State) : State :=
  { setEncoder .wait e s with inFlight := some e.edges }

/-- The EMIT step: exactly one edge; after the last one the frame is handed over (41_encoder
R143). -/
def emitStep (s : State) : State :=
  match s.enc.ph with
  | .high => setEncoder .emit (emitHigh s) s
  | .low =>
    let e := emitLow s.enc
    if e.p = pixelCount s.cfg then emitFrame e s else setEncoder .emit e s

/-- A step of the Core's state machine (41_encoder R131): PREP and EMIT step; in IDLE and HALT the
Core takes no step (60_exceptions R226) and in WAIT it waits for the Transmitter. -/
def coreStep (s : State) : State :=
  match s.coreState with
  | .idle => s
  | .prep => prepStep s
  | .emit => emitStep s
  | .wait => s
  | .halt => s

/-- The Transmitter's answer arrives. An answer it owes to an abandoned frame is discarded (70_reset
R263, log 12). In WAIT, OK ends the frame (41_encoder R148) and HW_ERROR is fatal (R149). No other
state has a transition on an answer (R131, log 11). -/
def receiveAnswer (r : TxAnswer) (s : State) : State :=
  match s.abandoned with
  | k + 1 => { s with abandoned := k }
  | 0 =>
    match s.coreState with
    | .idle => s
    | .prep => s
    | .emit => s
    | .wait =>
      match r with
      | .ok => leaveFrame .idle s
      | .hwError => raiseFatal txError s
    | .halt => s

end Sys2Proof.Machine
end

