-- ==== Sys2Proof/Machine/FrameBuffer.lean ====
section
/-! DEFINITION. The frame-buffer commands NOP, CLEAR, SETPIX and RENDER (spec 40_framebuffer). Each
is accepted as 60_exceptions R231 says and writes no flag. -/

namespace Sys2Proof.Machine

/-- NOP (40_framebuffer R100): no effect. -/
def execNop (s : State) : Host.Outcome State Fault Refusal :=
  .next (whenIdle id s)

/-- The effect of CLEAR: every pixel black (40_framebuffer R101). -/
def clearEffect (s : State) : State := setMem (clearPixels (pixelCount s.cfg) s.mem) s

/-- CLEAR (40_framebuffer R101). -/
def execClear (s : State) : Host.Outcome State Fault Refusal :=
  .next (whenIdle clearEffect s)

/-- The effect of SETPIX: `COLOR` at the coordinates of `XY` if they are in bounds (40_framebuffer
R102). -/
def setpixEffect (s : State) : State :=
  setMem (setAt s.cfg (coordX s.xy) (coordY s.xy) s.color s.mem) s

/-- SETPIX (40_framebuffer R102). -/
def execSetpix (s : State) : Host.Outcome State Fault Refusal :=
  .next (whenIdle setpixEffect s)

/-- The effect of RENDER: every pixel black, then `COLOR` at the coordinates of `POS`
(40_framebuffer R103). -/
def renderEffect (s : State) : State :=
  setMem (setAt s.cfg (coordX s.pos) (coordY s.pos) s.color
    (clearPixels (pixelCount s.cfg) s.mem)) s

/-- RENDER (40_framebuffer R103). -/
def execRender (s : State) : Host.Outcome State Fault Refusal :=
  .next (whenIdle renderEffect s)

end Sys2Proof.Machine
end

