-- ==== Sys2Proof/Machine/Motion.lean ====
section
/-! DEFINITION. The motion engine: the angular sector quantizer, the speed ramp, continuous and
discrete mode (spec 42_motion). -/

namespace Sys2Proof.Machine

/-! ### Constants and the quantizer -/

/-- A constant written with a minus sign: the same pattern with bit 31 set (42_motion R172). -/
def minus (v : F32) : F32 := v ||| 0x80000000#32

/-- `RAD2DEG`, the binary32 nearest to 180/π (42_motion R172). -/
def rad2deg : F32 := 0x42652EE1#32

/-- 22.5 (42_motion R172). -/
def b1 : F32 := 0x41B40000#32

/-- 67.5 (42_motion R172). -/
def b2 : F32 := 0x42870000#32

/-- 112.5 (42_motion R172). -/
def b3 : F32 := 0x42E10000#32

/-- 157.5 (42_motion R172). -/
def b4 : F32 := 0x431D8000#32

/-- 90.0 (42_motion R172). -/
def ninety : F32 := 0x42B40000#32

/-- 1.0 (42_motion R172). -/
def one : F32 := 0x3F800000#32

/-- 15.0 (42_motion R172). -/
def fifteen : F32 := 0x41700000#32

/-- +0.0. -/
def plusZero : F32 := 0#32

/-- One of the nine symbolic values of a Direction (10_state R45). -/
inductive Direction where
  | e
  | ne
  | n
  | nw
  | w
  | sw
  | s
  | se
  | stay
deriving DecidableEq, Repr

/-- The code of a Direction in `DIR` (10_state R45). -/
def dirCode : Direction → BitVec 4
  | .e => 0#4
  | .ne => 1#4
  | .n => 2#4
  | .nw => 3#4
  | .w => 4#4
  | .sw => 5#4
  | .s => 6#4
  | .se => 7#4
  | .stay => 8#4

/-- `mag(p, r)`, the magnitude sqrt(pitch² + roll²) in binary32 (42_motion R173). -/
def mag (p r : F32) : F32 := fsqrt (fadd (fmul p p) (fmul r r))

/-- `ATAN2_F32(y, x)`: the configuration's fixed points, elsewhere the uninterpreted function
(42_motion R171, log 2). -/
def atan2 (c : Config) (y x : F32) : F32 :=
  match c.atan2Points.find? (fun pt => decide (pt.1 = (y, x))) with
  | some pt => pt.2
  | none => Config.atan2F32 y x

/-- `ang(p, r)`: the angle in degrees, pitch the first argument (42_motion R175). -/
def ang (c : Config) (p r : F32) : F32 := fmul (atan2 c p r) rad2deg

/-- `bucket(a)`: the boundary table of half-open intervals (42_motion R176). A NaN angle falls into
the last row. -/
def bucket (a : F32) : Direction :=
  if fge a (minus b1) && flt a b1 then .e
  else if fge a b1 && flt a b2 then .ne
  else if fge a b2 && flt a b3 then .n
  else if fge a b3 && flt a b4 then .nw
  else if fge a (minus b2) && flt a (minus b1) then .se
  else if fge a (minus b3) && flt a (minus b2) then .s
  else if fge a (minus b4) && flt a (minus b3) then .sw
  else .w

/-- `quant(p, r)`: Stay in the dead zone, else the bucket of the angle (42_motion R174, R176).
DESIGN CHOICE (log 22): R177 says that a NaN `PITCH` gives W, R171 that the spec assumes no
special-case value of `ATAN2_F32`. The model follows R171, so a NaN `PITCH` is never Stay, and is W
exactly where the bucket of the part's own angle is. -/
def quant (c : Config) (p r : F32) : Direction :=
  if flt (mag p r) c.moveThresh then .stay else bucket (ang c p r)

/-- The Direction of a state's `PITCH` and `ROLL`. -/
def stateDirection (s : State) : Direction := quant s.cfg s.pitch s.roll

/-- The effect of QUANT (42_motion R177). -/
def quantEffect (s : State) : State := setDir (dirCode (stateDirection s)) s

/-- QUANT (42_motion R177). -/
def execQuant (s : State) : Host.Outcome State Fault Refusal :=
  .next (whenIdle quantEffect s)

/-! ### The speed ramp -/

/-- The ramp parameter `t = clamp(m / 90, 0, 1)` (42_motion R178). -/
def rampT (p r : F32) : F32 := clamp (fdiv (mag p r) ninety) plusZero one

/-- The multiplier at ramp parameter `t`: 1 + (1 - (1 - t)^4) * 15, each operation rounded, the
fourth power by squaring twice (42_motion R178). -/
def rampOf (t : F32) : F32 :=
  let u := fsub one t
  let q := fmul u u
  let u4 := fmul q q
  fadd one (fmul (fsub one u4) fifteen)

/-- `ramp(p, r)` (42_motion R178). -/
def ramp (p r : F32) : F32 := rampOf (rampT p r)

/-- The effect of RAMP (42_motion R179). -/
def rampEffect (s : State) : State := setMult (ramp s.pitch s.roll) s

/-- RAMP (42_motion R179). -/
def execRamp (s : State) : Host.Outcome State Fault Refusal :=
  .next (whenIdle rampEffect s)

/-! ### Continuous mode -/

/-- `vel(d)`: the velocity of a Direction (42_motion R181). -/
def velocity (c : Config) : Direction → F32 × F32
  | .e => (one, plusZero)
  | .ne => (c.diag, c.diag)
  | .n => (plusZero, one)
  | .nw => (minus c.diag, c.diag)
  | .w => (minus one, plusZero)
  | .sw => (minus c.diag, minus c.diag)
  | .s => (plusZero, minus one)
  | .se => (c.diag, minus c.diag)
  | .stay => (plusZero, plusZero)

/-- One coordinate of MOVEC: old + velocity * elapsed * multiplier, left to right, clamped to
[0, max] (42_motion R182). -/
def integrate (old v dt mult : F32) (max : Nat) : F32 :=
  clamp (fadd old (fmul (fmul v dt) mult)) plusZero (i2f max)

/-- The effect of MOVEC: `DIR` always; in the dead zone nothing else (42_motion R182, R183); else
both coordinates and `POS`, their floor (R184). -/
def movecEffect (s : State) : State :=
  let d := stateDirection s
  if d = .stay then setDir (dirCode d) s
  else
    let v := velocity s.cfg d
    let fx := integrate s.fx v.1 s.dt s.mult (xMax s.cfg)
    let fy := integrate s.fy v.2 s.dt s.mult (yMax s.cfg)
    setMotion fx fy (ffloor fx) (ffloor fy) (setDir (dirCode d) s)

/-- MOVEC (42_motion R182). -/
def execMovec (s : State) : Host.Outcome State Fault Refusal :=
  .next (whenIdle movecEffect s)

/-! ### Discrete mode -/

/-- `disp(d)`: the displacement of a Direction (42_motion R185). -/
def displacement : Direction → Int × Int
  | .e => (1, 0)
  | .ne => (1, 1)
  | .n => (0, 1)
  | .nw => (-1, 1)
  | .w => (-1, 0)
  | .sw => (-1, -1)
  | .s => (0, -1)
  | .se => (1, -1)
  | .stay => (0, 0)

/-- One coordinate of MOVED: one cell, saturating at the edges of its own axis (42_motion R186,
R187). -/
def stepCell (old : Nat) (delta : Int) (max : Nat) : Nat := (sat (old + delta) 0 max).toNat

/-- The effect of MOVED: `DIR` always; on Stay nothing else; else `POS` one cell on and the
fractional state at the new cell (42_motion R186, R188). -/
def movedEffect (s : State) : State :=
  let d := stateDirection s
  if d = .stay then setDir (dirCode d) s
  else
    let x := stepCell (coordX s.pos) (displacement d).1 (xMax s.cfg)
    let y := stepCell (coordY s.pos) (displacement d).2 (yMax s.cfg)
    setMotion (i2f x) (i2f y) x y (setDir (dirCode d) s)

/-- MOVED (42_motion R186). -/
def execMoved (s : State) : Host.Outcome State Fault Refusal :=
  .next (whenIdle movedEffect s)

end Sys2Proof.Machine
end

