-- ==== Sys2Proof/Machine/Dispatch.lean ====
section
/-! DEFINITION. One arm per command, each one direct call of its meaning (spec 30_encoding R97). -/

namespace Sys2Proof.Machine

def exec (i : Instr) (s : State) : Host.Outcome State Fault Refusal :=
  match i with
  | .nop => Sys2Proof.Machine.execNop s
  | .clear => Sys2Proof.Machine.execClear s
  | .setpix => Sys2Proof.Machine.execSetpix s
  | .render => Sys2Proof.Machine.execRender s
  | .quant => Sys2Proof.Machine.execQuant s
  | .ramp => Sys2Proof.Machine.execRamp s
  | .movec => Sys2Proof.Machine.execMovec s
  | .moved => Sys2Proof.Machine.execMoved s
  | .encode => Sys2Proof.Machine.execEncode s

end Sys2Proof.Machine
end

