-- ==== Sys2Proof/Machine/Bus.lean ====
section
/-! DEFINITION. The Host bus: the register map (spec 10_state R33), `MemRead` and `MemWrite`
(20_memory R78), `issue_command` (30_encoding R97, 60_exceptions R231). -/

namespace Sys2Proof.Machine

/-- The named registers of the map (10_state R33). -/
inductive Reg where
  | status
  | cmd
  | cfg
  | dir
  | pitch
  | roll
  | dt
  | mult
  | color
  | xy
  | pos
  | fx
  | fy
deriving DecidableEq, Repr

/-- The offset of a register (10_state R33). -/
def regOffset : Reg → Offset
  | .status => 0x000#19
  | .cmd => 0x004#19
  | .cfg => 0x008#19
  | .dir => 0x00C#19
  | .pitch => 0x010#19
  | .roll => 0x014#19
  | .dt => 0x018#19
  | .mult => 0x01C#19
  | .color => 0x020#19
  | .xy => 0x024#19
  | .pos => 0x028#19
  | .fx => 0x02C#19
  | .fy => 0x030#19

/-- All the registers of the map, in the order of their offsets. -/
def allRegs : List Reg :=
  [.status, .cmd, .cfg, .dir, .pitch, .roll, .dt, .mult, .color, .xy, .pos, .fx, .fy]

/-- The register at an offset, if there is one (10_state R33, 20_memory R72). -/
def regAt (off : Offset) : Option Reg := allRegs.find? (fun r => decide (regOffset r = off))

/-- `CFG`: `{7'b0, HEIGHT[8:0], 7'b0, WIDTH[8:0]}` (10_state R33, R44). -/
def cfgWord (c : Config) : Word :=
  0#7 ++ BitVec.ofNat 9 c.height ++ 0#7 ++ BitVec.ofNat 9 c.width

/-- What a read of a register returns; bits not used read 0, and `CMD` reads 0 (10_state R33, R43,
20_memory R78). -/
def readReg (r : Reg) (s : State) : Word :=
  match r with
  | .status => statusWord s
  | .cmd => 0#32
  | .cfg => cfgWord s.cfg
  | .dir => s.dir.setWidth 32
  | .pitch => s.pitch
  | .roll => s.roll
  | .dt => s.dt
  | .mult => s.mult
  | .color => s.color.setWidth 32
  | .xy => s.xy.setWidth 32
  | .pos => s.pos.setWidth 32
  | .fx => s.fx
  | .fy => s.fy

/-- The offset lies in the frame-buffer window `FBW[0 .. N-1]` (20_memory R72). -/
def inWindow (c : Config) (off : Offset) : Bool :=
  decide (windowBase ≤ off.toNat) && decide (off.toNat < windowBase + 4 * pixelCount c)

/-- `MemRead(off, 4)` (20_memory R78): no side effect (R79); reserved and unmapped offsets read 0
(R76). -/
def memRead (off : Offset) (s : State) : Word :=
  match regAt off with
  | some r => readReg r s
  | none =>
    if inWindow s.cfg off then (pixel s ((off.toNat - windowBase) / 4)).setWidth 32 else 0#32

/-- `issue_command(w)` (60_exceptions R231): a legal word goes to its meaning, which applies the
acceptance order; a reserved word that is accepted sets `BADCMD` and nothing else (R229). -/
def issueCommand (w : Word) (s : State) : Host.Outcome State Fault Refusal :=
  match decode w with
  | .ok i => exec i s
  | .error _ => .next (whenIdle setBadcmd s)

/-- A Host write to a register outside HALT (20_memory R77, R78). -/
def writeReg (r : Reg) (v : Word) (s : State) : Host.Outcome State Fault Refusal :=
  match r with
  | .status => .next (clearSticky v s)
  | .cmd => issueCommand v s
  | .cfg => .next s
  | .dir => .next s
  | .pitch => .next { s with pitch := v }
  | .roll => .next { s with roll := v }
  | .dt => .next { s with dt := v }
  | .mult => .next { s with mult := v }
  | .color => .next { s with color := v.extractLsb' 0 24 }
  | .xy => .next { s with xy := v.extractLsb' 0 16 }
  | .pos => .next s
  | .fx => .next s
  | .fy => .next s

/-- `MemWrite(off, 4, v)` (20_memory R78): in HALT every write is ignored (60_exceptions R226); a
write to a reserved or unmapped offset or to `FBW` is ignored (R76, R77). -/
def memWrite (off : Offset) (v : Word) (s : State) : Host.Outcome State Fault Refusal :=
  if s.coreState = .halt then .next s
  else
    match regAt off with
    | some r => writeReg r v s
    | none => .next s

/-- One Host access (20_memory R73, R74, R80): outside the bus contract it is refused. -/
def hostAccess (a : Access) (s : State) : Host.Outcome State Fault Refusal :=
  if !a.wordWide then .refused .accessWidth
  else if !a.aligned then .refused .misaligned
  else
    match a with
    | .read off _ => .next { s with hostRead := some (memRead off s) }
    | .write off _ v => memWrite off v s

/-- The effect of one event of the environment (20_memory R81, 60_exceptions R234). -/
def applyInput (i : Input) (s : State) : Host.Outcome State Fault Refusal :=
  match i with
  | .host a => hostAccess a s
  | .core => .next (coreStep s)
  | .answer r => .next (receiveAnswer r s)
  | .tickRate rate => .next { s with tickRate := rate }
  | .reset => .next (resetBlock s)

/-- Take the next pending event off the list. -/
def popInput (rest : List Input) (s : State) : State := { s with inputs := rest }

/-- The access by which a command word reaches the block: a write to `CMD` (10_state R43,
20_memory R71). -/
def commandAccess (w : Word) : Input := .host (.write (regOffset .cmd) .bits32 w)

end Sys2Proof.Machine
end

