-- ==== Sys2Proof/Machine/Step.lean ====
section
/-! DEFINITION. One step of the machine: the next event of the single order of steps (spec 20_memory
R81); when none is pending, the Core goes on by itself, since PREP and EMIT need no input from the
Host (41_encoder R131). A configuration outside the ranges of 00_scope R7 is refused. -/

namespace Sys2Proof.Machine

/-- One step. -/
def step (s : State) : Host.Outcome State Fault Refusal :=
  if !s.cfg.legal then .refused .illegalConfiguration
  else
    match s.inputs with
    | [] => .next (coreStep s)
    | i :: rest => applyInput i (popInput rest s)

/-- The state in which the Host's next access writes the table word to `CMD`: AMG-CORE fetches
nothing, a command reaches it only so (10_state R32, 20_memory R71, log 4). -/
def State.withFetchWord (s : State) (nbits w : Nat) : State :=
  { s with inputs := commandAccess (BitVec.ofNat 32 (w % 2 ^ nbits)) :: s.inputs }

end Sys2Proof.Machine
end

