-- ==== Sys2Proof/Machine/HostProgram.lean ====
section
/-! DEFINITION. The Host agent of spec 00_scope R6 and the assembler notation of 30_encoding R95 and
R96: a Host program is a list of bus accesses and Host control flow. The block sees the accesses
only; `hostStep` runs one statement against the machine's bus (log 18). -/

namespace Sys2Proof.Machine

/-- The statements of R95. A label is a statement of its own that does nothing. DESIGN CHOICE (log
18): the `NAME` of `wr` and `rd` is one of the thirteen named registers; `FBW[i]`, which the table of
10_state R33 names too, is reached by `rdfb` only, and no statement writes it. -/
inductive Stmt where
  /-- `wr NAME, v`. -/
  | wr (r : Reg) (v : Word)
  /-- `rd NAME -> h`. -/
  | rd (r : Reg) (h : String)
  /-- `rdfb i -> h`. R95 gives no meaning to an index whose offset 0x40000 + 4*i leaves the aperture
  (i ≥ 65536, 20_memory R70); see `runStmt` (log 18). -/
  | rdfb (i : Nat) (h : String)
  /-- `bnz h, mask, label`. -/
  | bnz (h : String) (mask : Word) (target : String)
  /-- `jmp label`. -/
  | jmp (target : String)
  /-- `label:`. -/
  | label (name : String)
  /-- `halt`. -/
  | halt
deriving DecidableEq, Repr

/-- A running Host program: its statements, the index of the next one, its variables. -/
structure HostAgent where
  program : List Stmt
  next : Nat
  vars : List (String × Word)
deriving DecidableEq, Repr

/-- The Host at the first statement of a program, no variable set. -/
def HostAgent.start (program : List Stmt) : HostAgent := ⟨program, 0, []⟩

/-- A Host variable. DESIGN CHOICE (log 18): one that no statement has set reads 0. -/
def HostAgent.var (h : HostAgent) (name : String) : Word :=
  match h.vars.find? (fun v => decide (v.1 = name)) with
  | some v => v.2
  | none => 0#32

/-- The index of a label. DESIGN CHOICE (log 18), where R95 is silent: of a label that stands twice
it is the first, and a label that does not stand in the program ends it. -/
def HostAgent.labelIndex (h : HostAgent) (name : String) : Nat :=
  h.program.findIdx (fun st => decide (st = .label name))

/-- The Host after a statement that does not branch. -/
def HostAgent.advance (h : HostAgent) : HostAgent := { h with next := h.next + 1 }

/-- The Host after a read that returned `v` into a variable. -/
def HostAgent.store (h : HostAgent) (name : String) (v : Word) : HostAgent :=
  { h with next := h.next + 1, vars := (name, v) :: h.vars }

/-- `MemRead` of an offset into a Host variable (R95). -/
def hostReadInto (off : Offset) (name : String) (h : HostAgent) (s : State) :
    Host.Outcome (HostAgent × State) Fault Refusal :=
  match hostAccess (.read off .bits32) s with
  | .next t => .next (h.store name (memRead off s), t)
  | .fault r => .fault r
  | .refused r => .refused r

/-- The effect of one statement (R95). Only `wr`, `rd` and `rdfb` reach the block. DESIGN CHOICE (log
18): an `rdfb` whose offset leaves the 19-bit aperture reads the offset modulo 2^19. -/
def runStmt (st : Stmt) (h : HostAgent) (s : State) :
    Host.Outcome (HostAgent × State) Fault Refusal :=
  match st with
  | .wr r v =>
    match hostAccess (.write (regOffset r) .bits32 v) s with
    | .next t => .next (h.advance, t)
    | .fault e => .fault e
    | .refused e => .refused e
  | .rd r name => hostReadInto (regOffset r) name h s
  | .rdfb i name => hostReadInto (BitVec.ofNat 19 (windowBase + 4 * i)) name h s
  | .bnz name mask target =>
    if h.var name &&& mask = 0#32 then .next (h.advance, s)
    else .next ({ h with next := h.labelIndex target }, s)
  | .jmp target => .next ({ h with next := h.labelIndex target }, s)
  | .label _ => .next (h.advance, s)
  | .halt => .next ({ h with next := h.program.length }, s)

/-- One step of the Host: its next statement. DESIGN CHOICE (log 18), where R95 gives only `halt` as
the end of a program: a program that runs past its last statement without `halt` has ended too, and
the step changes nothing. -/
def hostStep (h : HostAgent) (s : State) : Host.Outcome (HostAgent × State) Fault Refusal :=
  match h.program[h.next]? with
  | some st => runStmt st h s
  | none => .next (h, s)

/-! ### Pseudo-instructions (R96) -/

/-- `cmd MNEMONIC`. -/
def cmdStmt (i : Instr) : Stmt := .wr .cmd (encode i)

/-- `wait_idle`, with a fresh label and a variable for `STATUS`. -/
def waitIdle (fresh h : String) : List Stmt :=
  [.label fresh, .rd .status h, .bnz h 0x1#32 fresh]

/-- `setxy x, y`. -/
def setXYStmt (x y : Nat) : Stmt := .wr .xy (BitVec.ofNat 32 y <<< 8 ||| BitVec.ofNat 32 x)

/-- `setrgb r, g, b`. -/
def setRgbStmt (r g b : Nat) : Stmt :=
  .wr .color (BitVec.ofNat 32 r <<< 16 ||| BitVec.ofNat 32 g <<< 8 ||| BitVec.ofNat 32 b)

/-- `ack`: clears `BADCMD` and `DROP`. -/
def ackStmt : Stmt := .wr .status 0xC#32

end Sys2Proof.Machine
end

