-- ==== Sys2Proof/Safety.lean ====
section
/-! DEFINITION. The terms in which statements speak of runs: what two states share, and the
invariants the spec gives (10_state R36, R45, R48, R53; 20_memory R86; 41_encoder R142). -/

namespace Sys2Proof.Machine

/-! ### Runs -/

/-- `k` steps, stopping at the first that answers no next state. -/
def runSteps : Nat → State → Host.Outcome State Fault Refusal
  | 0, s => .next s
  | k + 1, s =>
    match step s with
    | .next t => runSteps k t
    | .fault r => .fault r
    | .refused r => .refused r

/-! ### What two states share -/

/-- Every data register, result register and pixel byte is the same. -/
def sameData (s t : State) : Prop :=
  t.pitch = s.pitch ∧ t.roll = s.roll ∧ t.dt = s.dt ∧ t.mult = s.mult ∧ t.color = s.color ∧
    t.xy = s.xy ∧ t.dir = s.dir ∧ t.pos = s.pos ∧ t.fx = s.fx ∧ t.fy = s.fy ∧ t.mem = s.mem

/-- The sticky flags are the same. -/
def sameStickies (s t : State) : Prop := t.badcmd = s.badcmd ∧ t.drop = s.drop

/-- The model's own fields that stand for the environment are the same, but for the event just
taken off the list. -/
def sameEnvironment (s t : State) : Prop :=
  t.cfg = s.cfg ∧ t.tickRate = s.tickRate ∧ t.hostRead = s.hostRead ∧ t.abandoned = s.abandoned

/-! ### Numbers -/

/-- A pattern that is neither NaN nor infinite. -/
def isFinite (v : F32) : Bool := !isNaN v && !isInf v

/-- `x` is the IEEE 754 rounding of num/den units of 2^-149 to nearest, ties to even (00_scope R13):
no NaN; infinite exactly from half a unit in the last place above the largest finite value; of the
sign of a non-zero `num`, a result that rounds to zero included; when finite, no finite pattern is
nearer, and where another number is as near, the pattern is even. The sign of an exact zero is each
operation's own. -/
def isRoundingOf (x : F32) (num : Int) (den : Nat) : Prop :=
  isNaN x = false ∧
  (isInf x = true ↔ (2 ^ 25 - 1) * 2 ^ 252 * den ≤ num.natAbs) ∧
  (num ≠ 0 → signOf x = decide (num < 0)) ∧
  (isFinite x = true → ∀ g : F32, isFinite g = true →
    |num - unitsOf x * den| ≤ |num - unitsOf g * den| ∧
    (unitsOf g ≠ unitsOf x → |num - unitsOf x * den| = |num - unitsOf g * den| →
      x.toNat % 2 = 0))

/-- A number of half degrees in the units of `unitsOf` (2^-149). -/
def halfDegrees (k : Int) : Int := k * 2 ^ 148

/-- How many of the low `n` bits of a GRB word are 1. -/
def onesBelow (word : BitVec 24) : Nat → Nat
  | 0 => 0
  | n + 1 => onesBelow word n + if word.getLsbD n then 1 else 0

/-- How many 1 bits the frame of pixels 0 to n-1 sends (70_reset R272). -/
def frameOnes (m : Memory) : Nat → Nat
  | 0 => 0
  | n + 1 => frameOnes m n + onesBelow (grb (readPixel m n)) 24

/-- The four timing constants of a configuration, in the order of 41_encoder R130. -/
def timingConstants (c : Config) : List Nat := [c.t0hNs, c.t0lNs, c.t1hNs, c.t1lNs]

/-! ### Invariants -/

/-- The memory is canonical and lists bytes of pixels only: the frame buffer is exactly `N` pixels
(10_state R50). -/
abbrev memoryInv (s : State) : Prop :=
  memoryWf s.mem ∧ ∀ c ∈ s.mem, isPixelByte (pixelCount s.cfg) c.1 = true

/-- `DIR` holds a code of a Direction (10_state R45), `ERRCODE` is 0 exactly outside HALT, and holds
a code of 60_exceptions R221 (10_state R36). -/
abbrev flagInv (s : State) : Prop :=
  s.dir.toNat ≤ 8 ∧ (s.errcode = 0#4 ↔ s.coreState ≠ .halt) ∧ s.errcode.toNat ≤ 3

/-- A coordinate of the ContinuousState: no NaN and within [0, max] (10_state R47, R48). -/
abbrev coordinateOk (v : F32) (max : Nat) : Prop :=
  isNaN v = false ∧ fle plusZero v = true ∧ fle v (i2f max) = true

/-- The Position is the floor of the ContinuousState, both within the grid (10_state R48). -/
abbrev positionInv (s : State) : Prop :=
  coordinateOk s.fx (xMax s.cfg) ∧ coordinateOk s.fy (yMax s.cfg) ∧
    coordX s.pos = ffloor s.fx ∧ coordY s.pos = ffloor s.fy

/-- The tick counts are those of the sampled rate, and make pulses (41_encoder R134, R135). -/
abbrev countsInv (c : Config) (e : Encoder) : Prop :=
  e.rate ≠ 0#32 ∧ e.t0h = ticks c.t0hNs e.rate.toNat ∧ e.t0l = ticks c.t0lNs e.rate.toNat ∧
    e.t1h = ticks c.t1hNs e.rate.toNat ∧ e.t1l = ticks c.t1lNs e.rate.toNat ∧
    countsOk c e = true

/-- How many edges the encoder has built, from its pixel index, bit index and phase (41_encoder
R143). -/
def edgesBuilt (e : Encoder) : Nat :=
  48 * e.p + 2 * (23 - e.b) + match e.ph with
    | .high => 0
    | .low => 1

/-- In EMIT the edges built so far are the first edges of the frame of the present frame buffer
(41_encoder R142, R143); once bit 23 has begun, `word` is the GRB word of the pixel. -/
abbrev emitInv (s : State) : Prop :=
  countsInv s.cfg s.enc ∧ s.enc.p < pixelCount s.cfg ∧ s.enc.b ≤ 23 ∧
    (s.enc.b < 23 ∨ s.enc.ph = .low → s.enc.word = grb (pixel s s.enc.p)) ∧
    s.enc.edges = (frameEdges s.enc s.mem (pixelCount s.cfg)).take (edgesBuilt s.enc)

/-- The encoder's state is as the spec's state machine leaves it: a frame is in flight exactly in
WAIT, and it is then the whole frame of the present frame buffer (10_state R53, 41_encoder R142,
20_memory R86). -/
abbrev frameInv (s : State) : Prop :=
  (s.coreState = .emit → emitInv s) ∧
    (s.coreState = .wait →
      countsInv s.cfg s.enc ∧
        s.inFlight = some (frameEdges s.enc s.mem (pixelCount s.cfg))) ∧
    (s.coreState ≠ .wait → s.inFlight = none)

end Sys2Proof.Machine
end

