-- ==== Sys2Proof/Certificates/Slice0/Obligations.lean ====
section
/-! DEFINITION. The statements about AMG-CORE, from the numbered rules of spec/. A statement whose
docstring names a log entry rests on a choice of the model; the others follow the rules they cite. -/

open Sys2Proof Sys2Proof.Machine

/-! ### Encoding -/

/-- The nine words of 30_encoding R91 and three reserved ones (R94; 95_test_vectors A1 to A3). -/
def Obligations.CommandWordsDecodeAsTheOpcodeMapSays : Prop :=
  decode 0x00000000#32 = .ok .nop ∧ decode 0x00000001#32 = .ok .clear ∧
  decode 0x00000002#32 = .ok .setpix ∧ decode 0x00000003#32 = .ok .render ∧
  decode 0x00000004#32 = .ok .quant ∧ decode 0x00000005#32 = .ok .ramp ∧
  decode 0x00000006#32 = .ok .movec ∧ decode 0x00000007#32 = .ok .moved ∧
  decode 0x00000008#32 = .ok .encode ∧ decode 0x00000009#32 = .error .reservedOpcode ∧
  decode 0x00000010#32 = .error .reservedField ∧ decode 0x80000001#32 = .error .reservedField

/-- Decoding and encoding agree on all 2^32 words: a word decodes to a command exactly when it is
that command's word; and the bytes of a command decode to it whatever follows them. -/
def Obligations.DecodeAndEncodeAgree : Prop :=
  (∀ (w : Word) (i : Instr), decode w = .ok i ↔ w = encode i) ∧
  ∀ (i : Instr) (rest : List Byte), i.wellFormed = true →
    decodeBytes (encodeBytes i ++ rest) = .ok (i, rest)

/-- 30_encoding R93: the legal words are those with `RSV` = 0 and `OP` at most 8, that is 0 to 8;
every other word, accepted, sets `BADCMD` and does nothing else. -/
def Obligations.ExactlyNineWordsAreLegal : Prop :=
  ∀ w : Word,
    ((∃ i, decode w = .ok i) ↔ w.toNat / 2 ^ 4 = 0 ∧ w.toNat % 2 ^ 4 ≤ 8) ∧
    ((∃ i, decode w = .ok i) ↔ w.toNat ≤ 8) ∧
    (8 < w.toNat → ∀ s : State, s.coreState = .idle →
      issueCommand w s = .next { s with badcmd := true })

/-! ### The step, acceptance, sticky flags -/

/-- A step runs the decoded command: when the next event is the Host's write of a legal word to
`CMD`, the step is `exec` of that command on the state with the event taken off; so is the step of a
state prepared by `withFetchWord`. Every other event has its own effect on the state with the event
taken off: a Host access is an access of the bus, an aligned 32-bit read giving the word of `MemRead`
on the read port (log 13) and an aligned 32-bit write being `MemWrite` (20_memory R78, R81); a new
tick rate is what the port `tick_rate` then holds (00_scope R10); an answer reaches the Core; reset
resets the block. With nothing pending, and at an event `core`, the step is the Core's, which moves
in PREP and EMIT only (41_encoder R131, 60_exceptions R226). The list of events is the model's (log
3, log 15). -/
def Obligations.StepRunsTheDecodedCommand : Prop :=
  ∀ s : State, s.cfg.legal = true →
    (∀ (w : Word) (i : Instr), decode w = .ok i → i.wellFormed = true →
      (∀ rest, s.inputs = commandAccess w :: rest → step s = exec i (popInput rest s)) ∧
      step (s.withFetchWord 32 w.toNat) = exec i s) ∧
    (s.inputs = [] → step s = .next (coreStep s)) ∧
    (s.coreState = .idle ∨ s.coreState = .wait ∨ s.coreState = .halt → coreStep s = s) ∧
    ∀ rest : List Input,
      (∀ a, s.inputs = .host a :: rest → step s = hostAccess a { s with inputs := rest }) ∧
      (∀ off : Offset, off.toNat % 4 = 0 → s.inputs = .host (.read off .bits32) :: rest →
        step s = .next { s with inputs := rest, hostRead := some (memRead off s) }) ∧
      (∀ (off : Offset) (v : Word), off.toNat % 4 = 0 →
        s.inputs = .host (.write off .bits32 v) :: rest →
        step s = memWrite off v { s with inputs := rest }) ∧
      (s.inputs = .core :: rest → step s = .next (coreStep { s with inputs := rest })) ∧
      (∀ r, s.inputs = .answer r :: rest →
        step s = .next (receiveAnswer r { s with inputs := rest })) ∧
      (∀ v, s.inputs = .tickRate v :: rest →
        step s = .next { s with inputs := rest, tickRate := v }) ∧
      (s.inputs = .reset :: rest → step s = .next (resetBlock { s with inputs := rest }))

/-- A part whose parameters lie outside the ranges of 00_scope R7 is refused
(93_implementation_defined section 3). -/
def Obligations.IllegalConfigurationsAreRefused : Prop :=
  ∀ s : State,
    (s.cfg.width < 1 ∨ 256 < s.cfg.width ∨ s.cfg.height < 1 ∨ 256 < s.cfg.height ∨
      (∃ ns ∈ timingConstants s.cfg, ns < 1 ∨ 1000000 < ns) ∨
      s.cfg.durBits < 1 ∨ 31 < s.cfg.durBits) →
    step s = .refused .illegalConfiguration

/-- 60_exceptions R231, as the Host's write to `CMD` in a run: HALT ignores, BUSY drops, a reserved
word sets `BADCMD`, a legal word executes; the first that applies. -/
def Obligations.CmdWriteFollowsTheAcceptanceOrder : Prop :=
  ∀ (s : State) (w : Word) (rest : List Input), s.cfg.legal = true →
    s.inputs = commandAccess w :: rest →
    (s.coreState = .halt → step s = .next { s with inputs := rest }) ∧
    (s.coreState ≠ .halt → s.coreState ≠ .idle →
      step s = .next { s with inputs := rest, drop := true }) ∧
    (s.coreState = .idle →
      (∀ e, decode w = .error e → step s = .next { s with inputs := rest, badcmd := true }) ∧
      ∀ i, decode w = .ok i → step s = exec i { s with inputs := rest })

/-- Where a command is turned away with none of its effect: HALT ignores every command
(60_exceptions R226), BUSY drops every command and sets `DROP` (R230). -/
def Obligations.CommandsAreTurnedAwayOutsideIdle : Prop :=
  ∀ (i : Instr) (s : State),
    (s.coreState = .halt → exec i s = .next s) ∧
    (s.coreState ≠ .halt → s.coreState ≠ .idle → exec i s = .next { s with drop := true })

/-- `BADCMD` and `DROP` stay 1 until the Host writes 1 to their bit of `STATUS`, or reset
(60_exceptions R229, R230; 10_state R34). -/
def Obligations.StickyFlagsStayUntilAcknowledged : Prop :=
  ∀ s t : State, step s = .next t →
    (s.badcmd = true → t.badcmd = false → ∃ rest, s.inputs = .reset :: rest ∨
      ∃ v : Word, v.getLsbD 2 = true ∧ s.inputs = .host (.write 0x000#19 .bits32 v) :: rest) ∧
    (s.drop = true → t.drop = false → ∃ rest, s.inputs = .reset :: rest ∨
      ∃ v : Word, v.getLsbD 3 = true ∧ s.inputs = .host (.write 0x000#19 .bits32 v) :: rest)

/-! ### Frame-buffer commands -/

/-- 40_framebuffer R100: NOP is word 0, changes nothing in IDLE, and is dropped while BUSY. -/
def Obligations.NopChangesNothing : Prop :=
  decode 0x00000000#32 = .ok .nop ∧
  ∀ s : State, (s.coreState = .idle → exec .nop s = .next s) ∧
    (busy s = true → exec .nop s = .next { s with drop := true })

/-- 40_framebuffer R101: CLEAR makes every pixel black and changes nothing else, no byte outside the
pixels included. -/
def Obligations.ClearMakesEveryPixelBlack : Prop :=
  decode 0x00000001#32 = .ok .clear ∧
  ∀ s : State, s.coreState = .idle → ∃ t, exec .clear s = .next t ∧
    t = { s with mem := t.mem } ∧
    (∀ i < s.cfg.width * s.cfg.height, pixel t i = 0x000000#24) ∧
    ∀ a, isPixelByte (s.cfg.width * s.cfg.height) a = false →
      readByte t.mem a = readByte s.mem a

/-- 40_framebuffer R102: SETPIX writes `COLOR` at (x, y) = (XY[7:0], XY[15:8]) when that is in
bounds; no other pixel, no byte outside that pixel's three lanes, no register, no flag. Out of
bounds nothing changes. -/
def Obligations.SetpixWritesExactlyTheAddressedPixel : Prop :=
  decode 0x00000002#32 = .ok .setpix ∧
  ∀ (s : State) (x y : Nat), s.coreState = .idle → x = s.xy.toNat % 256 → y = s.xy.toNat / 256 →
    (x < s.cfg.width ∧ y < s.cfg.height → ∃ t, exec .setpix s = .next t ∧
      t = { s with mem := t.mem } ∧
      (∀ j, pixel t j = if j = y * s.cfg.width + x then s.color else pixel s j) ∧
      ∀ a, (∀ k < 3, a ≠ laneAddr (y * s.cfg.width + x) k) →
        readByte t.mem a = readByte s.mem a) ∧
    (¬(x < s.cfg.width ∧ y < s.cfg.height) → exec .setpix s = .next s)

/-- 40_framebuffer R103: RENDER makes every pixel black, then writes `COLOR` at the Position if it is
in bounds; it changes nothing else. -/
def Obligations.RenderDrawsTheMarkerOnBlack : Prop :=
  decode 0x00000003#32 = .ok .render ∧
  ∀ (s : State) (x y : Nat), s.coreState = .idle → x = s.pos.toNat % 256 → y = s.pos.toNat / 256 →
    ∃ t, exec .render s = .next t ∧ t = { s with mem := t.mem } ∧
      (∀ i < s.cfg.width * s.cfg.height, pixel t i =
        if x < s.cfg.width ∧ y < s.cfg.height ∧ i = y * s.cfg.width + x then s.color
        else 0x000000#24) ∧
      ∀ a, isPixelByte (s.cfg.width * s.cfg.height) a = false →
        readByte t.mem a = readByte s.mem a

/-! ### Motion commands -/

/-- The codes of 10_state R45, the velocities of 42_motion R181 and the displacements of R185. A
minus sign sets bit 31 (42_motion R172, log 9). -/
def Obligations.DirectionTablesAreTheSpecs : Prop :=
  ([Direction.e, .ne, .n, .nw, .w, .sw, .s, .se, .stay].map dirCode =
    [0#4, 1#4, 2#4, 3#4, 4#4, 5#4, 6#4, 7#4, 8#4]) ∧
  (∀ c : Config,
    [Direction.e, .ne, .n, .nw, .w, .sw, .s, .se, .stay].map (velocity c) =
      [(0x3F800000#32, 0#32), (c.diag, c.diag), (0#32, 0x3F800000#32),
       (c.diag ||| 0x80000000#32, c.diag), (0xBF800000#32, 0#32),
       (c.diag ||| 0x80000000#32, c.diag ||| 0x80000000#32), (0#32, 0xBF800000#32),
       (c.diag, c.diag ||| 0x80000000#32), (0#32, 0#32)]) ∧
  [Direction.e, .ne, .n, .nw, .w, .sw, .s, .se, .stay].map displacement =
    [(1, 0), (1, 1), (0, 1), (-1, 1), (-1, 0), (-1, -1), (0, -1), (1, -1), (0, 0)]

/-- 42_motion R173: the magnitude is never negative, is NaN exactly when an operand is, and otherwise
is +infinity when an operand is infinite. -/
def Obligations.MagnitudeIsNaNExactlyWhenAnOperandIs : Prop :=
  ∀ p r : F32,
    mag p r = fsqrt (fadd (fmul p p) (fmul r r)) ∧
    (isNaN (mag p r) = true ↔ isNaN p = true ∨ isNaN r = true) ∧
    (isNaN (mag p r) = false → signOf (mag p r) = false) ∧
    (isNaN p = false → isNaN r = false → isInf p = true ∨ isInf r = true →
      mag p r = 0x7F800000#32)

/-- 42_motion R174 and R176 in exact numbers: Stay exactly below the threshold, else the bucket of the
angle; the angle's half-open interval, in half degrees, decides the bucket, and a NaN angle gives
West. -/
def Obligations.QuantizerFollowsTheSectorTable : Prop :=
  (∀ (c : Config) (p r : F32),
    (quant c p r = .stay ↔ flt (mag p r) c.moveThresh = true) ∧
    (flt (mag p r) c.moveThresh = false → quant c p r = bucket (fmul (atan2 c p r) 0x42652EE1#32))) ∧
  ∀ a : F32,
    (isNaN a = true → bucket a = .w) ∧
    (isNaN a = false →
      (bucket a = .e ↔ halfDegrees (-45) ≤ unitsOf a ∧ unitsOf a < halfDegrees 45) ∧
      (bucket a = .ne ↔ halfDegrees 45 ≤ unitsOf a ∧ unitsOf a < halfDegrees 135) ∧
      (bucket a = .n ↔ halfDegrees 135 ≤ unitsOf a ∧ unitsOf a < halfDegrees 225) ∧
      (bucket a = .nw ↔ halfDegrees 225 ≤ unitsOf a ∧ unitsOf a < halfDegrees 315) ∧
      (bucket a = .se ↔ halfDegrees (-135) ≤ unitsOf a ∧ unitsOf a < halfDegrees (-45)) ∧
      (bucket a = .s ↔ halfDegrees (-225) ≤ unitsOf a ∧ unitsOf a < halfDegrees (-135)) ∧
      (bucket a = .sw ↔ halfDegrees (-315) ≤ unitsOf a ∧ unitsOf a < halfDegrees (-225)) ∧
      (bucket a = .w ↔ halfDegrees 315 ≤ unitsOf a ∨ unitsOf a < halfDegrees (-315)))

/-- 42_motion R177: QUANT writes the Direction's code to `DIR` and nothing else. -/
def Obligations.QuantWritesOnlyTheDirection : Prop :=
  decode 0x00000004#32 = .ok .quant ∧
  ∀ s : State, s.coreState = .idle →
    exec .quant s = .next { s with dir := dirCode (quant s.cfg s.pitch s.roll) }

/-- 42_motion R179 with the operations of R178: RAMP writes `MULT` and nothing else, with the corner
cases of R179. -/
def Obligations.RampWritesOnlyTheMultiplier : Prop :=
  decode 0x00000005#32 = .ok .ramp ∧
  ∀ (s : State) (m t u q u4 : F32), s.coreState = .idle →
    m = mag s.pitch s.roll → t = clamp (fdiv m 0x42B40000#32) 0#32 0x3F800000#32 →
    u = fsub 0x3F800000#32 t → q = fmul u u → u4 = fmul q q →
    ∃ v, exec .ramp s = .next { s with mult := v } ∧
      v = fadd 0x3F800000#32 (fmul (fsub 0x3F800000#32 u4) 0x41700000#32) ∧
      (isZero m = true → v = 0x3F800000#32) ∧
      (fle 0x42B40000#32 m = true → v = 0x41800000#32) ∧
      (isNaN m = true → v = 0x3F800000#32) ∧
      (m = 0x42340000#32 → v = 0x41710000#32)

/-- 42_motion R180 (a) and (b): the ramp is finite, between 1.0 and 16.0, and takes both at its
ends. -/
def Obligations.RampStaysBetweenOneAndSixteen : Prop :=
  (∀ p r : F32, isFinite (ramp p r) = true ∧ fle 0x3F800000#32 (ramp p r) = true ∧
    fle (ramp p r) 0x41800000#32 = true) ∧
  rampOf 0#32 = 0x3F800000#32 ∧ rampOf 0x3F800000#32 = 0x41800000#32

/-- 42_motion R180 (c): the ramp does not decrease in the magnitude. -/
def Obligations.RampDoesNotDecreaseInTheMagnitude : Prop :=
  ∀ p1 r1 p2 r2 : F32, fle (mag p1 r1) (mag p2 r2) = true →
    fle (ramp p1 r1) (ramp p2 r2) = true

/-- 42_motion R180 (d): from magnitude 0x42B1A28F up the ramp is exactly 16.0; at the next smaller
binary32 magnitude it is 0x417FFFFF. -/
def Obligations.RampPlateauBeginsBelowNinety : Prop :=
  (∀ p r : F32, fle 0x42B1A28F#32 (mag p r) = true → ramp p r = 0x41800000#32) ∧
  ∀ p r : F32, mag p r = 0x42B1A28E#32 → ramp p r = 0x417FFFFF#32

/-- 42_motion R182, R183, R184: on Stay MOVEC writes only `DIR`; otherwise `DIR`, both coordinates
(old + velocity * elapsed * multiplier, clamped to the grid) and `POS`, their floor; nothing else. -/
def Obligations.MovecIntegratesAndClamps : Prop :=
  decode 0x00000006#32 = .ok .movec ∧
  ∀ (s : State) (d : Direction) (fx fy : F32), s.coreState = .idle →
    d = quant s.cfg s.pitch s.roll →
    fx = clamp (fadd s.fx (fmul (fmul (velocity s.cfg d).1 s.dt) s.mult)) 0#32
      (i2f (s.cfg.width - 1)) →
    fy = clamp (fadd s.fy (fmul (fmul (velocity s.cfg d).2 s.dt) s.mult)) 0#32
      (i2f (s.cfg.height - 1)) →
    (d = .stay → exec .movec s = .next { s with dir := 8#4 }) ∧
    (d ≠ .stay → exec .movec s = .next
      { s with
        dir := dirCode d
        fx := fx
        fy := fy
        pos := BitVec.ofNat 16 (ffloor fy % 256 * 256 + ffloor fx % 256) })

/-- 42_motion R190 (a), (b) and (d), for one coordinate of MOVEC on a grid of at most 256 and every
velocity `v`, so for every `DIAG`. A NaN operand, or an infinite one with a zero one, gives +0. An
infinite operand with the other non-zero and not NaN: an axis of velocity 0 goes to +0, and a moving
axis to the limit on the side of the product's sign, always when |v| is above 0.5 (1, -1 and the
default `DIAG` are) and else unless v * dt underflows to 0, when it goes to +0. A zero operand with
the other finite leaves the number unchanged for a finite v, always when |v| is at most 1 and else
unless v * dt overflows, when the axis goes to +0; for an infinite v the axis goes to +0. -/
def Obligations.MovecSpecialOperandsGoWhereTheRulesSay : Prop :=
  ∀ (old v dt mult res : F32) (max : Nat), max ≤ 255 →
    fle 0#32 old = true → fle old (i2f max) = true →
    res = clamp (fadd old (fmul (fmul v dt) mult)) 0#32 (i2f max) →
    (isNaN v = true ∨ isNaN dt = true ∨ isNaN mult = true → res = 0#32) ∧
    ((isInf dt = true ∧ isZero mult = true) ∨ (isZero dt = true ∧ isInf mult = true) →
      res = 0#32) ∧
    ((isInf dt = true ∧ isNaN mult = false ∧ isZero mult = false) ∨
        (isInf mult = true ∧ isNaN dt = false ∧ isZero dt = false) →
      (isZero v = true → res = 0#32) ∧
      (isNaN v = false → isZero v = false →
        (2 ^ 148 < magOf v ∨ isZero (fmul v dt) = false →
          res = if (signOf v ^^ signOf dt ^^ signOf mult) then 0#32 else i2f max) ∧
        (isZero (fmul v dt) = true → res = 0#32))) ∧
    ((isZero dt = true ∧ isFinite mult = true) ∨ (isZero mult = true ∧ isFinite dt = true) →
      (isInf v = true → res = 0#32) ∧
      (isFinite v = true →
        (magOf v ≤ 2 ^ 149 ∨ isFinite (fmul v dt) = true →
          isNaN res = false ∧ unitsOf res = unitsOf old) ∧
        (isInf (fmul v dt) = true → res = 0#32)))

/-- 42_motion R186, R187, R188: on Stay MOVED writes only `DIR`; otherwise `DIR`, `POS` one cell on
with each axis saturated alone, and `FX`, `FY` at the new cell; nothing else. -/
def Obligations.MovedStepsOneCellAndSaturates : Prop :=
  decode 0x00000007#32 = .ok .moved ∧
  ∀ (s : State) (d : Direction) (x y : Nat), s.cfg.legal = true → s.coreState = .idle →
    d = quant s.cfg s.pitch s.roll →
    (x : Int) = min (max (((s.pos.toNat % 256 : Nat) : Int) + (displacement d).1) 0)
      (s.cfg.width - 1) →
    (y : Int) = min (max (((s.pos.toNat / 256 : Nat) : Int) + (displacement d).2) 0)
      (s.cfg.height - 1) →
    (d = .stay → exec .moved s = .next { s with dir := 8#4 }) ∧
    (d ≠ .stay → exec .moved s = .next
      { s with
        dir := dirCode d
        pos := BitVec.ofNat 16 (y * 256 + x)
        fx := i2f x
        fy := i2f y })

/-! ### The encoder -/

/-- 41_encoder R130, R131: an accepted ENCODE goes to PREP, so `STATUS` reads BUSY; nothing else
changes within the write. -/
def Obligations.EncodeStartsAFrame : Prop :=
  decode 0x00000008#32 = .ok .encode ∧
  ∀ s : State, s.coreState = .idle → ∃ t, exec .encode s = .next t ∧
    t = { s with coreState := .prep } ∧ (statusWord t).getLsbD 0 = true

/-- 41_encoder R134: the tick count is the floor of ns * rate / 10^9, and the product is below 2^52
on the legal ranges. -/
def Obligations.TickConversionIsTheFloor : Prop :=
  ∀ ns rate : Nat, 1 ≤ ns → ns ≤ 1000000 → rate < 2 ^ 32 →
    ticks ns rate * 1000000000 ≤ ns * rate ∧ ns * rate < (ticks ns rate + 1) * 1000000000 ∧
    ns * rate < 2 ^ 52

/-- 41_encoder R135, the corner cases: with the default constants and 15 duration bits every rate
from 2 857 143 Hz up makes pulses, and 2 857 142 Hz does not. -/
def Obligations.DefaultTimingPassesFromItsSmallestRate : Prop :=
  (∀ rate : Nat, 2857143 ≤ rate → rate < 2 ^ 32 →
    ∀ ns ∈ [350, 800, 700, 600], 1 ≤ ticks ns rate ∧ ticks ns rate ≤ 2 ^ 15 - 1) ∧
  ticks 350 2857142 = 0

/-- 41_encoder R132, R133, R135: the PREP step. No tick rate is NO_TICK_RATE, checked first; a count
of 0 or above DUR_MAX is PULSE_RANGE; otherwise EMIT begins with the rate sampled and the counts
converted, and nothing but the encoder changes. -/
def Obligations.PrepChecksTheRateThenThePulses : Prop :=
  ∀ (s : State) (rate : Nat), s.coreState = .prep → rate = s.tickRate.toNat →
    (rate = 0 → coreStep s = raiseFatal 1#4 s) ∧
    (rate ≠ 0 → (∃ ns ∈ timingConstants s.cfg,
        ns * rate / 10 ^ 9 = 0 ∨ 2 ^ s.cfg.durBits - 1 < ns * rate / 10 ^ 9) →
      coreStep s = raiseFatal 2#4 s) ∧
    (rate ≠ 0 → (∀ ns ∈ timingConstants s.cfg,
        1 ≤ ns * rate / 10 ^ 9 ∧ ns * rate / 10 ^ 9 ≤ 2 ^ s.cfg.durBits - 1) →
      ∃ e : Encoder, coreStep s = { s with coreState := .emit, enc := e } ∧
        e.rate = s.tickRate ∧ e.t0h = s.cfg.t0hNs * rate / 10 ^ 9 ∧
        e.t0l = s.cfg.t0lNs * rate / 10 ^ 9 ∧ e.t1h = s.cfg.t1hNs * rate / 10 ^ 9 ∧
        e.t1l = s.cfg.t1lNs * rate / 10 ^ 9 ∧ e.p = 0 ∧ e.b = 23 ∧ e.ph = .high ∧ e.edges = [])

/-- 41_encoder R136: green, red, blue; a pixel whose red and green agree is its own GRB word. -/
def Obligations.GrbReordersTheChannels : Prop :=
  ∀ px : Pixel,
    (grb px).extractLsb' 16 8 = px.extractLsb' 8 8 ∧
    (grb px).extractLsb' 8 8 = px.extractLsb' 16 8 ∧
    (grb px).extractLsb' 0 8 = px.extractLsb' 0 8 ∧
    grb (grb px) = px ∧
    (px.extractLsb' 8 8 = px.extractLsb' 16 8 → grb px = px)

/-- 41_encoder R139: the level stands in bit DUR_BITS above the duration. -/
def Obligations.EdgeWordHoldsLevelAboveDuration : Prop :=
  ∀ (c : Config) (e : PulseEdge), 1 ≤ c.durBits → c.durBits ≤ 31 → e.ticks ≤ 2 ^ c.durBits - 1 →
    (edgeWord c e).toNat = (if e.level then 2 ^ c.durBits else 0) + e.ticks

/-- 41_encoder R130, R141, R142, R143, R147, from the Host's ENCODE to the hand-over, the Core left
to itself: for 1 + 48 * N steps nothing is offered to the Transmitter; after one more the Core waits
and the whole frame is in flight, every edge as the closed form of R142 says; no register and no
pixel has changed. The number of steps counts the model's steps, one for PREP and one per edge (log
15). -/
def Obligations.EncodeHandsOverTheClosedFormFrame : Prop :=
  ∀ (s : State) (n rate : Nat), s.cfg.legal = true → s.coreState = .idle → s.inFlight = none →
    s.inputs = [commandAccess 0x00000008#32] → n = s.cfg.width * s.cfg.height →
    rate = s.tickRate.toNat → rate ≠ 0 →
    (∀ ns ∈ timingConstants s.cfg,
      1 ≤ ns * rate / 10 ^ 9 ∧ ns * rate / 10 ^ 9 ≤ 2 ^ s.cfg.durBits - 1) →
    (∀ k ≤ 1 + 48 * n, ∃ u : State, runSteps k s = .next u ∧ u.inFlight = none) ∧
    ∃ (t : State) (E : List PulseEdge), runSteps (2 + 48 * n) s = .next t ∧
      t.coreState = .wait ∧ t.inFlight = some E ∧ E.length = 48 * n ∧
      (∀ p < n, ∀ j < 24,
        E[48 * p + 2 * j]? = some ⟨true,
          (if (grb (pixel s p)).getLsbD (23 - j) then s.cfg.t1hNs else s.cfg.t0hNs)
            * rate / 10 ^ 9⟩ ∧
        E[48 * p + 2 * j + 1]? = some ⟨false,
          (if (grb (pixel s p)).getLsbD (23 - j) then s.cfg.t1lNs else s.cfg.t0lNs)
            * rate / 10 ^ 9⟩) ∧
      sameData s t ∧ sameStickies s t ∧ sameEnvironment s t ∧ t.errcode = s.errcode

/-- 41_encoder R141: a frame that reaches the Transmitter has 48 * N edges, level 1 at the even
positions and level 0 at the odd ones; an all-black buffer gives zero bits only. -/
def Obligations.EmittedFramesAreWholeAndAlternate : Prop :=
  ∀ (s t : State) (E : List PulseEdge), frameInv s → step s = .next t → s.inFlight = none →
    t.inFlight = some E →
    E.length = 48 * (s.cfg.width * s.cfg.height) ∧
    (∀ (k : Nat) (e : PulseEdge), E[k]? = some e → (e.level = true ↔ k % 2 = 0)) ∧
    ((∀ i < s.cfg.width * s.cfg.height, pixel s i = 0#24) →
      ∀ (k : Nat) (e : PulseEdge), E[k]? = some e →
        e.ticks = if k % 2 = 0 then s.enc.t0h else s.enc.t0l)

/-- 41_encoder R146: the frame depends on the pixels, the rate and the parameters only. Two blocks
that agree on them, whatever their registers, stand in the same Core state after ENCODE has run,
with the same frame in flight, after equal numbers of the model's steps (log 15). -/
def Obligations.FrameDependsOnPixelsRateAndParametersOnly : Prop :=
  ∀ s1 s2 : State, s1.cfg.legal = true → s1.cfg = s2.cfg → s1.tickRate = s2.tickRate →
    (∀ i < s1.cfg.width * s1.cfg.height, pixel s1 i = pixel s2 i) →
    s1.coreState = .idle → s2.coreState = .idle →
    s1.inFlight = none → s2.inFlight = none →
    s1.inputs = [commandAccess 0x00000008#32] → s2.inputs = [commandAccess 0x00000008#32] →
    ∀ k : Nat, ∃ t1 t2 : State, runSteps k s1 = .next t1 ∧ runSteps k s2 = .next t2 ∧
      t1.coreState = t2.coreState ∧ t1.inFlight = t2.inFlight ∧
      (t1.coreState = .halt → t1.errcode = t2.errcode)

/-- 41_encoder R148, R149: in WAIT, with no answer owed to an abandoned frame, OK ends the frame and
changes no register but `core_state`; HW_ERROR is the fatal error TX_ERROR. -/
def Obligations.TransmitterAnswersEndTheFrame : Prop :=
  ∀ (s : State) (rest : List Input), s.cfg.legal = true → s.coreState = .wait →
    s.abandoned = 0 →
    (s.inputs = .answer .ok :: rest → ∃ t, step s = .next t ∧ t.coreState = .idle ∧
      (statusWord t).getLsbD 0 = false ∧ t.inFlight = none ∧ t.errcode = s.errcode ∧
      sameData s t ∧ sameStickies s t ∧ sameEnvironment s t ∧ t.inputs = rest) ∧
    (s.inputs = .answer .hwError :: rest → ∃ t, step s = .next t ∧ t.coreState = .halt ∧
      t.errcode = 3#4 ∧ t.inFlight = none ∧
      sameData s t ∧ sameStickies s t ∧ sameEnvironment s t ∧ t.inputs = rest)

/-- The model's choice where 41_encoder R131 and 70_reset R263 leave it to inference (log 11, log
12): an answer owed to an abandoned frame is counted off and changes nothing else; outside WAIT an
answer changes nothing. -/
def Obligations.AnswersThatAreNotDueChangeNothing : Prop :=
  ∀ (s : State) (r : TxAnswer) (rest : List Input), s.cfg.legal = true →
    s.inputs = .answer r :: rest →
    (∀ k, s.abandoned = k + 1 → step s = .next { s with inputs := rest, abandoned := k }) ∧
    (s.abandoned = 0 → s.coreState ≠ .wait → step s = .next { s with inputs := rest })

/-- 70_reset R272: the frame lasts z * (t0h + t0l) + o * (t1h + t1l) ticks, z and o the numbers of 0
and 1 bits, z + o = 24 * N. -/
def Obligations.FrameDurationCountsItsBits : Prop :=
  ∀ (e : Encoder) (m : Memory) (n : Nat), ∃ z o : Nat, o = frameOnes m n ∧ z + o = 24 * n ∧
    totalTicks (frameEdges e m n) = z * (e.t0h + e.t0l) + o * (e.t1h + e.t1l)

/-! ### Fatal errors, HALT, reset -/

/-- 60_exceptions R224: the fatal entry writes `ERRCODE` and halts; `STATUS` reads FATAL and not
BUSY, the frame is gone, no other register and no pixel changes. -/
def Obligations.FatalEntryChangesOnlyErrcodeAndCoreState : Prop :=
  ∀ (s t : State) (code : BitVec 4), t = raiseFatal code s →
    t.errcode = code ∧ t.coreState = .halt ∧ (statusWord t).getLsbD 1 = true ∧
    (statusWord t).getLsbD 0 = false ∧ t.inFlight = none ∧
    sameData s t ∧ sameStickies s t ∧ sameEnvironment s t ∧ t.inputs = s.inputs

/-- 60_exceptions R226, R227: whatever event comes, in HALT every register, pixel and flag stays,
unless the event is reset; reset leaves HALT. -/
def Obligations.HaltIsLeftOnlyByReset : Prop :=
  ∀ s t : State, s.coreState = .halt → step s = .next t →
    ((∃ rest, s.inputs = .reset :: rest) → t.coreState = .idle ∧ t.errcode = 0#4) ∧
    ((∀ rest, s.inputs ≠ .reset :: rest) → t.coreState = .halt ∧ t.errcode = s.errcode ∧
      t.inFlight = s.inFlight ∧ sameData s t ∧ sameStickies s t)

/-- 70_reset R261 with 10_state R33: the reset values, for every part. -/
def Obligations.ResetValuesAreTheSpecs : Prop :=
  ∀ (c : Config) (s : State), c.legal = true → s = State.resetOf c →
    statusWord s = 0#32 ∧ s.badcmd = false ∧ s.drop = false ∧ s.errcode = 0#4 ∧
    s.coreState = .idle ∧ s.inFlight = none ∧ s.dir = 8#4 ∧
    s.pitch = 0#32 ∧ s.roll = 0#32 ∧ s.dt = 0#32 ∧ s.mult = 0x3F800000#32 ∧
    s.color = 0#24 ∧ s.xy = 0#16 ∧ s.pos.toNat = c.height / 2 * 256 + c.width / 2 ∧
    unitsOf s.fx = (c.width / 2 : Nat) * 2 ^ 149 ∧ unitsOf s.fy = (c.height / 2 : Nat) * 2 ^ 149 ∧
    ∀ i, pixel s i = 0x000000#24

/-- 70_reset R260, R263: reset in any state gives every register and pixel its reset value, abandons
the frame and leaves IDLE. That the Transmitter then owes an answer is the model's count (log 12). -/
def Obligations.ResetFromAnyStateReachesTheResetValues : Prop :=
  ∀ (s : State) (rest : List Input), s.cfg.legal = true → s.inputs = .reset :: rest →
    ∃ t, step s = .next t ∧ sameData (State.resetOf s.cfg) t ∧ t.badcmd = false ∧
      t.drop = false ∧ t.errcode = 0#4 ∧ t.coreState = .idle ∧ t.inFlight = none ∧
      t.cfg = s.cfg ∧ t.tickRate = s.tickRate ∧ t.inputs = rest ∧
      t.abandoned = s.abandoned + if s.coreState = .wait then 1 else 0

/-! ### The bus -/

/-- 20_memory R78, the reads of 10_state R33: what a read of each register returns. -/
def Obligations.RegisterReadsFollowTheMap : Prop :=
  ∀ s : State,
    memRead 0x000#19 s = statusWord s ∧ memRead 0x004#19 s = 0#32 ∧
    (memRead 0x008#19 s).toNat = s.cfg.height % 2 ^ 9 * 2 ^ 16 + s.cfg.width % 2 ^ 9 ∧
    (memRead 0x00C#19 s).toNat = s.dir.toNat ∧ memRead 0x010#19 s = s.pitch ∧
    memRead 0x014#19 s = s.roll ∧ memRead 0x018#19 s = s.dt ∧ memRead 0x01C#19 s = s.mult ∧
    (memRead 0x020#19 s).toNat = s.color.toNat ∧ (memRead 0x024#19 s).toNat = s.xy.toNat ∧
    (memRead 0x028#19 s).toNat = s.pos.toNat ∧ memRead 0x02C#19 s = s.fx ∧
    memRead 0x030#19 s = s.fy

/-- 10_state R34, R35, R36: the fields of `STATUS` by their weights; BUSY in PREP, EMIT and WAIT,
FATAL in HALT. -/
def Obligations.StatusWordHoldsItsFiveFields : Prop :=
  ∀ s : State, (statusWord s).toNat =
    (if s.coreState = .prep ∨ s.coreState = .emit ∨ s.coreState = .wait then 1 else 0) +
    (if s.coreState = .halt then 2 else 0) + (if s.badcmd then 4 else 0) +
    (if s.drop then 8 else 0) + 16 * s.errcode.toNat

/-- 10_state R34: a write to `STATUS` outside HALT clears exactly the sticky bits it holds a 1 for.
In HALT it changes nothing (60_exceptions R226). -/
def Obligations.StatusWriteClearsOnlyItsOnes : Prop :=
  ∀ (s : State) (v : Word),
    (s.coreState ≠ .halt → memWrite 0x000#19 v s = .next
      { s with
        badcmd := if v.getLsbD 2 then false else s.badcmd
        drop := if v.getLsbD 3 then false else s.drop }) ∧
    (s.coreState = .halt → memWrite 0x000#19 v s = .next s)

/-- 10_state R38 to R42: a Host write outside HALT stores the bits of a data register, the unused
bits of `COLOR` and `XY` excepted, and changes nothing else. -/
def Obligations.DataRegisterWritesStoreTheirBits : Prop :=
  ∀ (s : State) (v : Word), s.coreState ≠ .halt →
    memWrite 0x010#19 v s = .next { s with pitch := v } ∧
    memWrite 0x014#19 v s = .next { s with roll := v } ∧
    memWrite 0x018#19 v s = .next { s with dt := v } ∧
    memWrite 0x01C#19 v s = .next { s with mult := v } ∧
    memWrite 0x020#19 v s = .next { s with color := BitVec.ofNat 24 (v.toNat % 2 ^ 24) } ∧
    memWrite 0x024#19 v s = .next { s with xy := BitVec.ofNat 16 (v.toNat % 2 ^ 16) }

/-- 20_memory R76: an offset that is no register and lies outside the window reads 0 and ignores
writes, in every state. -/
def Obligations.UnmappedOffsetsReadZeroAndIgnoreWrites : Prop :=
  ∀ (s : State) (off : Offset),
    (0x030 < off.toNat ∨ off.toNat % 4 ≠ 0) →
    (off.toNat < 0x40000 ∨ 0x40000 + 4 * (s.cfg.width * s.cfg.height) ≤ off.toNat) →
    memRead off s = 0#32 ∧ ∀ v, memWrite off v s = .next s

/-- 20_memory R77: writes to `CFG`, `DIR`, `POS`, `FX`, `FY` and the frame-buffer window are
ignored; a write to `STATUS` touches the sticky flags at most. -/
def Obligations.ReadOnlyRegistersIgnoreWrites : Prop :=
  ∀ (s : State) (v : Word),
    memWrite 0x008#19 v s = .next s ∧ memWrite 0x00C#19 v s = .next s ∧
    memWrite 0x028#19 v s = .next s ∧ memWrite 0x02C#19 v s = .next s ∧
    memWrite 0x030#19 v s = .next s ∧
    (∀ off : Offset, 0x40000 ≤ off.toNat → memWrite off v s = .next s) ∧
    ∃ b d, memWrite 0x000#19 v s = .next { s with badcmd := b, drop := d }

/-- 10_state R49: `FBW[i]` reads the pixel in natural order, zero-extended; writes to it are
ignored. -/
def Obligations.WindowReadsThePixels : Prop :=
  ∀ (s : State) (i : Nat), s.cfg.legal = true → i < s.cfg.width * s.cfg.height →
    (memRead (BitVec.ofNat 19 (0x40000 + 4 * i)) s).toNat = (pixel s i).toNat ∧
    ∀ v, memWrite (BitVec.ofNat 19 (0x40000 + 4 * i)) v s = .next s

/-- 10_state R44: `CFG` reports the grid, every other bit 0, and is constant: no write changes it, and
no step. -/
def Obligations.CfgReportsTheGrid : Prop :=
  ∀ s : State, s.cfg.legal = true →
    (memRead 0x008#19 s).toNat = s.cfg.height * 2 ^ 16 + s.cfg.width ∧
    (∀ v, memWrite 0x008#19 v s = .next s) ∧
    ∀ t, step s = .next t → memRead 0x008#19 t = memRead 0x008#19 s

/-- 20_memory R73, R74: an access of another width, or a misaligned one, is refused; an aligned
32-bit access never is. -/
def Obligations.OnlyAlignedWordAccessesAreAccepted : Prop :=
  ∀ (s : State) (off : Offset) (width : AccessWidth) (v : Word),
    (width ≠ .bits32 →
      hostAccess (.read off width) s = .refused .accessWidth ∧
      hostAccess (.write off width v) s = .refused .accessWidth) ∧
    (width = .bits32 → off.toNat % 4 ≠ 0 →
      hostAccess (.read off width) s = .refused .misaligned ∧
      hostAccess (.write off width v) s = .refused .misaligned) ∧
    (width = .bits32 → off.toNat % 4 = 0 →
      (∃ t, hostAccess (.read off width) s = .next t) ∧
      ∃ t, hostAccess (.write off width v) s = .next t)

/-- 20_memory R79 with R78: a read puts the word on the read port (log 13), changes nothing else, in
HALT too (60_exceptions R226), and a second read returns the same. -/
def Obligations.ReadsHaveNoSideEffects : Prop :=
  ∀ (s : State) (off : Offset), off.toNat % 4 = 0 →
    ∃ t, hostAccess (.read off .bits32) s = .next t ∧
      t = { s with hostRead := some (memRead off s) } ∧
      hostAccess (.read off .bits32) t = .next t

/-- 30_encoding R96, run as Host statements. Outside HALT `ack` clears both sticky flags, `setxy` and
`setrgb` store their operands, `cmd` is the Host's write of the command's word. In every state, HALT
too, a Host at the `rd` of a `wait_idle` in its program reads `STATUS` and changes nothing of the
block but the read port (log 13); at the `bnz` after it, whatever the block then does, it goes back
to the label if `BUSY` of the word read was 1 and goes on if it was 0. The label is the fresh one of
R96: it does not stand earlier in the program (log 18). -/
def Obligations.PseudoInstructionsDoWhatTheyName : Prop :=
  (∀ (h : HostAgent) (s : State), s.coreState ≠ .halt →
    runStmt ackStmt h s = .next (h.advance, { s with badcmd := false, drop := false }) ∧
    (∀ x y, x < 256 → y < 256 → runStmt (setXYStmt x y) h s =
      .next (h.advance, { s with xy := BitVec.ofNat 16 (y * 256 + x) })) ∧
    (∀ r g b, r < 256 → g < 256 → b < 256 → runStmt (setRgbStmt r g b) h s =
      .next (h.advance, { s with color := BitVec.ofNat 24 (r * 65536 + g * 256 + b) })) ∧
    ∀ i t, exec i s = .next t → runStmt (cmdStmt i) h s = .next (h.advance, t)) ∧
  ∀ (h : HostAgent) (s : State) (before later : List Stmt) (fresh v : String),
    h.program = before ++ waitIdle fresh v ++ later → Stmt.label fresh ∉ before →
    (h.next = before.length → hostStep h s = .next ({ h with next := before.length + 1 }, s)) ∧
    (h.next = before.length + 1 → ∃ h1 : HostAgent,
      hostStep h s = .next (h1, { s with hostRead := some (statusWord s) }) ∧
      h1.program = h.program ∧ h1.next = before.length + 2 ∧ h1.var v = statusWord s ∧
      (∀ w, w ≠ v → h1.var w = h.var w) ∧
      ∀ u : State, hostStep h1 u =
        .next ({ h1 with next := if busy s then before.length else before.length + 3 }, u))

/-! ### Invariants -/

/-- Every step keeps the frame buffer's canonical form and its extent of exactly N pixels
(10_state R50; the representation is log 10). -/
def Obligations.StepKeepsTheMemoryInvariant : Prop :=
  ∀ s t : State, memoryInv s → step s = .next t → memoryInv t

/-- 10_state R48 is kept by every step of a legal part: `FX` and `FY` are no NaN and within the grid,
and `POS` is their floor. -/
def Obligations.StepKeepsThePositionInvariant : Prop :=
  ∀ s t : State, positionInv s → step s = .next t →
    positionInv t ∧ coordX t.pos ≤ t.cfg.width - 1 ∧ coordY t.pos ≤ t.cfg.height - 1

/-- 10_state R36, R45, 60_exceptions R221: every step keeps `DIR` a Direction's code, `ERRCODE` 0
exactly outside HALT, and `ERRCODE` one of the four codes. -/
def Obligations.StepKeepsTheFlagInvariant : Prop :=
  ∀ s t : State, flagInv s → step s = .next t → flagInv t

/-- 10_state R53, 20_memory R86, 41_encoder R142, R143: every step keeps the edges built a prefix of
the frame of the present buffer, and a frame in flight exactly in WAIT, whole. -/
def Obligations.StepKeepsTheFrameInvariant : Prop :=
  ∀ s t : State, frameInv s → step s = .next t → frameInv t

/-- The invariants hold right after reset, for every legal part. -/
def Obligations.InvariantsHoldAtReset : Prop :=
  ∀ c : Config, c.legal = true →
    memoryInv (State.resetOf c) ∧ positionInv (State.resetOf c) ∧ flagInv (State.resetOf c) ∧
    frameInv (State.resetOf c)

/-- 20_memory R86: while BUSY, no event but reset changes the frame buffer, and what is in flight is
the frame of the buffer as it reads. -/
def Obligations.FrameBufferIsStableWhileBusy : Prop :=
  ∀ s t : State, busy s = true → step s = .next t → (∀ rest, s.inputs ≠ .reset :: rest) →
    t.mem = s.mem ∧
    (frameInv s → s.coreState = .wait →
      s.inFlight = some (frameEdges s.enc t.mem (s.cfg.width * s.cfg.height)))

/-- 00_scope R7: the parameters are fixed for the life of a part. -/
def Obligations.ParametersNeverChange : Prop :=
  ∀ s t : State, step s = .next t → t.cfg = s.cfg ∧ t.cfg.legal = true

/-! ### Numerics -/

/-- 00_scope R13, the rounding: of all binary32 magnitudes below infinity the result is nearest to
n/d units of 2^-149, an even pattern when two are; it is infinity exactly from half a unit in the
last place above the largest finite value. -/
def Obligations.RoundingIsToNearestTiesToEven : Prop :=
  ∀ n d : Nat, 0 < d →
    (roundMag n d = 0x7F800000 ↔ (2 ^ 25 - 1) * 2 ^ 252 * d ≤ n) ∧
    (roundMag n d < 0x7F800000 → ∀ m < 0x7F800000,
      |(n : Int) - magOf (BitVec.ofNat 32 (roundMag n d)) * d| ≤
        |(n : Int) - magOf (BitVec.ofNat 32 m) * d| ∧
      (m ≠ roundMag n d →
        |(n : Int) - magOf (BitVec.ofNat 32 (roundMag n d)) * d| =
          |(n : Int) - magOf (BitVec.ofNat 32 m) * d| → roundMag n d % 2 = 0))

/-- 00_scope R13, 42_motion R170: each operation on finite operands is the exact result correctly
rounded: to nearest, ties to even, overflow to the infinity of the exact result's sign included
(`isRoundingOf`, units of 2^-149, log 21). A product and a quotient have the sign of their operands
together, also when zero; an exact sum of zero is -0 only if both terms are negative; a non-zero
number over zero is infinite. The root is compared by squares, and keeps the sign of a zero. On an infinite operand, no NaN standing beside it
and the operation not invalid, the result is the exact infinity or zero with its sign. -/
def Obligations.ArithmeticIsCorrectlyRounded : Prop :=
  (∀ a b : F32, isFinite a = true → isFinite b = true →
    isRoundingOf (fadd a b) (unitsOf a + unitsOf b) 1 ∧
    (unitsOf a + unitsOf b = 0 → signOf (fadd a b) = (signOf a && signOf b)) ∧
    isRoundingOf (fsub a b) (unitsOf a - unitsOf b) 1 ∧
    (unitsOf a - unitsOf b = 0 → signOf (fsub a b) = (signOf a && !signOf b)) ∧
    isRoundingOf (fmul a b) (unitsOf a * unitsOf b) (2 ^ 149) ∧
    signOf (fmul a b) = (signOf a ^^ signOf b) ∧
    (isZero b = false →
      isRoundingOf (fdiv a b) (unitsOf a * 2 ^ 149 * if signOf b then -1 else 1) (magOf b) ∧
      signOf (fdiv a b) = (signOf a ^^ signOf b)) ∧
    (isZero a = false → isZero b = true →
      isInf (fdiv a b) = true ∧ signOf (fdiv a b) = (signOf a ^^ signOf b)) ∧
    (0 ≤ unitsOf a → isFinite (fsqrt a) = true ∧ signOf (fsqrt a) = signOf a ∧
      ∀ g : F32, isFinite g = true →
        (unitsOf (fsqrt a) < unitsOf g →
          4 * (unitsOf a * 2 ^ 149) ≤ (unitsOf (fsqrt a) + unitsOf g) ^ 2) ∧
        (0 ≤ unitsOf g → unitsOf g < unitsOf (fsqrt a) →
          (unitsOf (fsqrt a) + unitsOf g) ^ 2 ≤ 4 * (unitsOf a * 2 ^ 149)) ∧
        (0 ≤ unitsOf g → unitsOf g ≠ unitsOf (fsqrt a) →
          (unitsOf (fsqrt a) + unitsOf g) ^ 2 = 4 * (unitsOf a * 2 ^ 149) →
          (fsqrt a).toNat % 2 = 0))) ∧
  ∀ a b : F32,
    (isInf a = true → isNaN b = false → (isInf b = true → signOf b = signOf a) →
      fadd a b = a ∧ fadd b a = a) ∧
    (isInf a = true → isNaN b = false → (isInf b = true → signOf b ≠ signOf a) →
      fsub a b = a ∧ isInf (fsub b a) = true ∧ signOf (fsub b a) = !signOf a) ∧
    (isInf a = true → isNaN b = false → isZero b = false →
      isInf (fmul a b) = true ∧ signOf (fmul a b) = (signOf a ^^ signOf b) ∧
      isInf (fmul b a) = true ∧ signOf (fmul b a) = (signOf a ^^ signOf b)) ∧
    (isInf a = true → isFinite b = true →
      isInf (fdiv a b) = true ∧ signOf (fdiv a b) = (signOf a ^^ signOf b) ∧
      isZero (fdiv b a) = true ∧ signOf (fdiv b a) = (signOf a ^^ signOf b)) ∧
    (isInf a = true → signOf a = false → fsqrt a = a)

/-- 00_scope R13, 42_motion R170: an operation gives NaN exactly on a NaN operand or where IEEE 754
calls it invalid. -/
def Obligations.NaNComesOnlyFromNaNOrInvalidOperations : Prop :=
  ∀ a b : F32,
    (isNaN (fadd a b) = true ↔ isNaN a = true ∨ isNaN b = true ∨
      (isInf a = true ∧ isInf b = true ∧ signOf a ≠ signOf b)) ∧
    (isNaN (fsub a b) = true ↔ isNaN a = true ∨ isNaN b = true ∨
      (isInf a = true ∧ isInf b = true ∧ signOf a = signOf b)) ∧
    (isNaN (fmul a b) = true ↔ isNaN a = true ∨ isNaN b = true ∨
      (isInf a = true ∧ isZero b = true) ∨ (isZero a = true ∧ isInf b = true)) ∧
    (isNaN (fdiv a b) = true ↔ isNaN a = true ∨ isNaN b = true ∨
      (isInf a = true ∧ isInf b = true) ∨ (isZero a = true ∧ isZero b = true)) ∧
    (isNaN (fsqrt a) = true ↔ isNaN a = true ∨ (signOf a = true ∧ isZero a = false))
end

