-- ==== Sys2Proof/Laws/State.lean ====
section
/-! SUPPORT. What each named update of the state does to each field: one lemma per field per update,
true by `rfl`, so that no later proof unfolds a record update. -/

namespace Sys2Proof.Machine

variable (s : State)

/-! ### `setBadcmd` -/

@[simp] theorem setBadcmd_pitch : (setBadcmd s).pitch = s.pitch := rfl
@[simp] theorem setBadcmd_roll : (setBadcmd s).roll = s.roll := rfl
@[simp] theorem setBadcmd_dt : (setBadcmd s).dt = s.dt := rfl
@[simp] theorem setBadcmd_mult : (setBadcmd s).mult = s.mult := rfl
@[simp] theorem setBadcmd_color : (setBadcmd s).color = s.color := rfl
@[simp] theorem setBadcmd_xy : (setBadcmd s).xy = s.xy := rfl
@[simp] theorem setBadcmd_dir : (setBadcmd s).dir = s.dir := rfl
@[simp] theorem setBadcmd_pos : (setBadcmd s).pos = s.pos := rfl
@[simp] theorem setBadcmd_fx : (setBadcmd s).fx = s.fx := rfl
@[simp] theorem setBadcmd_fy : (setBadcmd s).fy = s.fy := rfl
@[simp] theorem setBadcmd_badcmd : (setBadcmd s).badcmd = true := rfl
@[simp] theorem setBadcmd_drop : (setBadcmd s).drop = s.drop := rfl
@[simp] theorem setBadcmd_errcode : (setBadcmd s).errcode = s.errcode := rfl
@[simp] theorem setBadcmd_coreState : (setBadcmd s).coreState = s.coreState := rfl
@[simp] theorem setBadcmd_enc : (setBadcmd s).enc = s.enc := rfl
@[simp] theorem setBadcmd_inFlight : (setBadcmd s).inFlight = s.inFlight := rfl
@[simp] theorem setBadcmd_mem : (setBadcmd s).mem = s.mem := rfl
@[simp] theorem setBadcmd_cfg : (setBadcmd s).cfg = s.cfg := rfl
@[simp] theorem setBadcmd_tickRate : (setBadcmd s).tickRate = s.tickRate := rfl
@[simp] theorem setBadcmd_inputs : (setBadcmd s).inputs = s.inputs := rfl
@[simp] theorem setBadcmd_hostRead : (setBadcmd s).hostRead = s.hostRead := rfl
@[simp] theorem setBadcmd_abandoned : (setBadcmd s).abandoned = s.abandoned := rfl
@[simp] theorem setBadcmd_draws : (setBadcmd s).draws = s.draws := rfl

/-! ### `setDrop` -/

@[simp] theorem setDrop_pitch : (setDrop s).pitch = s.pitch := rfl
@[simp] theorem setDrop_roll : (setDrop s).roll = s.roll := rfl
@[simp] theorem setDrop_dt : (setDrop s).dt = s.dt := rfl
@[simp] theorem setDrop_mult : (setDrop s).mult = s.mult := rfl
@[simp] theorem setDrop_color : (setDrop s).color = s.color := rfl
@[simp] theorem setDrop_xy : (setDrop s).xy = s.xy := rfl
@[simp] theorem setDrop_dir : (setDrop s).dir = s.dir := rfl
@[simp] theorem setDrop_pos : (setDrop s).pos = s.pos := rfl
@[simp] theorem setDrop_fx : (setDrop s).fx = s.fx := rfl
@[simp] theorem setDrop_fy : (setDrop s).fy = s.fy := rfl
@[simp] theorem setDrop_badcmd : (setDrop s).badcmd = s.badcmd := rfl
@[simp] theorem setDrop_drop : (setDrop s).drop = true := rfl
@[simp] theorem setDrop_errcode : (setDrop s).errcode = s.errcode := rfl
@[simp] theorem setDrop_coreState : (setDrop s).coreState = s.coreState := rfl
@[simp] theorem setDrop_enc : (setDrop s).enc = s.enc := rfl
@[simp] theorem setDrop_inFlight : (setDrop s).inFlight = s.inFlight := rfl
@[simp] theorem setDrop_mem : (setDrop s).mem = s.mem := rfl
@[simp] theorem setDrop_cfg : (setDrop s).cfg = s.cfg := rfl
@[simp] theorem setDrop_tickRate : (setDrop s).tickRate = s.tickRate := rfl
@[simp] theorem setDrop_inputs : (setDrop s).inputs = s.inputs := rfl
@[simp] theorem setDrop_hostRead : (setDrop s).hostRead = s.hostRead := rfl
@[simp] theorem setDrop_abandoned : (setDrop s).abandoned = s.abandoned := rfl
@[simp] theorem setDrop_draws : (setDrop s).draws = s.draws := rfl

/-! ### `clearSticky` -/

@[simp] theorem clearSticky_pitch (v : Word) : (clearSticky v s).pitch = s.pitch := rfl
@[simp] theorem clearSticky_roll (v : Word) : (clearSticky v s).roll = s.roll := rfl
@[simp] theorem clearSticky_dt (v : Word) : (clearSticky v s).dt = s.dt := rfl
@[simp] theorem clearSticky_mult (v : Word) : (clearSticky v s).mult = s.mult := rfl
@[simp] theorem clearSticky_color (v : Word) : (clearSticky v s).color = s.color := rfl
@[simp] theorem clearSticky_xy (v : Word) : (clearSticky v s).xy = s.xy := rfl
@[simp] theorem clearSticky_dir (v : Word) : (clearSticky v s).dir = s.dir := rfl
@[simp] theorem clearSticky_pos (v : Word) : (clearSticky v s).pos = s.pos := rfl
@[simp] theorem clearSticky_fx (v : Word) : (clearSticky v s).fx = s.fx := rfl
@[simp] theorem clearSticky_fy (v : Word) : (clearSticky v s).fy = s.fy := rfl
@[simp] theorem clearSticky_badcmd (v : Word) :
    (clearSticky v s).badcmd = (s.badcmd && !v.getLsbD 2) := rfl
@[simp] theorem clearSticky_drop (v : Word) :
    (clearSticky v s).drop = (s.drop && !v.getLsbD 3) := rfl
@[simp] theorem clearSticky_errcode (v : Word) : (clearSticky v s).errcode = s.errcode := rfl
@[simp] theorem clearSticky_coreState (v : Word) : (clearSticky v s).coreState = s.coreState := rfl
@[simp] theorem clearSticky_enc (v : Word) : (clearSticky v s).enc = s.enc := rfl
@[simp] theorem clearSticky_inFlight (v : Word) : (clearSticky v s).inFlight = s.inFlight := rfl
@[simp] theorem clearSticky_mem (v : Word) : (clearSticky v s).mem = s.mem := rfl
@[simp] theorem clearSticky_cfg (v : Word) : (clearSticky v s).cfg = s.cfg := rfl
@[simp] theorem clearSticky_tickRate (v : Word) : (clearSticky v s).tickRate = s.tickRate := rfl
@[simp] theorem clearSticky_inputs (v : Word) : (clearSticky v s).inputs = s.inputs := rfl
@[simp] theorem clearSticky_hostRead (v : Word) : (clearSticky v s).hostRead = s.hostRead := rfl
@[simp] theorem clearSticky_abandoned (v : Word) : (clearSticky v s).abandoned = s.abandoned := rfl
@[simp] theorem clearSticky_draws (v : Word) : (clearSticky v s).draws = s.draws := rfl

/-! ### `setMem` -/

@[simp] theorem setMem_pitch (m : Memory) : (setMem m s).pitch = s.pitch := rfl
@[simp] theorem setMem_roll (m : Memory) : (setMem m s).roll = s.roll := rfl
@[simp] theorem setMem_dt (m : Memory) : (setMem m s).dt = s.dt := rfl
@[simp] theorem setMem_mult (m : Memory) : (setMem m s).mult = s.mult := rfl
@[simp] theorem setMem_color (m : Memory) : (setMem m s).color = s.color := rfl
@[simp] theorem setMem_xy (m : Memory) : (setMem m s).xy = s.xy := rfl
@[simp] theorem setMem_dir (m : Memory) : (setMem m s).dir = s.dir := rfl
@[simp] theorem setMem_pos (m : Memory) : (setMem m s).pos = s.pos := rfl
@[simp] theorem setMem_fx (m : Memory) : (setMem m s).fx = s.fx := rfl
@[simp] theorem setMem_fy (m : Memory) : (setMem m s).fy = s.fy := rfl
@[simp] theorem setMem_badcmd (m : Memory) : (setMem m s).badcmd = s.badcmd := rfl
@[simp] theorem setMem_drop (m : Memory) : (setMem m s).drop = s.drop := rfl
@[simp] theorem setMem_errcode (m : Memory) : (setMem m s).errcode = s.errcode := rfl
@[simp] theorem setMem_coreState (m : Memory) : (setMem m s).coreState = s.coreState := rfl
@[simp] theorem setMem_enc (m : Memory) : (setMem m s).enc = s.enc := rfl
@[simp] theorem setMem_inFlight (m : Memory) : (setMem m s).inFlight = s.inFlight := rfl
@[simp] theorem setMem_mem (m : Memory) : (setMem m s).mem = m := rfl
@[simp] theorem setMem_cfg (m : Memory) : (setMem m s).cfg = s.cfg := rfl
@[simp] theorem setMem_tickRate (m : Memory) : (setMem m s).tickRate = s.tickRate := rfl
@[simp] theorem setMem_inputs (m : Memory) : (setMem m s).inputs = s.inputs := rfl
@[simp] theorem setMem_hostRead (m : Memory) : (setMem m s).hostRead = s.hostRead := rfl
@[simp] theorem setMem_abandoned (m : Memory) : (setMem m s).abandoned = s.abandoned := rfl
@[simp] theorem setMem_draws (m : Memory) : (setMem m s).draws = s.draws := rfl

/-! ### `setDir` -/

@[simp] theorem setDir_pitch (d : BitVec 4) : (setDir d s).pitch = s.pitch := rfl
@[simp] theorem setDir_roll (d : BitVec 4) : (setDir d s).roll = s.roll := rfl
@[simp] theorem setDir_dt (d : BitVec 4) : (setDir d s).dt = s.dt := rfl
@[simp] theorem setDir_mult (d : BitVec 4) : (setDir d s).mult = s.mult := rfl
@[simp] theorem setDir_color (d : BitVec 4) : (setDir d s).color = s.color := rfl
@[simp] theorem setDir_xy (d : BitVec 4) : (setDir d s).xy = s.xy := rfl
@[simp] theorem setDir_dir (d : BitVec 4) : (setDir d s).dir = d := rfl
@[simp] theorem setDir_pos (d : BitVec 4) : (setDir d s).pos = s.pos := rfl
@[simp] theorem setDir_fx (d : BitVec 4) : (setDir d s).fx = s.fx := rfl
@[simp] theorem setDir_fy (d : BitVec 4) : (setDir d s).fy = s.fy := rfl
@[simp] theorem setDir_badcmd (d : BitVec 4) : (setDir d s).badcmd = s.badcmd := rfl
@[simp] theorem setDir_drop (d : BitVec 4) : (setDir d s).drop = s.drop := rfl
@[simp] theorem setDir_errcode (d : BitVec 4) : (setDir d s).errcode = s.errcode := rfl
@[simp] theorem setDir_coreState (d : BitVec 4) : (setDir d s).coreState = s.coreState := rfl
@[simp] theorem setDir_enc (d : BitVec 4) : (setDir d s).enc = s.enc := rfl
@[simp] theorem setDir_inFlight (d : BitVec 4) : (setDir d s).inFlight = s.inFlight := rfl
@[simp] theorem setDir_mem (d : BitVec 4) : (setDir d s).mem = s.mem := rfl
@[simp] theorem setDir_cfg (d : BitVec 4) : (setDir d s).cfg = s.cfg := rfl
@[simp] theorem setDir_tickRate (d : BitVec 4) : (setDir d s).tickRate = s.tickRate := rfl
@[simp] theorem setDir_inputs (d : BitVec 4) : (setDir d s).inputs = s.inputs := rfl
@[simp] theorem setDir_hostRead (d : BitVec 4) : (setDir d s).hostRead = s.hostRead := rfl
@[simp] theorem setDir_abandoned (d : BitVec 4) : (setDir d s).abandoned = s.abandoned := rfl
@[simp] theorem setDir_draws (d : BitVec 4) : (setDir d s).draws = s.draws := rfl

/-! ### `setMult` -/

@[simp] theorem setMult_pitch (v : F32) : (setMult v s).pitch = s.pitch := rfl
@[simp] theorem setMult_roll (v : F32) : (setMult v s).roll = s.roll := rfl
@[simp] theorem setMult_dt (v : F32) : (setMult v s).dt = s.dt := rfl
@[simp] theorem setMult_mult (v : F32) : (setMult v s).mult = v := rfl
@[simp] theorem setMult_color (v : F32) : (setMult v s).color = s.color := rfl
@[simp] theorem setMult_xy (v : F32) : (setMult v s).xy = s.xy := rfl
@[simp] theorem setMult_dir (v : F32) : (setMult v s).dir = s.dir := rfl
@[simp] theorem setMult_pos (v : F32) : (setMult v s).pos = s.pos := rfl
@[simp] theorem setMult_fx (v : F32) : (setMult v s).fx = s.fx := rfl
@[simp] theorem setMult_fy (v : F32) : (setMult v s).fy = s.fy := rfl
@[simp] theorem setMult_badcmd (v : F32) : (setMult v s).badcmd = s.badcmd := rfl
@[simp] theorem setMult_drop (v : F32) : (setMult v s).drop = s.drop := rfl
@[simp] theorem setMult_errcode (v : F32) : (setMult v s).errcode = s.errcode := rfl
@[simp] theorem setMult_coreState (v : F32) : (setMult v s).coreState = s.coreState := rfl
@[simp] theorem setMult_enc (v : F32) : (setMult v s).enc = s.enc := rfl
@[simp] theorem setMult_inFlight (v : F32) : (setMult v s).inFlight = s.inFlight := rfl
@[simp] theorem setMult_mem (v : F32) : (setMult v s).mem = s.mem := rfl
@[simp] theorem setMult_cfg (v : F32) : (setMult v s).cfg = s.cfg := rfl
@[simp] theorem setMult_tickRate (v : F32) : (setMult v s).tickRate = s.tickRate := rfl
@[simp] theorem setMult_inputs (v : F32) : (setMult v s).inputs = s.inputs := rfl
@[simp] theorem setMult_hostRead (v : F32) : (setMult v s).hostRead = s.hostRead := rfl
@[simp] theorem setMult_abandoned (v : F32) : (setMult v s).abandoned = s.abandoned := rfl
@[simp] theorem setMult_draws (v : F32) : (setMult v s).draws = s.draws := rfl

/-! ### `setMotion` -/

@[simp] theorem setMotion_pitch (fx fy : F32) (x y : Nat) :
    (setMotion fx fy x y s).pitch = s.pitch := rfl
@[simp] theorem setMotion_roll (fx fy : F32) (x y : Nat) :
    (setMotion fx fy x y s).roll = s.roll := rfl
@[simp] theorem setMotion_dt (fx fy : F32) (x y : Nat) : (setMotion fx fy x y s).dt = s.dt := rfl
@[simp] theorem setMotion_mult (fx fy : F32) (x y : Nat) :
    (setMotion fx fy x y s).mult = s.mult := rfl
@[simp] theorem setMotion_color (fx fy : F32) (x y : Nat) :
    (setMotion fx fy x y s).color = s.color := rfl
@[simp] theorem setMotion_xy (fx fy : F32) (x y : Nat) : (setMotion fx fy x y s).xy = s.xy := rfl
@[simp] theorem setMotion_dir (fx fy : F32) (x y : Nat) : (setMotion fx fy x y s).dir = s.dir := rfl
@[simp] theorem setMotion_pos (fx fy : F32) (x y : Nat) :
    (setMotion fx fy x y s).pos = packXY x y := rfl
@[simp] theorem setMotion_fx (fx fy : F32) (x y : Nat) : (setMotion fx fy x y s).fx = fx := rfl
@[simp] theorem setMotion_fy (fx fy : F32) (x y : Nat) : (setMotion fx fy x y s).fy = fy := rfl
@[simp] theorem setMotion_badcmd (fx fy : F32) (x y : Nat) :
    (setMotion fx fy x y s).badcmd = s.badcmd := rfl
@[simp] theorem setMotion_drop (fx fy : F32) (x y : Nat) :
    (setMotion fx fy x y s).drop = s.drop := rfl
@[simp] theorem setMotion_errcode (fx fy : F32) (x y : Nat) :
    (setMotion fx fy x y s).errcode = s.errcode := rfl
@[simp] theorem setMotion_coreState (fx fy : F32) (x y : Nat) :
    (setMotion fx fy x y s).coreState = s.coreState := rfl
@[simp] theorem setMotion_enc (fx fy : F32) (x y : Nat) : (setMotion fx fy x y s).enc = s.enc := rfl
@[simp] theorem setMotion_inFlight (fx fy : F32) (x y : Nat) :
    (setMotion fx fy x y s).inFlight = s.inFlight := rfl
@[simp] theorem setMotion_mem (fx fy : F32) (x y : Nat) : (setMotion fx fy x y s).mem = s.mem := rfl
@[simp] theorem setMotion_cfg (fx fy : F32) (x y : Nat) : (setMotion fx fy x y s).cfg = s.cfg := rfl
@[simp] theorem setMotion_tickRate (fx fy : F32) (x y : Nat) :
    (setMotion fx fy x y s).tickRate = s.tickRate := rfl
@[simp] theorem setMotion_inputs (fx fy : F32) (x y : Nat) :
    (setMotion fx fy x y s).inputs = s.inputs := rfl
@[simp] theorem setMotion_hostRead (fx fy : F32) (x y : Nat) :
    (setMotion fx fy x y s).hostRead = s.hostRead := rfl
@[simp] theorem setMotion_abandoned (fx fy : F32) (x y : Nat) :
    (setMotion fx fy x y s).abandoned = s.abandoned := rfl
@[simp] theorem setMotion_draws (fx fy : F32) (x y : Nat) :
    (setMotion fx fy x y s).draws = s.draws := rfl

/-! ### `setEncoder` -/

@[simp] theorem setEncoder_pitch (cs : CoreState) (e : Encoder) :
    (setEncoder cs e s).pitch = s.pitch := rfl
@[simp] theorem setEncoder_roll (cs : CoreState) (e : Encoder) :
    (setEncoder cs e s).roll = s.roll := rfl
@[simp] theorem setEncoder_dt (cs : CoreState) (e : Encoder) : (setEncoder cs e s).dt = s.dt := rfl
@[simp] theorem setEncoder_mult (cs : CoreState) (e : Encoder) :
    (setEncoder cs e s).mult = s.mult := rfl
@[simp] theorem setEncoder_color (cs : CoreState) (e : Encoder) :
    (setEncoder cs e s).color = s.color := rfl
@[simp] theorem setEncoder_xy (cs : CoreState) (e : Encoder) : (setEncoder cs e s).xy = s.xy := rfl
@[simp] theorem setEncoder_dir (cs : CoreState) (e : Encoder) :
    (setEncoder cs e s).dir = s.dir := rfl
@[simp] theorem setEncoder_pos (cs : CoreState) (e : Encoder) :
    (setEncoder cs e s).pos = s.pos := rfl
@[simp] theorem setEncoder_fx (cs : CoreState) (e : Encoder) : (setEncoder cs e s).fx = s.fx := rfl
@[simp] theorem setEncoder_fy (cs : CoreState) (e : Encoder) : (setEncoder cs e s).fy = s.fy := rfl
@[simp] theorem setEncoder_badcmd (cs : CoreState) (e : Encoder) :
    (setEncoder cs e s).badcmd = s.badcmd := rfl
@[simp] theorem setEncoder_drop (cs : CoreState) (e : Encoder) :
    (setEncoder cs e s).drop = s.drop := rfl
@[simp] theorem setEncoder_errcode (cs : CoreState) (e : Encoder) :
    (setEncoder cs e s).errcode = s.errcode := rfl
@[simp] theorem setEncoder_coreState (cs : CoreState) (e : Encoder) :
    (setEncoder cs e s).coreState = cs := rfl
@[simp] theorem setEncoder_enc (cs : CoreState) (e : Encoder) : (setEncoder cs e s).enc = e := rfl
@[simp] theorem setEncoder_inFlight (cs : CoreState) (e : Encoder) :
    (setEncoder cs e s).inFlight = s.inFlight := rfl
@[simp] theorem setEncoder_mem (cs : CoreState) (e : Encoder) :
    (setEncoder cs e s).mem = s.mem := rfl
@[simp] theorem setEncoder_cfg (cs : CoreState) (e : Encoder) :
    (setEncoder cs e s).cfg = s.cfg := rfl
@[simp] theorem setEncoder_tickRate (cs : CoreState) (e : Encoder) :
    (setEncoder cs e s).tickRate = s.tickRate := rfl
@[simp] theorem setEncoder_inputs (cs : CoreState) (e : Encoder) :
    (setEncoder cs e s).inputs = s.inputs := rfl
@[simp] theorem setEncoder_hostRead (cs : CoreState) (e : Encoder) :
    (setEncoder cs e s).hostRead = s.hostRead := rfl
@[simp] theorem setEncoder_abandoned (cs : CoreState) (e : Encoder) :
    (setEncoder cs e s).abandoned = s.abandoned := rfl
@[simp] theorem setEncoder_draws (cs : CoreState) (e : Encoder) :
    (setEncoder cs e s).draws = s.draws := rfl

/-! ### `emitFrame` -/

@[simp] theorem emitFrame_pitch (e : Encoder) : (emitFrame e s).pitch = s.pitch := rfl
@[simp] theorem emitFrame_roll (e : Encoder) : (emitFrame e s).roll = s.roll := rfl
@[simp] theorem emitFrame_dt (e : Encoder) : (emitFrame e s).dt = s.dt := rfl
@[simp] theorem emitFrame_mult (e : Encoder) : (emitFrame e s).mult = s.mult := rfl
@[simp] theorem emitFrame_color (e : Encoder) : (emitFrame e s).color = s.color := rfl
@[simp] theorem emitFrame_xy (e : Encoder) : (emitFrame e s).xy = s.xy := rfl
@[simp] theorem emitFrame_dir (e : Encoder) : (emitFrame e s).dir = s.dir := rfl
@[simp] theorem emitFrame_pos (e : Encoder) : (emitFrame e s).pos = s.pos := rfl
@[simp] theorem emitFrame_fx (e : Encoder) : (emitFrame e s).fx = s.fx := rfl
@[simp] theorem emitFrame_fy (e : Encoder) : (emitFrame e s).fy = s.fy := rfl
@[simp] theorem emitFrame_badcmd (e : Encoder) : (emitFrame e s).badcmd = s.badcmd := rfl
@[simp] theorem emitFrame_drop (e : Encoder) : (emitFrame e s).drop = s.drop := rfl
@[simp] theorem emitFrame_errcode (e : Encoder) : (emitFrame e s).errcode = s.errcode := rfl
@[simp] theorem emitFrame_coreState (e : Encoder) : (emitFrame e s).coreState = .wait := rfl
@[simp] theorem emitFrame_enc (e : Encoder) : (emitFrame e s).enc = e := rfl
@[simp] theorem emitFrame_inFlight (e : Encoder) : (emitFrame e s).inFlight = some e.edges := rfl
@[simp] theorem emitFrame_mem (e : Encoder) : (emitFrame e s).mem = s.mem := rfl
@[simp] theorem emitFrame_cfg (e : Encoder) : (emitFrame e s).cfg = s.cfg := rfl
@[simp] theorem emitFrame_tickRate (e : Encoder) : (emitFrame e s).tickRate = s.tickRate := rfl
@[simp] theorem emitFrame_inputs (e : Encoder) : (emitFrame e s).inputs = s.inputs := rfl
@[simp] theorem emitFrame_hostRead (e : Encoder) : (emitFrame e s).hostRead = s.hostRead := rfl
@[simp] theorem emitFrame_abandoned (e : Encoder) : (emitFrame e s).abandoned = s.abandoned := rfl
@[simp] theorem emitFrame_draws (e : Encoder) : (emitFrame e s).draws = s.draws := rfl

/-! ### `leaveFrame` -/

@[simp] theorem leaveFrame_pitch (cs : CoreState) : (leaveFrame cs s).pitch = s.pitch := rfl
@[simp] theorem leaveFrame_roll (cs : CoreState) : (leaveFrame cs s).roll = s.roll := rfl
@[simp] theorem leaveFrame_dt (cs : CoreState) : (leaveFrame cs s).dt = s.dt := rfl
@[simp] theorem leaveFrame_mult (cs : CoreState) : (leaveFrame cs s).mult = s.mult := rfl
@[simp] theorem leaveFrame_color (cs : CoreState) : (leaveFrame cs s).color = s.color := rfl
@[simp] theorem leaveFrame_xy (cs : CoreState) : (leaveFrame cs s).xy = s.xy := rfl
@[simp] theorem leaveFrame_dir (cs : CoreState) : (leaveFrame cs s).dir = s.dir := rfl
@[simp] theorem leaveFrame_pos (cs : CoreState) : (leaveFrame cs s).pos = s.pos := rfl
@[simp] theorem leaveFrame_fx (cs : CoreState) : (leaveFrame cs s).fx = s.fx := rfl
@[simp] theorem leaveFrame_fy (cs : CoreState) : (leaveFrame cs s).fy = s.fy := rfl
@[simp] theorem leaveFrame_badcmd (cs : CoreState) : (leaveFrame cs s).badcmd = s.badcmd := rfl
@[simp] theorem leaveFrame_drop (cs : CoreState) : (leaveFrame cs s).drop = s.drop := rfl
@[simp] theorem leaveFrame_errcode (cs : CoreState) : (leaveFrame cs s).errcode = s.errcode := rfl
@[simp] theorem leaveFrame_coreState (cs : CoreState) : (leaveFrame cs s).coreState = cs := rfl
@[simp] theorem leaveFrame_enc (cs : CoreState) :
    (leaveFrame cs s).enc = unspecifiedEncoder s.cfg s.draws := rfl
@[simp] theorem leaveFrame_inFlight (cs : CoreState) : (leaveFrame cs s).inFlight = none := rfl
@[simp] theorem leaveFrame_mem (cs : CoreState) : (leaveFrame cs s).mem = s.mem := rfl
@[simp] theorem leaveFrame_cfg (cs : CoreState) : (leaveFrame cs s).cfg = s.cfg := rfl
@[simp] theorem leaveFrame_tickRate (cs : CoreState) :
    (leaveFrame cs s).tickRate = s.tickRate := rfl
@[simp] theorem leaveFrame_inputs (cs : CoreState) : (leaveFrame cs s).inputs = s.inputs := rfl
@[simp] theorem leaveFrame_hostRead (cs : CoreState) :
    (leaveFrame cs s).hostRead = s.hostRead := rfl
@[simp] theorem leaveFrame_abandoned (cs : CoreState) :
    (leaveFrame cs s).abandoned = s.abandoned := rfl
@[simp] theorem leaveFrame_draws (cs : CoreState) : (leaveFrame cs s).draws = s.draws + 1 := rfl

/-! ### `raiseFatal` -/

@[simp] theorem raiseFatal_pitch (code : BitVec 4) : (raiseFatal code s).pitch = s.pitch := rfl
@[simp] theorem raiseFatal_roll (code : BitVec 4) : (raiseFatal code s).roll = s.roll := rfl
@[simp] theorem raiseFatal_dt (code : BitVec 4) : (raiseFatal code s).dt = s.dt := rfl
@[simp] theorem raiseFatal_mult (code : BitVec 4) : (raiseFatal code s).mult = s.mult := rfl
@[simp] theorem raiseFatal_color (code : BitVec 4) : (raiseFatal code s).color = s.color := rfl
@[simp] theorem raiseFatal_xy (code : BitVec 4) : (raiseFatal code s).xy = s.xy := rfl
@[simp] theorem raiseFatal_dir (code : BitVec 4) : (raiseFatal code s).dir = s.dir := rfl
@[simp] theorem raiseFatal_pos (code : BitVec 4) : (raiseFatal code s).pos = s.pos := rfl
@[simp] theorem raiseFatal_fx (code : BitVec 4) : (raiseFatal code s).fx = s.fx := rfl
@[simp] theorem raiseFatal_fy (code : BitVec 4) : (raiseFatal code s).fy = s.fy := rfl
@[simp] theorem raiseFatal_badcmd (code : BitVec 4) : (raiseFatal code s).badcmd = s.badcmd := rfl
@[simp] theorem raiseFatal_drop (code : BitVec 4) : (raiseFatal code s).drop = s.drop := rfl
@[simp] theorem raiseFatal_errcode (code : BitVec 4) : (raiseFatal code s).errcode = code := rfl
@[simp] theorem raiseFatal_coreState (code : BitVec 4) :
    (raiseFatal code s).coreState = .halt := rfl
@[simp] theorem raiseFatal_enc (code : BitVec 4) :
    (raiseFatal code s).enc = unspecifiedEncoder s.cfg s.draws := rfl
@[simp] theorem raiseFatal_inFlight (code : BitVec 4) : (raiseFatal code s).inFlight = none := rfl
@[simp] theorem raiseFatal_mem (code : BitVec 4) : (raiseFatal code s).mem = s.mem := rfl
@[simp] theorem raiseFatal_cfg (code : BitVec 4) : (raiseFatal code s).cfg = s.cfg := rfl
@[simp] theorem raiseFatal_tickRate (code : BitVec 4) :
    (raiseFatal code s).tickRate = s.tickRate := rfl
@[simp] theorem raiseFatal_inputs (code : BitVec 4) : (raiseFatal code s).inputs = s.inputs := rfl
@[simp] theorem raiseFatal_hostRead (code : BitVec 4) :
    (raiseFatal code s).hostRead = s.hostRead := rfl
@[simp] theorem raiseFatal_abandoned (code : BitVec 4) :
    (raiseFatal code s).abandoned = s.abandoned := rfl
@[simp] theorem raiseFatal_draws (code : BitVec 4) : (raiseFatal code s).draws = s.draws + 1 := rfl

/-! ### `popInput` -/

@[simp] theorem popInput_pitch (rest : List Input) : (popInput rest s).pitch = s.pitch := rfl
@[simp] theorem popInput_roll (rest : List Input) : (popInput rest s).roll = s.roll := rfl
@[simp] theorem popInput_dt (rest : List Input) : (popInput rest s).dt = s.dt := rfl
@[simp] theorem popInput_mult (rest : List Input) : (popInput rest s).mult = s.mult := rfl
@[simp] theorem popInput_color (rest : List Input) : (popInput rest s).color = s.color := rfl
@[simp] theorem popInput_xy (rest : List Input) : (popInput rest s).xy = s.xy := rfl
@[simp] theorem popInput_dir (rest : List Input) : (popInput rest s).dir = s.dir := rfl
@[simp] theorem popInput_pos (rest : List Input) : (popInput rest s).pos = s.pos := rfl
@[simp] theorem popInput_fx (rest : List Input) : (popInput rest s).fx = s.fx := rfl
@[simp] theorem popInput_fy (rest : List Input) : (popInput rest s).fy = s.fy := rfl
@[simp] theorem popInput_badcmd (rest : List Input) : (popInput rest s).badcmd = s.badcmd := rfl
@[simp] theorem popInput_drop (rest : List Input) : (popInput rest s).drop = s.drop := rfl
@[simp] theorem popInput_errcode (rest : List Input) : (popInput rest s).errcode = s.errcode := rfl
@[simp] theorem popInput_coreState (rest : List Input) :
    (popInput rest s).coreState = s.coreState := rfl
@[simp] theorem popInput_enc (rest : List Input) : (popInput rest s).enc = s.enc := rfl
@[simp] theorem popInput_inFlight (rest : List Input) :
    (popInput rest s).inFlight = s.inFlight := rfl
@[simp] theorem popInput_mem (rest : List Input) : (popInput rest s).mem = s.mem := rfl
@[simp] theorem popInput_cfg (rest : List Input) : (popInput rest s).cfg = s.cfg := rfl
@[simp] theorem popInput_tickRate (rest : List Input) :
    (popInput rest s).tickRate = s.tickRate := rfl
@[simp] theorem popInput_inputs (rest : List Input) : (popInput rest s).inputs = rest := rfl
@[simp] theorem popInput_hostRead (rest : List Input) :
    (popInput rest s).hostRead = s.hostRead := rfl
@[simp] theorem popInput_abandoned (rest : List Input) :
    (popInput rest s).abandoned = s.abandoned := rfl
@[simp] theorem popInput_draws (rest : List Input) : (popInput rest s).draws = s.draws := rfl

/-! ### `resetBlock` -/

@[simp] theorem resetBlock_pitch : (resetBlock s).pitch = 0#32 := rfl
@[simp] theorem resetBlock_roll : (resetBlock s).roll = 0#32 := rfl
@[simp] theorem resetBlock_dt : (resetBlock s).dt = 0#32 := rfl
@[simp] theorem resetBlock_mult : (resetBlock s).mult = resetMult := rfl
@[simp] theorem resetBlock_color : (resetBlock s).color = 0#24 := rfl
@[simp] theorem resetBlock_xy : (resetBlock s).xy = 0#16 := rfl
@[simp] theorem resetBlock_dir : (resetBlock s).dir = resetDir := rfl
@[simp] theorem resetBlock_pos : (resetBlock s).pos = packXY (xCentre s.cfg) (yCentre s.cfg) := rfl
@[simp] theorem resetBlock_fx : (resetBlock s).fx = i2f (xCentre s.cfg) := rfl
@[simp] theorem resetBlock_fy : (resetBlock s).fy = i2f (yCentre s.cfg) := rfl
@[simp] theorem resetBlock_badcmd : (resetBlock s).badcmd = false := rfl
@[simp] theorem resetBlock_drop : (resetBlock s).drop = false := rfl
@[simp] theorem resetBlock_errcode : (resetBlock s).errcode = 0#4 := rfl
@[simp] theorem resetBlock_coreState : (resetBlock s).coreState = .idle := rfl
@[simp] theorem resetBlock_enc : (resetBlock s).enc = unspecifiedEncoder s.cfg s.draws := rfl
@[simp] theorem resetBlock_inFlight : (resetBlock s).inFlight = none := rfl
@[simp] theorem resetBlock_mem : (resetBlock s).mem = [] := rfl
@[simp] theorem resetBlock_cfg : (resetBlock s).cfg = s.cfg := rfl
@[simp] theorem resetBlock_tickRate : (resetBlock s).tickRate = s.tickRate := rfl
@[simp] theorem resetBlock_inputs : (resetBlock s).inputs = s.inputs := rfl
@[simp] theorem resetBlock_hostRead : (resetBlock s).hostRead = s.hostRead := rfl
@[simp] theorem resetBlock_abandoned :
    (resetBlock s).abandoned = if s.coreState = .wait then s.abandoned + 1 else s.abandoned := rfl
@[simp] theorem resetBlock_draws : (resetBlock s).draws = s.draws + 1 := rfl

end Sys2Proof.Machine
end

