-- ==== Sys2Proof/Laws/Commands.lean ====
section
/-! SUPPORT. What a command can do: every meaning is its effect behind the acceptance order of spec
60_exceptions R231. -/

namespace Sys2Proof.Machine

/-- The effect of each command when it is accepted. -/
def effectOf : Instr → State → State
  | .nop => id
  | .clear => clearEffect
  | .setpix => setpixEffect
  | .render => renderEffect
  | .quant => quantEffect
  | .ramp => rampEffect
  | .movec => movecEffect
  | .moved => movedEffect
  | .encode => encodeEffect

/-- Every command answers a next state: its effect behind the acceptance order. -/
theorem exec_eq (i : Instr) (s : State) : exec i s = .next (whenIdle (effectOf i) s) := by
  cases i <;> rfl

theorem whenIdle_idle (f : State → State) (s : State) (h : s.coreState = .idle) :
    whenIdle f s = f s := by
  simp [whenIdle, h]

theorem whenIdle_halt (f : State → State) (s : State) (h : s.coreState = .halt) :
    whenIdle f s = s := by
  simp [whenIdle, h]

theorem whenIdle_busy (f : State → State) (s : State) (h : busy s = true) :
    whenIdle f s = setDrop s := by
  cases hc : s.coreState <;> simp_all [busy, whenIdle]

/-- The three ways a command can go. -/
theorem whenIdle_cases (f : State → State) (s : State) :
    (s.coreState = .idle ∧ whenIdle f s = f s) ∨ (busy s = true ∧ whenIdle f s = setDrop s) ∨
      (s.coreState = .halt ∧ whenIdle f s = s) := by
  cases hc : s.coreState <;> simp [busy, whenIdle, hc]

theorem busy_iff (s : State) :
    busy s = true ↔ s.coreState = .prep ∨ s.coreState = .emit ∨ s.coreState = .wait := by
  cases hc : s.coreState <;> simp [busy, hc]

theorem fatal_iff (s : State) : fatal s = true ↔ s.coreState = .halt := by
  cases hc : s.coreState <;> simp [fatal, hc]

end Sys2Proof.Machine
end

