-- ==== Sys2Proof/Laws/Memory.lean ====
section
/-! SUPPORT. The frame buffer: read after write, what every write leaves alone, and that every
operation keeps the canonical form. -/

namespace Sys2Proof.Machine

/-! ### Bytes -/

@[simp] theorem readByte_nil (a : Nat) : readByte [] a = 0#8 := rfl

/-- Dropping cells by a test of their address leaves the bytes of the addresses kept. -/
theorem readByte_filter (keep : Nat → Bool) (m : Memory) (a : Nat) :
    readByte (m.filter (fun c => keep c.1)) a = if keep a then readByte m a else 0#8 := by
  induction m with
  | nil => simp
  | cons c m ih =>
    by_cases hc : keep c.1 = true
    · simp only [List.filter_cons, hc, if_true, readByte]
      by_cases ha : c.1 = a
      · simp [ha, ha ▸ hc]
      · simp [ha, ih]
    · rw [List.filter_cons, if_neg hc, ih]
      by_cases ha : c.1 = a
      · subst ha; simp [hc]
      · simp [readByte, ha]

/-- Inserting a cell whose address is not listed sets its byte and no other. -/
theorem readByte_insertCell (m : Memory) (c : Host.Cell) (a : Nat)
    (fresh : ∀ d ∈ m, d.1 ≠ c.1) :
    readByte (insertCell m c) a = if c.1 = a then c.2 else readByte m a := by
  induction m with
  | nil => simp [insertCell, readByte]
  | cons d m ih =>
    have hd : d.1 ≠ c.1 := fresh d (by simp)
    have ih := ih (fun e he => fresh e (by simp [he]))
    unfold insertCell
    by_cases h : c.1 < d.1
    · simp [h, readByte]
    · simp only [h, if_false, readByte, ih]
      by_cases h1 : d.1 = a
      · subst h1; simp [Ne.symm hd]
      · simp [h1]

/-- Read after write: a write sets its own byte and leaves every other byte alone. -/
theorem readByte_writeByte (m : Memory) (x : Nat) (v : Byte) (a : Nat) :
    readByte (writeByte m x v) a = if x = a then v else readByte m a := by
  have hf := readByte_filter (fun b => decide (b ≠ x)) m a
  unfold writeByte
  by_cases hv : v = 0#8
  · simp only [hv, if_true]
    rw [hf]
    by_cases h : x = a
    · simp [h]
    · simp [h, Ne.symm h]
  · simp only [hv, if_false]
    rw [readByte_insertCell _ _ _ (by simp), hf]
    by_cases h : x = a
    · simp [h]
    · simp [h, Ne.symm h]

/-! ### Canonical form -/

theorem memoryWf_nil : memoryWf [] := ⟨List.Pairwise.nil, fun _ h => by cases h⟩

/-- Dropping cells keeps the canonical form. -/
theorem memoryWf_filter (m : Memory) (keep : Host.Cell → Bool) (h : memoryWf m) :
    memoryWf (m.filter keep) :=
  ⟨h.1.filter _, fun c hc => h.2 c (List.mem_of_mem_filter hc)⟩

theorem mem_insertCell (m : Memory) (c d : Host.Cell) : d ∈ insertCell m c ↔ d = c ∨ d ∈ m := by
  induction m with
  | nil => simp [insertCell]
  | cons e m ih =>
    unfold insertCell
    split
    · simp
    · simp only [List.mem_cons, ih]; tauto

/-- Inserting a nonzero byte at an address not listed keeps the canonical form. -/
theorem memoryWf_insertCell (m : Memory) (c : Host.Cell) (h : memoryWf m) (hc : c.2 ≠ 0#8)
    (fresh : ∀ d ∈ m, d.1 ≠ c.1) : memoryWf (insertCell m c) := by
  refine ⟨?_, fun d hd => ?_⟩
  · have hs := h.1
    clear h
    induction m with
    | nil => simp [insertCell]
    | cons d m ih =>
      have hd : d.1 ≠ c.1 := fresh d (by simp)
      rw [List.pairwise_cons] at hs
      unfold insertCell
      by_cases hlt : c.1 < d.1
      · simp only [hlt, if_true, List.pairwise_cons]
        refine ⟨fun e he => ?_, hs.1, hs.2⟩
        rcases List.mem_cons.1 he with rfl | he
        · exact hlt
        · exact lt_trans hlt (hs.1 e he)
      · simp only [hlt, if_false, List.pairwise_cons]
        refine ⟨fun e he => ?_, ih (fun e he => fresh e (by simp [he])) hs.2⟩
        rcases (mem_insertCell m c e).1 he with rfl | he
        · omega
        · exact hs.1 e he
  · rcases (mem_insertCell m c d).1 hd with rfl | hd
    · exact hc
    · exact h.2 d hd

/-- A write of one byte keeps the canonical form. -/
theorem memoryWf_writeByte (m : Memory) (x : Nat) (v : Byte) (h : memoryWf m) :
    memoryWf (writeByte m x v) := by
  unfold writeByte
  by_cases hv : v = 0#8
  · simpa only [hv, if_true] using memoryWf_filter m _ h
  · simp only [hv, if_false]
    exact memoryWf_insertCell _ _ (memoryWf_filter m _ h) hv (by simp)

/-- A write of one byte lists no address but its own and those listed before. -/
theorem mem_writeByte (m : Memory) (x : Nat) (v : Byte) (c : Host.Cell)
    (h : c ∈ writeByte m x v) : c.1 = x ∨ c ∈ m := by
  unfold writeByte at h
  split at h
  · exact .inr (List.mem_of_mem_filter h)
  · rcases (mem_insertCell _ _ _).1 h with rfl | h
    · exact .inl rfl
    · exact .inr (List.mem_of_mem_filter h)

/-! ### Pixels -/

theorem laneAddr_inj {i j k l : Nat} (hk : k < 4) (hl : l < 4) :
    laneAddr i k = laneAddr j l ↔ i = j ∧ k = l := by
  unfold laneAddr; omega

/-- The bytes after a pixel is written: its three lanes hold blue, green and red, every other byte
is as before. -/
theorem readByte_writePixel (m : Memory) (i : Nat) (px : Pixel) (a : Nat) :
    readByte (writePixel m i px) a =
      if laneAddr i 2 = a then px.extractLsb' 16 8
      else if laneAddr i 1 = a then px.extractLsb' 8 8
      else if laneAddr i 0 = a then px.extractLsb' 0 8
      else readByte m a := by
  simp only [writePixel, readByte_writeByte]

/-- The three lanes of a pixel make the pixel. -/
theorem pixelOfLanes (px : Pixel) :
    (px.extractLsb' 16 8 ++ px.extractLsb' 8 8 ++ px.extractLsb' 0 8 : BitVec 24) = px := by
  apply BitVec.eq_of_getLsbD_eq
  intro k hk
  simp only [BitVec.getLsbD_append, BitVec.getLsbD_extractLsb']
  by_cases h0 : k < 8
  · simp [h0]
  · by_cases h1 : k - 8 < 8
    · have e : 8 + (k - 8) = k := by omega
      simp [h0, h1, e]
    · have e : 16 + (k - 8 - 8) = k := by omega
      have h2 : k - 8 - 8 < 8 := by omega
      simp [h0, h1, h2, e]

/-- `FB[i] <- px; FB[j]`: the pixel written is read back, every other pixel is as before. -/
theorem readPixel_writePixel (m : Memory) (i j : Nat) (px : Pixel) :
    readPixel (writePixel m i px) j = if i = j then px else readPixel m j := by
  unfold readPixel
  simp only [readByte_writePixel, laneAddr_inj (by omega : 2 < 4) (by omega : 2 < 4),
    laneAddr_inj (by omega : 2 < 4) (by omega : 1 < 4), laneAddr_inj (by omega : 2 < 4) (by omega : 0 < 4),
    laneAddr_inj (by omega : 1 < 4) (by omega : 2 < 4), laneAddr_inj (by omega : 1 < 4) (by omega : 1 < 4),
    laneAddr_inj (by omega : 1 < 4) (by omega : 0 < 4), laneAddr_inj (by omega : 0 < 4) (by omega : 2 < 4),
    laneAddr_inj (by omega : 0 < 4) (by omega : 1 < 4), laneAddr_inj (by omega : 0 < 4) (by omega : 0 < 4)]
  by_cases h : i = j
  · simp only [h, true_and, if_true]
    exact pixelOfLanes px
  · simp [h]

/-- The bytes after a clear: bytes of pixels read 0, every other byte is as before. -/
theorem readByte_clearPixels (n : Nat) (m : Memory) (a : Nat) :
    readByte (clearPixels n m) a = if isPixelByte n a then 0#8 else readByte m a := by
  have h := readByte_filter (fun b => !isPixelByte n b) m a
  unfold clearPixels
  rw [h]
  by_cases hp : isPixelByte n a = true <;> simp [hp]

theorem isPixelByte_laneAddr (n i k : Nat) (hk : k < 4) :
    isPixelByte n (laneAddr i k) = (decide (i < n) && decide (k ≠ 3)) := by
  unfold isPixelByte laneAddr windowBase
  rw [Bool.eq_iff_iff]
  simp only [Bool.and_eq_true, decide_eq_true_eq]
  omega

/-- After a clear every pixel of the buffer is black, every index beyond it as before. -/
theorem readPixel_clearPixels (n : Nat) (m : Memory) (i : Nat) :
    readPixel (clearPixels n m) i = if i < n then 0#24 else readPixel m i := by
  unfold readPixel
  simp only [readByte_clearPixels, isPixelByte_laneAddr n i _ (by omega : 0 < 4),
    isPixelByte_laneAddr n i _ (by omega : 1 < 4), isPixelByte_laneAddr n i _ (by omega : 2 < 4)]
  by_cases h : i < n
  · simp [h]
  · simp [h]

/-- A byte of memory that is no lane of pixel `i` is left alone by a write of that pixel. -/
theorem readByte_writePixel_of_ne (m : Memory) (i : Nat) (px : Pixel) (a : Nat)
    (h0 : a ≠ laneAddr i 0) (h1 : a ≠ laneAddr i 1) (h2 : a ≠ laneAddr i 2) :
    readByte (writePixel m i px) a = readByte m a := by
  rw [readByte_writePixel, if_neg (Ne.symm h2), if_neg (Ne.symm h1), if_neg (Ne.symm h0)]

/-! ### The memory invariant -/

/-- Writing a pixel of the buffer keeps the canonical form and lists bytes of pixels only. -/
theorem memoryWf_writePixel (m : Memory) (i : Nat) (px : Pixel) (h : memoryWf m) :
    memoryWf (writePixel m i px) :=
  memoryWf_writeByte _ _ _ (memoryWf_writeByte _ _ _ (memoryWf_writeByte _ _ _ h))

theorem pixelBytes_writePixel (m : Memory) (n i : Nat) (px : Pixel) (hi : i < n)
    (h : ∀ c ∈ m, isPixelByte n c.1 = true) :
    ∀ c ∈ writePixel m i px, isPixelByte n c.1 = true := by
  intro c hc
  have lane : ∀ k, k < 3 → isPixelByte n (laneAddr i k) = true := fun k hk => by
    rw [isPixelByte_laneAddr n i k (by omega)]
    have hk3 : k ≠ 3 := by omega
    simp [hi, hk3]
  rcases mem_writeByte _ _ _ _ hc with h2 | hc
  · rw [h2]; exact lane 2 (by omega)
  rcases mem_writeByte _ _ _ _ hc with h1 | hc
  · rw [h1]; exact lane 1 (by omega)
  rcases mem_writeByte _ _ _ _ hc with h0 | hc
  · rw [h0]; exact lane 0 (by omega)
  exact h c hc

theorem memoryWf_clearPixels (n : Nat) (m : Memory) (h : memoryWf m) :
    memoryWf (clearPixels n m) :=
  memoryWf_filter m _ h

theorem mem_clearPixels (n : Nat) (m : Memory) (c : Host.Cell) (h : c ∈ clearPixels n m) : c ∈ m :=
  List.mem_of_mem_filter h

/-- The index of an in-bounds pixel lies in 0 .. N-1 (spec 40_framebuffer R104). -/
theorem pixelIndex_lt (c : Config) (x y : Nat) (h : inBounds c x y = true) :
    pixelIndex c x y < pixelCount c := by
  simp only [inBounds, Bool.and_eq_true, decide_eq_true_eq] at h
  unfold pixelIndex pixelCount
  calc y * c.width + x < y * c.width + c.width := by omega
    _ = (y + 1) * c.width := by ring
    _ ≤ c.height * c.width := Nat.mul_le_mul_right _ h.2
    _ = c.width * c.height := Nat.mul_comm _ _

/-- `setAt` keeps the canonical form. -/
theorem memoryWf_setAt (c : Config) (x y : Nat) (px : Pixel) (m : Memory) (h : memoryWf m) :
    memoryWf (setAt c x y px m) := by
  unfold setAt
  split
  · exact memoryWf_writePixel m _ px h
  · exact h

theorem pixelBytes_setAt (c : Config) (x y : Nat) (px : Pixel) (m : Memory)
    (h : ∀ d ∈ m, isPixelByte (pixelCount c) d.1 = true) :
    ∀ d ∈ setAt c x y px m, isPixelByte (pixelCount c) d.1 = true := by
  unfold setAt
  split
  next hb => exact pixelBytes_writePixel m _ _ px (pixelIndex_lt c x y hb) h
  next => exact h

/-- What `setAt` leaves in each pixel. -/
theorem readPixel_setAt (c : Config) (x y : Nat) (px : Pixel) (m : Memory) (j : Nat) :
    readPixel (setAt c x y px m) j =
      if inBounds c x y = true ∧ pixelIndex c x y = j then px else readPixel m j := by
  unfold setAt
  by_cases h : inBounds c x y = true
  · simp [h, readPixel_writePixel]
  · simp [h]

end Sys2Proof.Machine
end

