-- ==== Sys2Proof/Laws/Step.lean ====
section
/-! SUPPORT. Everything a step can do, said once: inversion lemmas for the bus and for `step`, and
the induction principle that invariants use. -/

namespace Sys2Proof.Machine

/-! ### The bus -/

theorem regAt_regOffset (r : Reg) : regAt (regOffset r) = some r := by cases r <;> decide

theorem regAt_eq_some (off : Offset) (r : Reg) : regAt off = some r ↔ off = regOffset r := by
  constructor
  · intro h
    have := List.find?_some h
    exact (of_decide_eq_true this).symm
  · rintro rfl; exact regAt_regOffset r

theorem issueCommand_eq (w : Word) (s : State) :
    issueCommand w s = .next
      (whenIdle (match decode w with
        | .ok i => effectOf i
        | .error _ => setBadcmd) s) := by
  unfold issueCommand
  cases decode w with
  | ok i => exact exec_eq i s
  | error e => rfl

/-- What a Host write can do when it does something: it clears sticky flags, stores an operand, or
issues a command. -/
inductive WriteEffect (v : Word) (s : State) : State → Prop where
  | ignored : WriteEffect v s s
  | status (live : s.coreState ≠ .halt) : WriteEffect v s (clearSticky v s)
  | command (i : Instr) (live : s.coreState ≠ .halt) (legal : decode v = .ok i) :
      WriteEffect v s (whenIdle (effectOf i) s)
  | reserved (e : DecodeError) (live : s.coreState ≠ .halt) (illegal : decode v = .error e) :
      WriteEffect v s (whenIdle setBadcmd s)
  | pitch (live : s.coreState ≠ .halt) : WriteEffect v s { s with pitch := v }
  | roll (live : s.coreState ≠ .halt) : WriteEffect v s { s with roll := v }
  | dt (live : s.coreState ≠ .halt) : WriteEffect v s { s with dt := v }
  | mult (live : s.coreState ≠ .halt) : WriteEffect v s { s with mult := v }
  | color (live : s.coreState ≠ .halt) : WriteEffect v s { s with color := v.extractLsb' 0 24 }
  | xy (live : s.coreState ≠ .halt) : WriteEffect v s { s with xy := v.extractLsb' 0 16 }

/-- Everything a Host write can do; it always answers a next state. -/
theorem memWrite_cases (off : Offset) (v : Word) (s : State) :
    ∃ t, memWrite off v s = .next t ∧ WriteEffect v s t := by
  unfold memWrite
  by_cases live : s.coreState = .halt
  · exact ⟨s, by simp [live], .ignored⟩
  · simp only [live, if_false]
    cases hr : regAt off with
    | none => exact ⟨s, rfl, .ignored⟩
    | some r =>
      cases r with
      | status => exact ⟨_, rfl, .status live⟩
      | cmd =>
        cases hd : decode v with
        | ok i => exact ⟨_, by simp [writeReg, issueCommand_eq, hd], .command i live hd⟩
        | error e => exact ⟨_, by simp [writeReg, issueCommand_eq, hd], .reserved e live hd⟩
      | pitch => exact ⟨_, rfl, .pitch live⟩
      | roll => exact ⟨_, rfl, .roll live⟩
      | dt => exact ⟨_, rfl, .dt live⟩
      | mult => exact ⟨_, rfl, .mult live⟩
      | color => exact ⟨_, rfl, .color live⟩
      | xy => exact ⟨_, rfl, .xy live⟩
      | cfg => exact ⟨s, rfl, .ignored⟩
      | dir => exact ⟨s, rfl, .ignored⟩
      | pos => exact ⟨s, rfl, .ignored⟩
      | fx => exact ⟨s, rfl, .ignored⟩
      | fy => exact ⟨s, rfl, .ignored⟩

/-- A Host read within the contract changes the read port only. -/
theorem hostAccess_read (off : Offset) (s : State) (h : off.toNat % 4 = 0) :
    hostAccess (.read off .bits32) s = .next { s with hostRead := some (memRead off s) } := by
  simp [hostAccess, Access.wordWide, Access.width, Access.aligned, Access.offset, h]

/-- A Host write within the contract is `MemWrite`. -/
theorem hostAccess_write (off : Offset) (v : Word) (s : State) (h : off.toNat % 4 = 0) :
    hostAccess (.write off .bits32 v) s = memWrite off v s := by
  simp [hostAccess, Access.wordWide, Access.width, Access.aligned, Access.offset, h]

/-- A Host write to a named register outside HALT is that register's write. -/
theorem hostAccess_writeReg (r : Reg) (v : Word) (s : State) (live : s.coreState ≠ .halt) :
    hostAccess (.write (regOffset r) .bits32 v) s = writeReg r v s := by
  rw [hostAccess_write _ _ _ (by cases r <;> decide), memWrite, if_neg live, regAt_regOffset]

/-- A Host read of a named register returns its word on the read port. -/
theorem hostAccess_readReg (r : Reg) (s : State) :
    hostAccess (.read (regOffset r) .bits32) s =
      .next { s with hostRead := some (readReg r s) } := by
  rw [hostAccess_read _ _ (by cases r <;> decide), memRead, regAt_regOffset]

theorem offset_aligned {a : Access} (h : ¬(!a.aligned) = true) : a.offset.toNat % 4 = 0 := by
  have h' : a.aligned = true := by cases ha : a.aligned <;> simp_all
  exact of_decide_eq_true h'

/-- A Host access that answers a next state is a read or a write within the contract. -/
theorem hostAccess_cases (a : Access) (s t : State) (h : hostAccess a s = .next t) :
    (∃ off, a = .read off .bits32 ∧ off.toNat % 4 = 0 ∧
      t = { s with hostRead := some (memRead off s) }) ∨
    (∃ off v, a = .write off .bits32 v ∧ off.toNat % 4 = 0 ∧ memWrite off v s = .next t) := by
  unfold hostAccess at h
  split at h
  · cases h
  next hw =>
    split at h
    · cases h
    next ha =>
      cases a with
      | read off width =>
        cases width <;> simp [Access.wordWide, Access.width] at hw
        exact .inl ⟨off, rfl, offset_aligned ha, by simpa using h.symm⟩
      | write off width v =>
        cases width <;> simp [Access.wordWide, Access.width] at hw
        exact .inr ⟨off, v, rfl, offset_aligned ha, h⟩

/-! ### The step -/

/-- A step of a legal part with nothing pending is a step of the Core. -/
theorem step_nil (s : State) (legal : s.cfg.legal = true) (h : s.inputs = []) :
    step s = .next (coreStep s) := by
  simp [step, legal, h]

/-- A step of a legal part with an event pending is that event. -/
theorem step_cons (s : State) (i : Input) (rest : List Input) (legal : s.cfg.legal = true)
    (h : s.inputs = i :: rest) : step s = applyInput i (popInput rest s) := by
  simp [step, legal, h]

/-- Everything a step that answers a next state can be. -/
theorem step_cases (s t : State) (h : step s = .next t) :
    s.cfg.legal = true ∧
      ((s.inputs = [] ∧ t = coreStep s) ∨
        ∃ i rest, s.inputs = i :: rest ∧ applyInput i (popInput rest s) = .next t) := by
  unfold step at h
  split at h
  · cases h
  next hl =>
    refine ⟨by simpa using hl, ?_⟩
    cases hi : s.inputs with
    | nil => left; simpa [hi, eq_comm] using h
    | cons i rest => right; exact ⟨i, rest, rfl, by simpa [hi] using h⟩

/-- The induction principle of invariants: a property of the block that every single effect keeps is
kept by every step. The premises name the effects; `legal` may be used in each. -/
theorem step_keeps (P : State → Prop)
    (pop : ∀ s rest, P s → P (popInput rest s))
    (read : ∀ s v, P s → P { s with hostRead := some v })
    (rate : ∀ s v, P s → P { s with tickRate := v })
    (write : ∀ s v t, s.cfg.legal = true → P s → WriteEffect v s t → P t)
    (core : ∀ s, s.cfg.legal = true → P s → P (coreStep s))
    (answer : ∀ s r, s.cfg.legal = true → P s → P (receiveAnswer r s))
    (reset : ∀ s, s.cfg.legal = true → P s → P (resetBlock s))
    (s t : State) (h : step s = .next t) (hs : P s) : P t := by
  obtain ⟨legal, ⟨-, rfl⟩ | ⟨i, rest, -, hi⟩⟩ := step_cases s t h
  · exact core s legal hs
  · have hp := pop s rest hs
    have legal' : (popInput rest s).cfg.legal = true := legal
    cases i with
    | host a =>
      rcases hostAccess_cases a _ t hi with ⟨off, -, -, rfl⟩ | ⟨off, v, -, -, hw⟩
      · exact read _ _ hp
      · obtain ⟨t', ht', hwe⟩ := memWrite_cases off v (popInput rest s)
        rw [ht'] at hw
        cases hw
        exact write _ v _ legal' hp hwe
    | core => cases hi; exact core _ legal' hp
    | answer r => cases hi; exact answer _ r legal' hp
    | tickRate v => cases hi; exact rate _ v hp
    | reset => cases hi; exact reset _ legal' hp

/-! ### Runs -/

/-- A run of k + 1 steps is a run of k steps and then a step. -/
theorem runSteps_succ (k : Nat) (s : State) :
    runSteps (k + 1) s = match runSteps k s with
      | .next t => step t
      | .fault r => .fault r
      | .refused r => .refused r := by
  induction k generalizing s with
  | zero =>
    simp only [runSteps]
    cases step s <;> rfl
  | succ k ih =>
    conv_lhs => unfold runSteps
    conv_rhs => unfold runSteps
    cases h : step s with
    | next t => exact ih t
    | fault r => rfl
    | refused r => rfl

end Sys2Proof.Machine
end

