-- ==== Sys2Proof/Laws/Encoder.lean ====
section
/-! SUPPORT. The encoder: lengths of edge lists, what PREP, EMIT and an answer can do. -/

namespace Sys2Proof.Machine

@[simp] theorem bitPairs_length (e : Encoder) (w : BitVec 24) (n : Nat) :
    (bitPairs e w n).length = 2 * n := by
  induction n with
  | zero => rfl
  | succ n ih => simp [bitPairs, bitPair, ih]; omega

@[simp] theorem pixelEdges_length (e : Encoder) (px : Pixel) : (pixelEdges e px).length = 48 := by
  simp [pixelEdges]

@[simp] theorem frameEdges_length (e : Encoder) (m : Memory) (n : Nat) :
    (frameEdges e m n).length = 48 * n := by
  induction n with
  | zero => rfl
  | succ n ih => simp [frameEdges, ih]; omega

/-- The edges of a GRB word: bit n-1-j makes edges 2j and 2j+1. -/
theorem bitPairs_getElem? (e : Encoder) (w : BitVec 24) (n j : Nat) (h : j < n) :
    (bitPairs e w n)[2 * j]? = some ⟨true, highTicks e (w.getLsbD (n - 1 - j))⟩ ∧
      (bitPairs e w n)[2 * j + 1]? = some ⟨false, lowTicks e (w.getLsbD (n - 1 - j))⟩ := by
  induction n generalizing j with
  | zero => omega
  | succ n ih =>
    cases j with
    | zero => simp [bitPairs, bitPair]
    | succ j =>
      have := ih j (by omega)
      rw [show 2 * (j + 1) = 2 * j + 1 + 1 by ring, show n + 1 - 1 - (j + 1) = n - 1 - j by omega]
      simpa [bitPairs, bitPair] using this

/-- The frame depends on the tick counts and the pixels only. -/
theorem frameEdges_congr (e f : Encoder) (m k : Memory) (n : Nat)
    (h : e.t0h = f.t0h ∧ e.t0l = f.t0l ∧ e.t1h = f.t1h ∧ e.t1l = f.t1l)
    (hm : ∀ i < n, readPixel m i = readPixel k i) : frameEdges e m n = frameEdges f k n := by
  obtain ⟨h1, h2, h3, h4⟩ := h
  have hp : ∀ v, bitPair e v = bitPair f v := by
    intro v; simp [bitPair, highTicks, lowTicks, h1, h2, h3, h4]
  have hb : ∀ w n, bitPairs e w n = bitPairs f w n := by
    intro w n
    induction n with
    | zero => rfl
    | succ n ih => simp [bitPairs, hp, ih]
  induction n with
  | zero => rfl
  | succ n ih =>
    simp [frameEdges, pixelEdges, hb, hm n (by omega), ih (fun i hi => hm i (by omega))]

/-- The edges of pixel `p` in a frame of n pixels. -/
theorem frameEdges_getElem? (e : Encoder) (m : Memory) (n p k : Nat) (hp : p < n) (hk : k < 48) :
    (frameEdges e m n)[48 * p + k]? = (pixelEdges e (readPixel m p))[k]? := by
  induction n with
  | zero => omega
  | succ n ih =>
    simp only [frameEdges]
    by_cases h : p = n
    · subst h
      rw [List.getElem?_append_right (by simp)]
      simp
    · rw [List.getElem?_append_left (by simp; omega)]
      exact ih (by omega)

/-- The edges are made in order, each pair high then low: the closed form in one position. -/
theorem frameEdges_pair (e : Encoder) (m : Memory) (n p j : Nat) (hp : p < n) (hj : j < 24) :
    (frameEdges e m n)[48 * p + 2 * j]? =
        some ⟨true, highTicks e ((grb (readPixel m p)).getLsbD (23 - j))⟩ ∧
      (frameEdges e m n)[48 * p + 2 * j + 1]? =
        some ⟨false, lowTicks e ((grb (readPixel m p)).getLsbD (23 - j))⟩ := by
  have h := bitPairs_getElem? e (grb (readPixel m p)) 24 j hj
  refine ⟨?_, ?_⟩
  · rw [frameEdges_getElem? e m n p (2 * j) hp (by omega)]; exact h.1
  · rw [Nat.add_assoc, frameEdges_getElem? e m n p (2 * j + 1) hp (by omega)]; exact h.2

/-- Everything PREP can do (41_encoder R131). -/
theorem prepStep_cases (s : State) :
    (s.tickRate = 0#32 ∧ prepStep s = raiseFatal noTickRate s) ∨
    (s.tickRate ≠ 0#32 ∧ countsOk s.cfg (sampled s) = false ∧
      prepStep s = raiseFatal pulseRange s) ∨
    (s.tickRate ≠ 0#32 ∧ countsOk s.cfg (sampled s) = true ∧
      prepStep s = setEncoder .emit { sampled s with p := 0, b := 23, ph := .high, edges := [] } s) := by
  unfold prepStep
  by_cases h : s.tickRate = 0#32
  · simp [h]
  · cases hc : countsOk s.cfg (sampled s) <;> simp [h]

/-- Everything EMIT can do (41_encoder R143). -/
theorem emitStep_cases (s : State) :
    (s.enc.ph = .high ∧ emitStep s = setEncoder .emit (emitHigh s) s) ∨
    (s.enc.ph = .low ∧ (emitLow s.enc).p = pixelCount s.cfg ∧
      emitStep s = emitFrame (emitLow s.enc) s) ∨
    (s.enc.ph = .low ∧ (emitLow s.enc).p ≠ pixelCount s.cfg ∧
      emitStep s = setEncoder .emit (emitLow s.enc) s) := by
  unfold emitStep
  cases hp : s.enc.ph with
  | high => exact .inl ⟨rfl, rfl⟩
  | low =>
    by_cases h : (emitLow s.enc).p = pixelCount s.cfg
    · exact .inr (.inl ⟨rfl, h, by simp [h]⟩)
    · exact .inr (.inr ⟨rfl, h, by simp [h]⟩)

/-- Everything an answer can do (41_encoder R148, R149, 70_reset R263). -/
theorem receiveAnswer_cases (r : TxAnswer) (s : State) :
    (∃ k, s.abandoned = k + 1 ∧ receiveAnswer r s = { s with abandoned := k }) ∨
    (s.abandoned = 0 ∧ s.coreState ≠ .wait ∧ receiveAnswer r s = s) ∨
    (s.abandoned = 0 ∧ s.coreState = .wait ∧ r = .ok ∧ receiveAnswer r s = leaveFrame .idle s) ∨
    (s.abandoned = 0 ∧ s.coreState = .wait ∧ r = .hwError ∧
      receiveAnswer r s = raiseFatal txError s) := by
  unfold receiveAnswer
  cases s.abandoned with
  | succ k => exact .inl ⟨k, rfl, rfl⟩
  | zero => cases hc : s.coreState <;> cases r <;> simp

/-! ### EMIT builds the frame edge by edge -/

theorem take_append_next {α : Type} (l : List α) (n : Nat) (a : α) (h : l[n]? = some a) :
    l.take n ++ [a] = l.take (n + 1) := by
  rw [List.take_add_one, h]; rfl

/-- The high half of an EMIT step keeps the edges a prefix of the frame. -/
theorem emitInv_high (s : State) (h : emitInv s) (hp : s.enc.ph = .high) :
    emitInv (setEncoder .emit (emitHigh s) s) := by
  obtain ⟨hc, hpN, hb, hw, he⟩ := h
  have hword : (if s.enc.b = 23 then grb (pixel s s.enc.p) else s.enc.word) =
      grb (pixel s s.enc.p) := by
    split
    · rfl
    · exact hw (.inl (by omega))
  refine ⟨hc, hpN, hb, fun _ => hword, ?_⟩
  have hf : frameEdges (emitHigh s) s.mem (pixelCount s.cfg) =
      frameEdges s.enc s.mem (pixelCount s.cfg) :=
    frameEdges_congr _ _ _ _ _ ⟨rfl, rfl, rfl, rfl⟩ (fun _ _ => rfl)
  show (emitHigh s).edges =
    (frameEdges (emitHigh s) s.mem (pixelCount s.cfg)).take (edgesBuilt (emitHigh s))
  have hn : edgesBuilt (emitHigh s) = edgesBuilt s.enc + 1 := by simp [edgesBuilt, emitHigh, hp]
  rw [hf, hn, ← take_append_next _ _
    ⟨true, highTicks s.enc ((grb (pixel s s.enc.p)).getLsbD s.enc.b)⟩, ← he]
  · simp only [emitHigh, hword]
  · have := (frameEdges_pair s.enc s.mem (pixelCount s.cfg) s.enc.p (23 - s.enc.b) hpN
      (by omega)).1
    rw [show 23 - (23 - s.enc.b) = s.enc.b by omega] at this
    simpa [edgesBuilt, hp, pixel] using this

/-- The low half of an EMIT step appends the next edge of the frame. -/
theorem emitLow_edges (s : State) (h : emitInv s) (hp : s.enc.ph = .low) :
    (emitLow s.enc).edges =
      (frameEdges s.enc s.mem (pixelCount s.cfg)).take (edgesBuilt s.enc + 1) := by
  obtain ⟨hc, hpN, hb, hw, he⟩ := h
  rw [← take_append_next _ _
    ⟨false, lowTicks s.enc ((grb (pixel s s.enc.p)).getLsbD s.enc.b)⟩, ← he]
  · simp only [emitLow, hw (.inr hp)]
  · have := (frameEdges_pair s.enc s.mem (pixelCount s.cfg) s.enc.p (23 - s.enc.b) hpN
      (by omega)).2
    rw [show 23 - (23 - s.enc.b) = s.enc.b by omega] at this
    simpa [edgesBuilt, hp, pixel] using this

/-- The low half of an EMIT step counts one edge. -/
theorem edgesBuilt_emitLow (e : Encoder) (hp : e.ph = .low) (hb : e.b ≤ 23) :
    edgesBuilt (emitLow e) = edgesBuilt e + 1 := by
  unfold edgesBuilt emitLow
  simp only [hp]
  split <;> omega

/-- After the last low half the list is the whole frame. -/
theorem emitLow_last (s : State) (h : emitInv s) (hp : s.enc.ph = .low)
    (hN : (emitLow s.enc).p = pixelCount s.cfg) :
    (emitLow s.enc).edges = frameEdges (emitLow s.enc) s.mem (pixelCount s.cfg) := by
  rw [emitLow_edges s h hp, frameEdges_congr (emitLow s.enc) s.enc s.mem s.mem _
    ⟨rfl, rfl, rfl, rfl⟩ (fun _ _ => rfl)]
  obtain ⟨hc, hpN, hb, hw, he⟩ := h
  apply List.take_of_length_le
  simp only [frameEdges_length, edgesBuilt, hp]
  simp only [emitLow] at hN
  split at hN <;> omega

/-- A low half that is not the last one keeps the edges a prefix of the frame. -/
theorem emitInv_low (s : State) (h : emitInv s) (hp : s.enc.ph = .low)
    (hN : (emitLow s.enc).p ≠ pixelCount s.cfg) :
    emitInv (setEncoder .emit (emitLow s.enc) s) := by
  have hedges := emitLow_edges s h hp
  have hf := frameEdges_congr (emitLow s.enc) s.enc s.mem s.mem (pixelCount s.cfg)
    ⟨rfl, rfl, rfl, rfl⟩ (fun _ _ => rfl)
  obtain ⟨hc, hpN, hb, hw, he⟩ := h
  have henc : (setEncoder .emit (emitLow s.enc) s).enc = emitLow s.enc := rfl
  refine ⟨hc, ?_, ?_, ?_, ?_⟩
  · rw [henc]
    simp only [emitLow] at hN ⊢
    show _ < pixelCount s.cfg
    split at hN <;> simp_all
    omega
  · rw [henc]; simp only [emitLow]; split <;> omega
  · intro hor
    rw [henc] at hor ⊢
    simp only [emitLow] at hor ⊢
    by_cases h0 : 0 < s.enc.b
    · rw [if_pos h0]; exact hw (.inr hp)
    · simp [h0] at hor
  · show (emitLow s.enc).edges =
      (frameEdges (emitLow s.enc) s.mem (pixelCount s.cfg)).take (edgesBuilt (emitLow s.enc))
    rw [hf, edgesBuilt_emitLow _ hp hb, hedges]

/-! ### What changes the frame in flight -/

/-- A Host write never changes the frame in flight. -/
theorem writeEffect_inFlight (v : Word) (s t : State) (h : WriteEffect v s t) :
    t.inFlight = s.inFlight := by
  cases h with
  | command i live legal =>
    rcases whenIdle_cases (effectOf i) s with ⟨hi, e⟩ | ⟨_, e⟩ | ⟨_, e⟩ <;> rw [e]
    · cases i
      case movec => simp only [effectOf, movecEffect]; split <;> rfl
      case moved => simp only [effectOf, movedEffect]; split <;> rfl
      all_goals rfl
    · rfl
  | reserved e live il =>
    rcases whenIdle_cases setBadcmd s with ⟨_, e⟩ | ⟨_, e⟩ | ⟨_, e⟩ <;> rw [e] <;> rfl
  | _ => rfl

/-- The Core offers a frame only at the last low half of EMIT. -/
theorem coreStep_inFlight (s : State) (E : List PulseEdge) (h0 : s.inFlight = none)
    (hE : (coreStep s).inFlight = some E) :
    s.coreState = .emit ∧ s.enc.ph = .low ∧ (emitLow s.enc).p = pixelCount s.cfg ∧
      E = (emitLow s.enc).edges := by
  cases hc : s.coreState <;> simp only [coreStep, hc] at hE
  · simp [h0] at hE
  · rcases prepStep_cases s with ⟨_, e⟩ | ⟨_, _, e⟩ | ⟨_, _, e⟩ <;> rw [e] at hE <;>
      simp [h0] at hE
  · rcases emitStep_cases s with ⟨hp, e⟩ | ⟨hp, hN, e⟩ | ⟨hp, hN, e⟩ <;> rw [e] at hE <;>
      simp [h0] at hE
    exact ⟨rfl, hp, hN, hE.symm⟩
  · simp [h0] at hE
  · simp [h0] at hE

end Sys2Proof.Machine
end

