-- ==== Sys2Proof/Laws/Float.lean ====
section
/-! SUPPORT. Binary32: what the fields of a packed pattern are, the one rounding step (its result's
value, exactness, monotonicity), comparisons, `clamp`, the integer square root, `i2f`. -/

namespace Sys2Proof.Machine

/-! ### Packed patterns -/

theorem infBits_lt : infBits < 2 ^ 31 := by decide

theorem packSign_toNat (sign : Bool) (m : Nat) (h : m < 2 ^ 31) :
    (packSign sign m).toNat = m + if sign then 2 ^ 31 else 0 := by
  unfold packSign
  rw [BitVec.toNat_ofNat]
  cases sign <;> simp <;> omega

theorem signOf_packSign (sign : Bool) (m : Nat) (h : m < 2 ^ 31) :
    signOf (packSign sign m) = sign := by
  unfold signOf
  rw [BitVec.getLsbD, packSign_toNat sign m h, Nat.testBit_eq_decide_div_mod_eq]
  cases sign
  · simp; omega
  · simp; omega

theorem expOf_packSign (sign : Bool) (m : Nat) (h : m < 2 ^ 31) :
    expOf (packSign sign m) = m / 2 ^ 23 := by
  unfold expOf
  rw [packSign_toNat sign m h]
  cases sign
  · simp; omega
  · simp; omega

theorem fracOf_packSign (sign : Bool) (m : Nat) (h : m < 2 ^ 31) :
    fracOf (packSign sign m) = m % 2 ^ 23 := by
  unfold fracOf
  rw [packSign_toNat sign m h]
  cases sign
  · simp
  · simp; omega

/-- Every pattern is a sign and magnitude bits. -/
theorem packSign_fields (v : F32) : packSign (signOf v) (v.toNat % 2 ^ 31) = v := by
  apply BitVec.eq_of_toNat_eq
  rw [packSign_toNat _ _ (Nat.mod_lt _ (by decide))]
  unfold signOf
  rw [BitVec.getLsbD, Nat.testBit_eq_decide_div_mod_eq]
  have := v.isLt
  by_cases h : v.toNat / 2 ^ 31 % 2 = 1
  · rw [decide_eq_true h, if_pos rfl]; omega
  · rw [decide_eq_false h, if_neg Bool.false_ne_true]; omega

/-- A magnitude up to that of infinity is no NaN. -/
theorem isNaN_packSign (sign : Bool) (m : Nat) (h : m ≤ infBits) :
    isNaN (packSign sign m) = false := by
  have h' : m < 2 ^ 31 := lt_of_le_of_lt h infBits_lt
  unfold isNaN
  rw [expOf_packSign sign m h', fracOf_packSign sign m h']
  unfold infBits at h
  by_cases he : m / 2 ^ 23 = 255
  · have hf : m % 2 ^ 23 = 0 := by omega
    rw [hf]; simp
  · rw [beq_false_of_ne he]; simp

/-! ### Magnitude bits and their value -/

/-- The value in units of 2^-149 of magnitude bits, with no bound on the exponent. -/
def magUnits (b : Nat) : Nat :=
  if b / 2 ^ 23 = 0 then b % 2 ^ 23 else (2 ^ 23 + b % 2 ^ 23) * 2 ^ (b / 2 ^ 23 - 1)

theorem magOf_packSign (sign : Bool) (m : Nat) (h : m < 2 ^ 31) :
    magOf (packSign sign m) = magUnits m := by
  unfold magOf magUnits
  rw [expOf_packSign sign m h, fracOf_packSign sign m h]

theorem magOf_eq (v : F32) : magOf v = magUnits (v.toNat % 2 ^ 31) := by
  conv_lhs => rw [← packSign_fields v]
  exact magOf_packSign _ _ (Nat.mod_lt _ (by decide))

/-- Magnitude bits q * 2^23 + m with a significand m in its range, the carry 2^24 included, stand
for m * 2^q units. -/
theorem magUnits_quantum (q m : Nat) (h : q = 0 ∨ 2 ^ 23 ≤ m) (hm : m ≤ 2 ^ 24) :
    magUnits (q * 2 ^ 23 + m) = m * 2 ^ q := by
  unfold magUnits
  by_cases h24 : m = 2 ^ 24
  · have e1 : (q * 2 ^ 23 + m) / 2 ^ 23 = q + 2 := by omega
    have e2 : (q * 2 ^ 23 + m) % 2 ^ 23 = 0 := by omega
    rw [e1, e2, if_neg (by omega), h24, show q + 2 - 1 = q + 1 from rfl]
    ring
  · by_cases h23 : 2 ^ 23 ≤ m
    · have e1 : (q * 2 ^ 23 + m) / 2 ^ 23 = q + 1 := by omega
      have e2 : (q * 2 ^ 23 + m) % 2 ^ 23 = m - 2 ^ 23 := by omega
      rw [e1, e2, if_neg (by omega), show q + 1 - 1 = q from rfl]
      rw [Nat.add_sub_cancel' h23]
    · have hq : q = 0 := by omega
      subst hq
      have e1 : (0 * 2 ^ 23 + m) / 2 ^ 23 = 0 := by omega
      have e2 : (0 * 2 ^ 23 + m) % 2 ^ 23 = m := by omega
      rw [e1, e2]; simp

/-- Every magnitude is a quantum and a significand. -/
theorem magBits_split (b : Nat) :
    ∃ q m, b = q * 2 ^ 23 + m ∧ (q = 0 ∨ 2 ^ 23 ≤ m) ∧ m < 2 ^ 24 := by
  by_cases h : b < 2 ^ 24
  · exact ⟨0, b, by omega, .inl rfl, h⟩
  · exact ⟨b / 2 ^ 23 - 1, b - (b / 2 ^ 23 - 1) * 2 ^ 23, by omega, .inr (by omega), by omega⟩

theorem magUnits_lt_succ (b : Nat) : magUnits b < magUnits (b + 1) := by
  obtain ⟨q, m, rfl, h, hm⟩ := magBits_split b
  rw [magUnits_quantum q m h (by omega), Nat.add_assoc,
    magUnits_quantum q (m + 1) (by omega) (by omega)]
  exact Nat.mul_lt_mul_of_pos_right (by omega) (by positivity)

/-- A larger pattern is a larger value. -/
theorem magUnits_strictMono : StrictMono magUnits := strictMono_nat_of_lt_succ magUnits_lt_succ

/-! ### The rounding step -/

/-- The quantum of n/d units: its significand has at most 24 bits, and exactly 24 above the
smallest quantum. -/
theorem quantum_range (n d : Nat) :
    n / (d * 2 ^ quantumExp n d) < 2 ^ 24 ∧
      (quantumExp n d = 0 ∨ 2 ^ 23 ≤ n / (d * 2 ^ quantumExp n d)) := by
  unfold quantumExp
  rw [← Nat.div_div_eq_div_mul]
  generalize n / d = Q
  by_cases hQ : Q = 0
  · subst hQ; simp
  have hlo : 2 ^ Q.log2 ≤ Q := Nat.log2_self_le hQ
  have hhi : Q < 2 ^ (Q.log2 + 1) := Nat.lt_log2_self
  by_cases h : Q.log2 ≤ 23
  · have e : Q.log2 - 23 = 0 := by omega
    rw [e]
    refine ⟨?_, .inl rfl⟩
    simpa using lt_of_lt_of_le hhi (Nat.pow_le_pow_right (by decide) (by omega : Q.log2 + 1 ≤ 24))
  · have e1 : 2 ^ Q.log2 = 2 ^ 23 * 2 ^ (Q.log2 - 23) := by
      rw [← pow_add]; congr 1; omega
    have e2 : 2 ^ (Q.log2 + 1) = 2 ^ 24 * 2 ^ (Q.log2 - 23) := by
      rw [← pow_add]; congr 1; omega
    have pos : 0 < 2 ^ (Q.log2 - 23) := by positivity
    refine ⟨?_, .inr ?_⟩
    · rw [Nat.div_lt_iff_lt_mul pos, ← e2]; exact hhi
    · rw [Nat.le_div_iff_mul_le pos, ← e1]; exact hlo

/-- The significand after rounding: the multiple of the quantum D nearest to n, ties to even. -/
def roundSig (n D : Nat) : Nat :=
  n / D + if 2 * (n % D) > D ∨ (2 * (n % D) = D ∧ n / D % 2 = 1) then 1 else 0

/-- Rounding before the overflow to infinity. -/
def roundRaw (n d : Nat) : Nat :=
  quantumExp n d * 2 ^ 23 + roundSig n (d * 2 ^ quantumExp n d)

theorem roundMag_eq (n d : Nat) : roundMag n d = min (roundRaw n d) infBits := by
  unfold roundMag roundRaw roundSig
  simp only [Nat.add_assoc]

theorem roundMag_le (n d : Nat) : roundMag n d ≤ infBits := by
  rw [roundMag_eq]; exact Nat.min_le_right _ _

theorem roundSig_le (n D : Nat) : roundSig n D ≤ n / D + 1 := by
  unfold roundSig; split <;> omega

theorem le_roundSig (n D : Nat) : n / D ≤ roundSig n D := by
  unfold roundSig; omega

/-- The value of a rounded magnitude: its significand times its quantum. -/
theorem magUnits_roundRaw (n d : Nat) :
    magUnits (roundRaw n d) = roundSig n (d * 2 ^ quantumExp n d) * 2 ^ quantumExp n d := by
  obtain ⟨h1, h2⟩ := quantum_range n d
  have h3 := roundSig_le n (d * 2 ^ quantumExp n d)
  have h4 := le_roundSig n (d * 2 ^ quantumExp n d)
  exact magUnits_quantum _ _ (by omega) (by omega)

/-- The rounded significand is within half a quantum of the exact one. -/
theorem roundSig_near (n D : Nat) (hD : 0 < D) :
    2 * (roundSig n D * D) ≤ 2 * n + D ∧ 2 * n ≤ 2 * (roundSig n D * D) + D := by
  have h := Nat.div_add_mod n D
  have hlt := Nat.mod_lt n hD
  unfold roundSig
  split
  · rw [Nat.add_mul]
    have : n / D * D = D * (n / D) := Nat.mul_comm _ _
    omega
  · have : n / D * D = D * (n / D) := Nat.mul_comm _ _
    rw [Nat.add_zero]
    omega

/-- A multiple of the quantum rounds to itself. -/
theorem roundSig_exact (k D : Nat) (hD : 0 < D) : roundSig (k * D) D = k := by
  unfold roundSig
  rw [Nat.mul_div_cancel _ hD, Nat.mul_mod_left]
  simp; omega

/-- A representable value rounds to its own pattern. -/
theorem roundRaw_exact (b d : Nat) (hd : 0 < d) : roundRaw (magUnits b * d) d = b := by
  obtain ⟨q, m, rfl, h, hm⟩ := magBits_split b
  have hu := magUnits_quantum q m h (by omega)
  have hq : quantumExp (magUnits (q * 2 ^ 23 + m) * d) d = q := by
    unfold quantumExp
    rw [Nat.mul_div_cancel _ hd, hu]
    by_cases hm0 : m = 0
    · have : q = 0 := by omega
      subst this; subst hm0; simp
    have pos : m * 2 ^ q ≠ 0 := Nat.mul_ne_zero hm0 (by positivity)
    have hi : (m * 2 ^ q).log2 < 24 + q := by
      rw [Nat.log2_lt pos, pow_add]
      exact Nat.mul_lt_mul_of_pos_right hm (by positivity)
    rcases h with rfl | h
    · omega
    · have lo : 23 + q ≤ (m * 2 ^ q).log2 := by
        rw [Nat.le_log2 pos, pow_add]
        exact Nat.mul_le_mul_right _ h
      omega
  unfold roundRaw
  rw [hq, hu, show m * 2 ^ q * d = m * (d * 2 ^ q) by ring,
    roundSig_exact m _ (by positivity)]

theorem roundMag_exact (b d : Nat) (hd : 0 < d) (hb : b ≤ infBits) :
    roundMag (magUnits b * d) d = b := by
  rw [roundMag_eq, roundRaw_exact b d hd]; exact Nat.min_eq_left hb

/-- The rounded significand grows with the exact one. -/
theorem roundSig_mono (n1 D1 n2 D2 : Nat) (h1 : 0 < D1) (h2 : 0 < D2)
    (h : n1 * D2 ≤ n2 * D1) : roundSig n1 D1 ≤ roundSig n2 D2 := by
  by_contra hlt
  have hlt : roundSig n2 D2 + 1 ≤ roundSig n1 D1 := by omega
  obtain ⟨a1, -⟩ := roundSig_near n1 D1 h1
  obtain ⟨-, b2⟩ := roundSig_near n2 D2 h2
  -- both values lie on the boundary between the same two significands
  have lo1 : (2 * roundSig n2 D2 + 1) * D1 ≤ 2 * n1 := by nlinarith
  have hi2 : 2 * n2 ≤ (2 * roundSig n2 D2 + 1) * D2 := by nlinarith
  have e1 : 2 * n1 = (2 * roundSig n2 D2 + 1) * D1 := by nlinarith
  have e2 : 2 * n2 = (2 * roundSig n2 D2 + 1) * D2 := by nlinarith
  have tie : ∀ n D, 0 < D → 2 * n = (2 * roundSig n2 D2 + 1) * D →
      n / D = roundSig n2 D2 ∧ 2 * (n % D) = D := by
    intro n D hD e
    have e' : 2 * n = 2 * (roundSig n2 D2 * D) + D := by rw [e]; ring
    have hdiv : n / D = roundSig n2 D2 := by
      rw [Nat.div_eq_iff hD]
      generalize roundSig n2 D2 * D = P at e' ⊢
      omega
    have hm := Nat.div_add_mod n D
    rw [hdiv, Nat.mul_comm] at hm
    exact ⟨hdiv, by omega⟩
  obtain ⟨q1, t1⟩ := tie n1 D1 h1 e1
  obtain ⟨q2, t2⟩ := tie n2 D2 h2 e2
  have same : roundSig n1 D1 = roundSig n2 D2 := by
    have r1 : roundSig n1 D1 = n1 / D1 + if n1 / D1 % 2 = 1 then 1 else 0 := by
      unfold roundSig; simp [t1]
    have r2 : roundSig n2 D2 = n2 / D2 + if n2 / D2 % 2 = 1 then 1 else 0 := by
      unfold roundSig; simp [t2]
    rw [r1, q1]
    conv_rhs => rw [r2, q2]
  omega

theorem quantumExp_mono (n1 d1 n2 d2 : Nat) (h : n1 / d1 ≤ n2 / d2) :
    quantumExp n1 d1 ≤ quantumExp n2 d2 := by
  unfold quantumExp
  by_cases h0 : n1 / d1 = 0
  · simp [h0]
  · have : (n1 / d1).log2 ≤ (n2 / d2).log2 := by
      have pos : 0 < n2 / d2 := lt_of_lt_of_le (Nat.pos_of_ne_zero h0) h
      rw [Nat.le_log2 (Nat.ne_of_gt pos)]
      exact le_trans (Nat.log2_self_le h0) h
    omega

theorem div_le_div_of_cross (n1 d1 n2 d2 : Nat) (h1 : 0 < d1) (h2 : 0 < d2)
    (h : n1 * d2 ≤ n2 * d1) : n1 / d1 ≤ n2 / d2 := by
  rw [Nat.le_div_iff_mul_le h2]
  have := Nat.div_mul_le_self n1 d1
  by_contra hc
  have : n2 * d1 < n1 / d1 * d2 * d1 := Nat.mul_lt_mul_of_pos_right (by omega) h1
  nlinarith

/-- Rounding is monotone in the exact value n/d. -/
theorem roundRaw_mono (n1 d1 n2 d2 : Nat) (h1 : 0 < d1) (h2 : 0 < d2)
    (h : n1 * d2 ≤ n2 * d1) : roundRaw n1 d1 ≤ roundRaw n2 d2 := by
  have hq := quantumExp_mono n1 d1 n2 d2 (div_le_div_of_cross n1 d1 n2 d2 h1 h2 h)
  rcases Nat.eq_or_lt_of_le hq with hq | hq
  · unfold roundRaw
    rw [← hq]
    have p : 0 < 2 ^ quantumExp n1 d1 := by positivity
    have := roundSig_mono n1 (d1 * 2 ^ quantumExp n1 d1) n2 (d2 * 2 ^ quantumExp n1 d1)
      (Nat.mul_pos h1 p) (Nat.mul_pos h2 p)
      (by rw [← Nat.mul_assoc, ← Nat.mul_assoc]; exact Nat.mul_le_mul_right _ h)
    omega
  · rw [← magUnits_strictMono.le_iff_le, magUnits_roundRaw, magUnits_roundRaw]
    obtain ⟨a1, -⟩ := quantum_range n1 d1
    obtain ⟨-, a2⟩ := quantum_range n2 d2
    have s1 := roundSig_le n1 (d1 * 2 ^ quantumExp n1 d1)
    have s2 := le_roundSig n2 (d2 * 2 ^ quantumExp n2 d2)
    calc roundSig n1 (d1 * 2 ^ quantumExp n1 d1) * 2 ^ quantumExp n1 d1
        ≤ 2 ^ 24 * 2 ^ quantumExp n1 d1 := Nat.mul_le_mul_right _ (by omega)
      _ = 2 ^ 23 * 2 ^ (quantumExp n1 d1 + 1) := by rw [pow_succ 2 (quantumExp n1 d1)]; ring
      _ ≤ 2 ^ 23 * 2 ^ quantumExp n2 d2 :=
          Nat.mul_le_mul_left _ (Nat.pow_le_pow_right (by decide) hq)
      _ ≤ _ := Nat.mul_le_mul_right _ (by omega)

theorem roundMag_mono (n1 d1 n2 d2 : Nat) (h1 : 0 < d1) (h2 : 0 < d2)
    (h : n1 * d2 ≤ n2 * d1) : roundMag n1 d1 ≤ roundMag n2 d2 := by
  have := roundRaw_mono n1 d1 n2 d2 h1 h2 h
  rw [roundMag_eq, roundMag_eq]
  omega

/-! ### Rounded results -/

theorem isNaN_roundF (sign : Bool) (n d : Nat) : isNaN (roundF sign n d) = false :=
  isNaN_packSign sign _ (roundMag_le n d)

theorem signOf_roundF (sign : Bool) (n d : Nat) : signOf (roundF sign n d) = sign :=
  signOf_packSign sign _ (lt_of_le_of_lt (roundMag_le n d) infBits_lt)

theorem magOf_roundF (sign : Bool) (n d : Nat) :
    magOf (roundF sign n d) = magUnits (roundMag n d) :=
  magOf_packSign sign _ (lt_of_le_of_lt (roundMag_le n d) infBits_lt)

/-! ### Comparisons and `clamp` -/

theorem fle_iff (a b : F32) :
    fle a b = true ↔ isNaN a = false ∧ isNaN b = false ∧ unitsOf a ≤ unitsOf b := by
  unfold fle
  simp [and_assoc]

theorem flt_iff (a b : F32) :
    flt a b = true ↔ isNaN a = false ∧ isNaN b = false ∧ unitsOf a < unitsOf b := by
  unfold flt
  simp [and_assoc]

theorem fle_refl (a : F32) (h : isNaN a = false) : fle a a = true := by
  rw [fle_iff]; exact ⟨h, h, le_refl _⟩

theorem fle_trans (a b c : F32) (h1 : fle a b = true) (h2 : fle b c = true) : fle a c = true := by
  rw [fle_iff] at *
  exact ⟨h1.1, h2.2.1, le_trans h1.2.2 h2.2.2⟩

/-- Ordered comparison is total away from NaN. -/
theorem fle_of_not_flt (a b : F32) (ha : isNaN a = false) (hb : isNaN b = false)
    (h : flt a b = false) : fle b a = true := by
  rw [fle_iff]
  refine ⟨hb, ha, ?_⟩
  by_contra hc
  have : flt a b = true := (flt_iff a b).2 ⟨ha, hb, by omega⟩
  simp [h] at this

/-- `clamp` never gives NaN and lies between its bounds, whatever its operand (00_scope R14). -/
theorem clamp_range (v lo hi : F32) (h : fle lo hi = true) :
    isNaN (clamp v lo hi) = false ∧ fle lo (clamp v lo hi) = true ∧
      fle (clamp v lo hi) hi = true := by
  obtain ⟨hlo, hhi, -⟩ := (fle_iff lo hi).1 h
  unfold clamp
  by_cases h1 : fgt v hi = true
  · simp only [h1, if_true]; exact ⟨hhi, h, fle_refl hi hhi⟩
  · simp only [h1]
    by_cases h2 : fge v lo = true
    · have hv := ((fle_iff lo v).1 h2).2.1
      simp only [h2, if_true]
      refine ⟨hv, h2, ?_⟩
      exact fle_of_not_flt hi v hhi hv (by simpa [fgt] using h1)
    · simp only [h2]
      exact ⟨hlo, fle_refl lo hlo, h⟩

/-- A value already within its bounds is not changed. -/
theorem clamp_of_mem (v lo hi : F32) (h1 : fle lo v = true) (h2 : fle v hi = true) :
    clamp v lo hi = v := by
  have : flt hi v = false := by
    rw [fle_iff] at h2
    by_contra hc
    have := (flt_iff hi v).1 (by simpa using hc)
    omega
  unfold clamp fgt fge
  simp [this, h1]

/-- A NaN gives the lower bound (00_scope R14). -/
theorem clamp_nan (v lo hi : F32) (h : isNaN v = true) : clamp v lo hi = lo := by
  unfold clamp fgt fge flt fle
  simp [h]

/-! ### The integer square root -/

theorem isqrtFrom_spec (k m r : Nat) (lo : r * r ≤ m) (hi : m < (r + 2 ^ k) * (r + 2 ^ k)) :
    isqrtFrom k m r * isqrtFrom k m r ≤ m ∧
      m < (isqrtFrom k m r + 1) * (isqrtFrom k m r + 1) := by
  induction k generalizing r with
  | zero => exact ⟨lo, by simpa [isqrtFrom] using hi⟩
  | succ k ih =>
    unfold isqrtFrom
    split
    next h => exact ih (r + 2 ^ k) h (by rw [show r + 2 ^ k + 2 ^ k = r + 2 ^ (k + 1) by ring]; exact hi)
    next h => exact ih r lo (by omega)

/-- `isqrt` is the integer square root of every number it is applied to. -/
theorem isqrt_spec (m : Nat) (h : m < 2 ^ 214 * 2 ^ 214) :
    isqrt m * isqrt m ≤ m ∧ m < (isqrt m + 1) * (isqrt m + 1) :=
  isqrtFrom_spec 214 m 0 (Nat.zero_le _) (by rw [Nat.zero_add]; exact h)

/-! ### Integers as binary32 -/

theorem i2f_table :
    ∀ k < 257, isNaN (i2f k) = false ∧ signOf (i2f k) = false ∧ magOf (i2f k) = k * 2 ^ 149 := by
  decide +kernel

/-- `i2f` is exact on its range (00_scope R13). -/
theorem unitsOf_i2f (k : Nat) (h : k ≤ 256) : unitsOf (i2f k) = (k * 2 ^ 149 : Nat) := by
  obtain ⟨-, hs, hm⟩ := i2f_table k (by omega)
  simp [unitsOf, hs, hm]

theorem isNaN_i2f (k : Nat) : isNaN (i2f k) = false := isNaN_roundF _ _ _

theorem ffloor_i2f (k : Nat) (h : k ≤ 256) : ffloor (i2f k) = k := by
  unfold ffloor
  rw [(i2f_table k (by omega)).2.2]
  exact Nat.mul_div_cancel _ (by positivity)

theorem unitsOf_plusZero : unitsOf plusZero = 0 := by decide

/-- +0 is at most every integer. -/
theorem plusZero_fle_i2f (k : Nat) (h : k ≤ 256) : fle plusZero (i2f k) = true := by
  rw [fle_iff, unitsOf_plusZero, unitsOf_i2f k h]
  exact ⟨by decide, isNaN_i2f k, by positivity⟩

/-- The floor of a coordinate within [0, max] is at most max. -/
theorem ffloor_le (v : F32) (k : Nat) (hk : k ≤ 256) (h0 : fle plusZero v = true)
    (h : fle v (i2f k) = true) : ffloor v ≤ k := by
  rw [fle_iff] at h0 h
  rw [unitsOf_i2f k hk] at h
  rw [unitsOf_plusZero] at h0
  unfold ffloor
  have hm : magOf v ≤ k * 2 ^ 149 := by
    have h2 := h.2.2
    have h1 := h0.2.2
    unfold unitsOf at h1 h2
    split at h2
    · simp_all
    · simp_all; omega
  calc magOf v / 2 ^ 149 ≤ k * 2 ^ 149 / 2 ^ 149 := Nat.div_le_div_right hm
    _ = k := Nat.mul_div_cancel _ (by positivity)

/-! ### Negation -/

theorem signOf_fneg (v : F32) : signOf (fneg v) = !signOf v := by
  simp [signOf, fneg]

/-- Inverting bit 31 leaves the magnitude bits. -/
theorem fneg_magnitude (v : F32) : (fneg v).toNat % 2 ^ 31 = v.toNat % 2 ^ 31 := by
  rw [fneg, BitVec.toNat_xor, Nat.xor_mod_two_pow]
  simp

theorem expOf_fneg (v : F32) : expOf (fneg v) = expOf v := by
  have := fneg_magnitude v
  unfold expOf; omega

theorem fracOf_fneg (v : F32) : fracOf (fneg v) = fracOf v := by
  have := fneg_magnitude v
  unfold fracOf; omega

theorem isNaN_fneg (v : F32) : isNaN (fneg v) = isNaN v := by
  simp [isNaN, expOf_fneg, fracOf_fneg]

theorem isInf_fneg (v : F32) : isInf (fneg v) = isInf v := by
  simp [isInf, expOf_fneg, fracOf_fneg]

theorem unitsOf_fneg (v : F32) : unitsOf (fneg v) = -unitsOf v := by
  have h : magOf (fneg v) = magOf v := by simp [magOf, expOf_fneg, fracOf_fneg]
  unfold unitsOf
  rw [signOf_fneg, h]
  cases signOf v <;> simp

end Sys2Proof.Machine
end

