-- ==== Sys2Proof/Laws/Motion.lean ====
section
/-! SUPPORT. The motion engine: what a legal part's dimensions are, the packing of a Position, the
range of one coordinate of MOVEC and of MOVED, everything MOVEC and MOVED can do. -/

namespace Sys2Proof.Machine

/-- The ranges of 00_scope R7 in a legal part, the timing constants apart. -/
theorem legal_dimensions (c : Config) (h : c.legal = true) :
    1 ≤ c.width ∧ c.width ≤ 256 ∧ 1 ≤ c.height ∧ c.height ≤ 256 ∧
      1 ≤ c.durBits ∧ c.durBits ≤ 31 := by
  simp [Config.legal, Config.dimensionLegal, Config.durBitsLegal] at h
  omega

/-- The largest coordinates of a legal part fit in eight bits. -/
theorem legal_maxima (c : Config) (h : c.legal = true) : xMax c ≤ 255 ∧ yMax c ≤ 255 := by
  have := legal_dimensions c h
  unfold xMax yMax
  omega

theorem coordX_packXY (x y : Nat) (h : x ≤ 255) : coordX (packXY x y) = x := by
  unfold coordX packXY
  rw [BitVec.extractLsb'_append_eq_of_add_le (by omega)]
  simp; omega

theorem coordY_packXY (x y : Nat) (h : y ≤ 255) : coordY (packXY x y) = y := by
  unfold coordY packXY
  rw [BitVec.extractLsb'_append_eq_of_le (by omega)]
  simp; omega

/-- A whole number within the grid is a coordinate of the ContinuousState. -/
theorem coordinateOk_i2f (k max : Nat) (h : k ≤ max) (hm : max ≤ 255) :
    coordinateOk (i2f k) max := by
  refine ⟨isNaN_i2f k, plusZero_fle_i2f k (by omega), ?_⟩
  rw [fle_iff, unitsOf_i2f k (by omega), unitsOf_i2f max (by omega)]
  refine ⟨isNaN_i2f k, isNaN_i2f max, ?_⟩
  exact_mod_cast Nat.mul_le_mul_right _ h

/-- One coordinate of MOVEC lies within the grid whatever its operands (42_motion R182). -/
theorem coordinateOk_integrate (old v dt mult : F32) (max : Nat) (hm : max ≤ 255) :
    coordinateOk (integrate old v dt mult max) max ∧ ffloor (integrate old v dt mult max) ≤ max := by
  have h := clamp_range (fadd old (fmul (fmul v dt) mult)) plusZero (i2f max)
    (plusZero_fle_i2f max (by omega))
  exact ⟨h, ffloor_le _ _ (by omega) h.2.1 h.2.2⟩

/-- One coordinate of MOVED lies within the grid (42_motion R187). -/
theorem stepCell_le (old : Nat) (delta : Int) (max : Nat) : stepCell old delta max ≤ max := by
  unfold stepCell sat; omega

/-- Everything MOVEC can do when it is accepted (42_motion R182, R183). -/
theorem movecEffect_cases (s : State) :
    (stateDirection s = .stay ∧ movecEffect s = setDir (dirCode .stay) s) ∨
    (stateDirection s ≠ .stay ∧ ∃ fx fy,
      fx = integrate s.fx (velocity s.cfg (stateDirection s)).1 s.dt s.mult (xMax s.cfg) ∧
      fy = integrate s.fy (velocity s.cfg (stateDirection s)).2 s.dt s.mult (yMax s.cfg) ∧
      movecEffect s =
        setMotion fx fy (ffloor fx) (ffloor fy) (setDir (dirCode (stateDirection s)) s)) := by
  unfold movecEffect
  by_cases h : stateDirection s = .stay
  · exact .inl ⟨h, by simp [h]⟩
  · exact .inr ⟨h, _, _, rfl, rfl, by simp [h]⟩

/-- Everything MOVED can do when it is accepted (42_motion R186, R188). -/
theorem movedEffect_cases (s : State) :
    (stateDirection s = .stay ∧ movedEffect s = setDir (dirCode .stay) s) ∨
    (stateDirection s ≠ .stay ∧ ∃ x y,
      x = stepCell (coordX s.pos) (displacement (stateDirection s)).1 (xMax s.cfg) ∧
      y = stepCell (coordY s.pos) (displacement (stateDirection s)).2 (yMax s.cfg) ∧
      movedEffect s =
        setMotion (i2f x) (i2f y) x y (setDir (dirCode (stateDirection s)) s)) := by
  unfold movedEffect
  by_cases h : stateDirection s = .stay
  · exact .inl ⟨h, by simp [h]⟩
  · exact .inr ⟨h, _, _, rfl, rfl, by simp [h]⟩

end Sys2Proof.Machine
end

