-- ==== Sys2Proof/Laws/PerInstr.lean ====
section
/-! SUPPORT. A statement about every command, proved per constructor: its word is its opcode under a
zero reserved field (spec 30_encoding R90, R91) and the word decodes to it. -/

namespace Sys2Proof.Laws

/-- The word of a command has `RSV` = 0 and the command's opcode, and decodes to the command. -/
def CommandWord.Statement (i : Instr) : Prop :=
  rsvField (encode i) = 0#28 ∧ opField (encode i) = opcode i ∧ decode (encode i) = .ok i

theorem CommandWord.nop : CommandWord.Statement .nop := by unfold CommandWord.Statement; decide
theorem CommandWord.clear : CommandWord.Statement .clear := by unfold CommandWord.Statement; decide
theorem CommandWord.setpix : CommandWord.Statement .setpix := by unfold CommandWord.Statement; decide
theorem CommandWord.render : CommandWord.Statement .render := by unfold CommandWord.Statement; decide
theorem CommandWord.quant : CommandWord.Statement .quant := by unfold CommandWord.Statement; decide
theorem CommandWord.ramp : CommandWord.Statement .ramp := by unfold CommandWord.Statement; decide
theorem CommandWord.movec : CommandWord.Statement .movec := by unfold CommandWord.Statement; decide
theorem CommandWord.moved : CommandWord.Statement .moved := by unfold CommandWord.Statement; decide
theorem CommandWord.encode : CommandWord.Statement .encode := by unfold CommandWord.Statement; decide

end Sys2Proof.Laws
end

