-- ==== Sys2Proof/Tests/Slice0.lean ====
section
/-! SUPPORT. The model's own tests, expected results from spec/95_test_vectors.md (named in each
docstring) or from the rule the docstring names; and for every statement with hypotheses a state and
operands that meet them, at the boundary of each clause. -/

namespace Sys2Proof.Tests

-- One theorem at a time: the kernel evaluations below would else take a thread each.
set_option Elab.async false

open Sys2Proof Sys2Proof.Machine

/-! ### Helpers -/

/-- The outcome is a next state with a property. -/
def after (o : Host.Outcome State Fault Refusal) (f : State → Bool) : Bool :=
  match o with
  | .next t => f t
  | .fault _ => false
  | .refused _ => false

/-- The outcome is a given refusal. -/
def refusedWith (o : Host.Outcome State Fault Refusal) (r : Refusal) : Bool :=
  match o with
  | .next _ => false
  | .fault _ => false
  | .refused q => decide (q = r)

/-- 45.0. -/
def f45 : F32 := 0x42340000#32

/-- -45.0. -/
def fm45 : F32 := 0xC2340000#32

/-- 30.0. -/
def f30 : F32 := 0x41F00000#32

/-- A NaN. -/
def fNaN : F32 := 0x7FC00000#32

/-- Positive infinity. -/
def fInf : F32 := 0x7F800000#32

/-- 2.0. -/
def f2 : F32 := 0x40000000#32

/-- The configuration of 95_test_vectors section 0, with the values of `ATAN2_F32` that the tests
need: those of Q20, Q21, Q22 and Q24. -/
def testConfig : Config :=
  { Config.board with
    atan2Points :=
      [((0#32, f45), 0#32), ((f30, f30), 0x3F490FDB#32), ((f45, 0#32), 0x3FC90FDB#32),
       ((0#32, fm45), 0x40490FDB#32)] }

/-- Reset of the test configuration. -/
def s0 : State := State.resetOf testConfig

/-- The one-pixel part of vector E3. -/
def onePixel : State := State.resetOf { testConfig with width := 1, height := 1 }

/-- A state with a `PITCH` and a `ROLL`. -/
def tilted (p r : F32) : State := { s0 with pitch := p, roll := r }

/-- The next event of a state. -/
def withNext (i : Input) (s : State) : State := { s with inputs := [i] }

/-- A Host write of a word to an offset. -/
def hostWrite (off : Offset) (v : Word) : Input := .host (.write off .bits32 v)

/-- The counts of vector T1. -/
def countsT1 : Encoder :=
  { Encoder.atReset with rate := 80000000#32, t0h := 28, t0l := 64, t1h := 56, t1l := 48 }

/-- The one-pixel part in EMIT, one edge before the end of an all-black frame. -/
def lastEdge : State :=
  { onePixel with
    coreState := .emit
    enc := { countsT1 with
      p := 0, b := 0, ph := .low
      edges := (frameEdges countsT1 [] 1).take 47 } }

/-- The one-pixel part in WAIT with its all-black frame in flight. -/
def waiting : State :=
  { onePixel with
    coreState := .wait
    enc := { countsT1 with p := 1, b := 23, edges := frameEdges countsT1 [] 1 }
    inFlight := some (frameEdges countsT1 [] 1) }

/-- The block halted by NO_TICK_RATE with both sticky flags set (A9: `STATUS` = 0x1E). -/
def halted : State := { s0 with coreState := .halt, errcode := 1#4, badcmd := true, drop := true }

/-! ### WellFormed: an ill-formed term for each check -/

theorem test_width_0_is_illegal : Config.legal { testConfig with width := 0 } = false := by decide
theorem test_width_257_is_illegal : Config.legal { testConfig with width := 257 } = false := by
  decide
theorem test_height_0_is_illegal : Config.legal { testConfig with height := 0 } = false := by decide
theorem test_height_257_is_illegal : Config.legal { testConfig with height := 257 } = false := by
  decide
theorem test_t0h_0_is_illegal : Config.legal { testConfig with t0hNs := 0 } = false := by decide
theorem test_t0l_0_is_illegal : Config.legal { testConfig with t0lNs := 0 } = false := by decide
theorem test_t1h_0_is_illegal : Config.legal { testConfig with t1hNs := 0 } = false := by decide
theorem test_t1l_1000001_is_illegal : Config.legal { testConfig with t1lNs := 1000001 } = false := by
  decide
theorem test_durBits_0_is_illegal : Config.legal { testConfig with durBits := 0 } = false := by
  decide
theorem test_durBits_32_is_illegal : Config.legal { testConfig with durBits := 32 } = false := by
  decide
theorem test_byte_access_is_ill_formed : (Access.read 0x000#19 .bits8).wellFormed = false := by
  decide
theorem test_half_access_is_ill_formed : (Access.write 0x010#19 .bits16 0#32).wellFormed = false := by
  decide
theorem test_double_access_is_ill_formed : (Access.read 0x010#19 .bits64).wellFormed = false := by
  decide
theorem test_misaligned_access_is_ill_formed : (Access.read 0x012#19 .bits32).wellFormed = false := by
  decide
theorem test_board_is_legal : Config.board.legal = true := by decide

/-- A17 and 93_implementation_defined section 3: what is ill formed is refused. -/
theorem test_ill_formed_is_refused :
    refusedWith (step (withNext (.host (.read 0x000#19 .bits16)) s0)) .accessWidth = true ∧
    refusedWith (step (withNext (.host (.read 0x002#19 .bits32)) s0)) .misaligned = true ∧
    refusedWith (step (State.resetOf { testConfig with width := 300 })) .illegalConfiguration
      = true := by
  decide

/-! ### Decoding: the words of 30_encoding R90 and R91, bit by bit -/

theorem test_decode_nop : decode 0b00000000000000000000000000000000#32 = .ok .nop := by decide
theorem test_decode_clear : decode 0b00000000000000000000000000000001#32 = .ok .clear := by decide
theorem test_decode_setpix : decode 0b00000000000000000000000000000010#32 = .ok .setpix := by decide
theorem test_decode_render : decode 0b00000000000000000000000000000011#32 = .ok .render := by decide
theorem test_decode_quant : decode 0b00000000000000000000000000000100#32 = .ok .quant := by decide
theorem test_decode_ramp : decode 0b00000000000000000000000000000101#32 = .ok .ramp := by decide
theorem test_decode_movec : decode 0b00000000000000000000000000000110#32 = .ok .movec := by decide
theorem test_decode_moved : decode 0b00000000000000000000000000000111#32 = .ok .moved := by decide
theorem test_decode_encode : decode 0b00000000000000000000000000001000#32 = .ok .encode := by decide
theorem test_decode_reserved_op : decode 0b00000000000000000000000000001111#32 =
    .error .reservedOpcode := by decide
theorem test_decode_reserved_field : decode 0b10000000000000000000000000001000#32 =
    .error .reservedField := by decide

/-- The table's words reach the decoder and the step (A1 on the same path). -/
theorem test_table_word : decodeTableWord 32 0x8 = some .encode ∧ decodeTableWord 32 0x9 = none ∧
    after (step (s0.withFetchWord 32 0x8)) (fun t => decide (t.coreState = .prep)) = true ∧
    after (step (s0.withFetchWord 32 0x9)) (fun t => t.badcmd) = true := by
  decide

/-! ### Frame buffer (95_test_vectors 2.1) -/

/-- F11. -/
theorem test_nop_changes_nothing : after (exec .nop s0) (fun t => decide (t = s0)) = true := by
  decide +kernel

/-- F1: (3, 1) is pixel 8. -/
theorem test_setpix_F1 :
    after (exec .setpix { s0 with xy := 0x0103#16, color := 0x000064#24 })
      (fun t => decide (pixel t 8 = 0x000064#24) && decide (pixel t 7 = 0#24)) = true := by
  decide +kernel

/-- F3, F4, F5: x = WIDTH, y = HEIGHT, and 0xFFFF change nothing. -/
theorem test_setpix_out_of_bounds :
    [0x0005#16, 0x0500#16, 0xFFFF#16].all (fun xy =>
      after (exec .setpix { s0 with xy := xy, color := 0xFFFFFF#24 })
        (fun t => decide (t.mem = []))) = true := by
  decide +kernel

/-- F6 with R101: the pixels become black, a byte outside them is no pixel. -/
theorem test_clear_F6 :
    after (exec .clear { s0 with mem := writePixel (writePixel [] 8 0x64#24) 24 0xFFFFFF#24 })
      (fun t => decide (t.mem = [])) = true := by
  decide +kernel

/-- F7: the marker at the reset position is pixel 12; pixel 8 is black again. -/
theorem test_render_F7 :
    after (exec .render { s0 with mem := writePixel [] 8 0x64#24, color := 0x123456#24 })
      (fun t => decide (pixel t 12 = 0x123456#24) && decide (pixel t 8 = 0#24)) = true := by
  decide +kernel

/-- F9: the window reads red in bits 23:16. -/
theorem test_window_F9 :
    memRead 0x4001C#19 { s0 with mem := writePixel [] 7 0xFF0000#24 } = 0x00FF0000#32 := by
  decide +kernel

/-! ### Encoder (95_test_vectors 2.2) -/

/-- T1, T6 and T9. -/
theorem test_ticks : [350, 800, 700, 600].map (fun ns => ticks ns 80000000) = [28, 64, 56, 48] ∧
    ticks 350 2857142 = 0 ∧ ticks 800 4294967295 = 3435 := by decide

/-- G2 and G5. -/
theorem test_grb : grb 0xFF0000#24 = 0x00FF00#24 ∧ grb 0x123456#24 = 0x341256#24 := by decide

/-- The edge words of 2.2. -/
theorem test_edge_words : edgeWord testConfig ⟨true, 28⟩ = 0x801C#32 ∧
    edgeWord testConfig ⟨false, 64⟩ = 0x0040#32 := by decide

/-- E3: the frame of one pixel 0x000064, its edges 34 to 38 and its length. -/
theorem test_frame_E3 :
    ((frameEdges countsT1 (writePixel [] 0 0x000064#24) 1).drop 34).take 5 =
      [⟨true, 56⟩, ⟨false, 48⟩, ⟨true, 56⟩, ⟨false, 48⟩, ⟨true, 28⟩] ∧
    totalTicks (frameEdges countsT1 (writePixel [] 0 0x000064#24) 1) = 2244 := by
  decide +kernel

/-- T8 and T6: the two fatal errors of PREP as `STATUS` shows them. -/
theorem test_prep_errors :
    statusWord (coreStep { s0 with coreState := .prep, tickRate := 0#32 }) = 0x12#32 ∧
    statusWord (coreStep { s0 with coreState := .prep, tickRate := 2857142#32 }) = 0x22#32 := by
  decide +kernel

/-- ENCODE makes `BUSY` 1; a second one while busy sets `DROP` (A6). -/
theorem test_encode :
    after (exec .encode s0) (fun t => decide (statusWord t = 0x1#32)) = true ∧
    after (exec .encode waiting) (fun t => decide (statusWord t = 0x9#32)) = true := by
  decide +kernel

/-- The last EMIT step hands 48 edges over (R143). -/
theorem test_last_edge :
    after (step lastEdge) (fun t => decide (t.coreState = .wait) &&
      decide (t.inFlight.map List.length = some 48)) = true := by
  decide +kernel

/-! ### Motion (95_test_vectors 2.3 to 2.6) -/

/-- Q1 to Q4, Q9 to Q11 and Q13. -/
theorem test_bucket :
    [0x41B40000#32, 0x41B3FFFF#32, 0xC1B40000#32, 0xC1B40001#32, 0x431D8000#32, 0xC31D8000#32,
      0xC3340000#32, fNaN].map bucket = [.ne, .e, .e, .se, .w, .sw, .w, .w] := by
  decide +kernel

/-- Q21. -/
theorem test_quant_Q21 :
    after (exec .quant (tilted f30 f30)) (fun t => decide (t.dir = 1#4)) = true := by
  decide +kernel

/-- Q29: the binary32 just below the threshold is Stay. -/
theorem test_quant_Q29 :
    after (exec .quant { tilted 0#32 0x411FFFFF#32 with dir := 0#4 })
      (fun t => decide (t.dir = 8#4)) = true := by
  decide +kernel

/-- S8 and S13. -/
theorem test_ramp :
    after (exec .ramp (tilted 0#32 f45)) (fun t => decide (t.mult = 0x41710000#32)) = true ∧
    after (exec .ramp (tilted 0#32 0x42B1A28E#32)) (fun t => decide (t.mult = 0x417FFFFF#32))
      = true := by
  decide +kernel

/-- M1: `DT` = 0.0625, `MULT` = 15.0625. -/
theorem test_movec_M1 :
    after (exec .movec { tilted 0#32 f45 with dt := 0x3D800000#32, mult := 0x41710000#32 })
      (fun t => decide (t.fx = 0x403C4000#32) && decide (t.fy = f2) && decide (t.pos = 0x0202#16) &&
        decide (t.dir = 0#4)) = true := by
  decide +kernel

/-- M8: an infinite `DT` sends the moving axis to its maximum and the other one to +0. -/
theorem test_movec_M8 :
    after (exec .movec { tilted 0#32 f45 with dt := fInf, mult := 0x41710000#32 })
      (fun t => decide (t.fx = 0x40800000#32) && decide (t.fy = 0#32) && decide (t.pos = 0x0004#16))
      = true := by
  decide +kernel

/-- D2. -/
theorem test_moved_D2 :
    after (exec .moved (tilted f30 f30))
      (fun t => decide (t.pos = 0x0303#16) && decide (t.fx = 0x40400000#32) &&
        decide (t.fy = 0x40400000#32)) = true := by
  decide +kernel

/-- D11: at x = XMAX the free axis still moves. -/
theorem test_moved_D11 :
    after (exec .moved { tilted f30 f30 with pos := 0x0204#16 })
      (fun t => decide (t.pos = 0x0304#16)) = true := by
  decide +kernel

/-! ### The bus (95_test_vectors 2.7) -/

/-- A7, A8 and A9. -/
theorem test_status_writes :
    after (step (withNext (hostWrite 0x000#19 0x4#32) { s0 with badcmd := true, drop := true }))
      (fun t => decide (statusWord t = 0x8#32)) = true ∧
    after (step (withNext (hostWrite 0x000#19 0x3#32) { s0 with badcmd := true, drop := true }))
      (fun t => decide (statusWord t = 0xC#32)) = true ∧
    after (step (withNext (hostWrite 0x000#19 0xC#32) halted))
      (fun t => decide (statusWord t = 0x1E#32)) = true := by
  decide +kernel

/-- A12 and A13: the unused bits of `COLOR` and `XY`. -/
theorem test_color_and_xy :
    after (step (withNext (hostWrite 0x020#19 0xDEADBEEF#32) s0))
      (fun t => decide (memRead 0x020#19 t = 0x00ADBEEF#32)) = true ∧
    after (step (withNext (hostWrite 0x024#19 0xFFFFFFFF#32) s0))
      (fun t => decide (memRead 0x024#19 t = 0x0000FFFF#32)) = true := by
  decide +kernel

/-- A10, A11, A15 and A16. -/
theorem test_reads_at_reset :
    [0x034#19, 0x100#19, 0x7FFFC#19, 0x004#19, 0x008#19, 0x028#19, 0x02C#19, 0x01C#19, 0x00C#19].map
      (fun off => memRead off s0) =
    [0#32, 0#32, 0#32, 0#32, 0x00050005#32, 0x0202#32, f2, 0x3F800000#32, 8#32] := by
  decide +kernel

/-! ### Witnesses: the hypotheses of every statement are met -/

theorem witness_DecodeAndEncodeAgree : Instr.wellFormed .encode = true := by decide

theorem witness_ExactlyNineWordsAreLegal :
    s0.coreState = .idle ∧ 8 < (0x9#32).toNat ∧ 8 < (0xFFFFFFFF#32).toNat := by decide

/-- A legal part with no event, with each kind of event, and in each state where the Core does not
move; the first and the last aligned offset. -/
theorem witness_StepRunsTheDecodedCommand :
    (s0.cfg.legal = true ∧ decode 0x8#32 = .ok .encode ∧ Instr.wellFormed .encode = true ∧
      (withNext (commandAccess 0x8#32) s0).inputs = commandAccess 0x8#32 :: [] ∧
      s0.inputs = []) ∧
    (s0.coreState = .idle ∧ waiting.coreState = .wait ∧ halted.coreState = .halt) ∧
    ((0x00000#19).toNat % 4 = 0 ∧ (0x7FFFC#19).toNat % 4 = 0) ∧
    (withNext (.host (.read 0x7FFFC#19 .bits32)) s0).inputs =
      .host (.read 0x7FFFC#19 .bits32) :: [] ∧
    (withNext (hostWrite 0x00000#19 0#32) s0).inputs =
      .host (.write 0x00000#19 .bits32 0#32) :: [] ∧
    (withNext .core lastEdge).inputs = .core :: [] ∧
    (withNext (.answer .ok) waiting).inputs = .answer .ok :: [] ∧
    (withNext (.tickRate 0#32) s0).inputs = .tickRate 0#32 :: [] ∧
    (withNext .reset halted).inputs = .reset :: [] ∧
    waiting.cfg.legal = true ∧ halted.cfg.legal = true ∧ lastEdge.cfg.legal = true := by
  decide

/-- One configuration for each way to be outside the ranges, just outside them. -/
theorem witness_IllegalConfigurationsAreRefused :
    ({ testConfig with width := 0 } : Config).width < 1 ∧
    256 < ({ testConfig with width := 257 } : Config).width ∧
    ({ testConfig with height := 0 } : Config).height < 1 ∧
    256 < ({ testConfig with height := 257 } : Config).height ∧
    (∃ ns ∈ timingConstants { testConfig with t0lNs := 0 }, ns < 1 ∨ 1000000 < ns) ∧
    (∃ ns ∈ timingConstants { testConfig with t1hNs := 1000001 }, ns < 1 ∨ 1000000 < ns) ∧
    ({ testConfig with durBits := 0 } : Config).durBits < 1 ∧
    31 < ({ testConfig with durBits := 32 } : Config).durBits := by
  decide

theorem witness_CmdWriteFollowsTheAcceptanceOrder :
    halted.cfg.legal = true ∧ halted.coreState = .halt ∧
    waiting.cfg.legal = true ∧ waiting.coreState ≠ .halt ∧ waiting.coreState ≠ .idle ∧
    s0.cfg.legal = true ∧ s0.coreState = .idle ∧ decode 0x9#32 = .error .reservedOpcode ∧
    decode 0x8#32 = .ok .encode ∧
    (withNext (commandAccess 0x9#32) halted).inputs = commandAccess 0x9#32 :: [] := by
  decide

theorem witness_CommandsAreTurnedAwayOutsideIdle :
    halted.coreState = .halt ∧ waiting.coreState ≠ .halt ∧ waiting.coreState ≠ .idle ∧
    lastEdge.coreState ≠ .halt ∧ lastEdge.coreState ≠ .idle := by
  decide

/-- An acknowledge of each flag, and a reset, clear a flag that was 1. -/
theorem witness_StickyFlagsStayUntilAcknowledged :
    (∃ t, step (withNext (hostWrite 0x000#19 0x4#32) { s0 with badcmd := true }) = .next t ∧
      t.badcmd = false) ∧
    (∃ t, step (withNext (hostWrite 0x000#19 0x8#32) { s0 with drop := true }) = .next t ∧
      t.drop = false) ∧
    (∃ t, step (withNext .reset halted) = .next t ∧ t.badcmd = false ∧ t.drop = false) :=
  ⟨⟨_, rfl, rfl⟩, ⟨_, rfl, rfl⟩, ⟨_, rfl, rfl, rfl⟩⟩

/-- IDLE and BUSY: NOP; the idle state serves CLEAR, SETPIX, RENDER, QUANT, RAMP, MOVEC, MOVED and
ENCODE as well. -/
theorem witness_idle_and_busy : s0.coreState = .idle ∧ busy waiting = true ∧ busy lastEdge = true ∧
    busy { s0 with coreState := .prep } = true := by decide

/-- The last pixel is in bounds; x = WIDTH and y = HEIGHT are not. -/
theorem witness_SetpixWritesExactlyTheAddressedPixel :
    (0x0404#16).toNat % 256 < s0.cfg.width ∧ (0x0404#16).toNat / 256 < s0.cfg.height ∧
    ¬((0x0005#16).toNat % 256 < s0.cfg.width ∧ (0x0005#16).toNat / 256 < s0.cfg.height) ∧
    ¬((0x0500#16).toNat % 256 < s0.cfg.width ∧ (0x0500#16).toNat / 256 < s0.cfg.height) := by
  decide

theorem witness_RenderDrawsTheMarkerOnBlack : s0.coreState = .idle ∧
    s0.pos.toNat % 256 = 2 ∧ s0.pos.toNat / 256 = 2 := by decide

/-- No NaN, and one or both operands infinite. -/
theorem witness_MagnitudeIsNaNExactlyWhenAnOperandIs :
    isNaN (mag 0#32 0#32) = false ∧ isNaN (mag fInf fInf) = false ∧
    isNaN fInf = false ∧ isInf fInf = true ∧ isNaN 0xFF800000#32 = false ∧
    isInf 0xFF800000#32 = true ∧ isNaN 0#32 = false := by decide +kernel

/-- Both sides of the threshold, a NaN angle, and angles on the boundaries 22.5 and -157.5. -/
theorem witness_QuantizerFollowsTheSectorTable :
    flt (mag 0#32 0x411FFFFF#32) testConfig.moveThresh = true ∧
    flt (mag 0#32 0x41200000#32) testConfig.moveThresh = false ∧ isNaN fNaN = true ∧
    isNaN 0x41B40000#32 = false ∧ unitsOf 0x41B40000#32 = halfDegrees 45 ∧
    isNaN 0xC31D8000#32 = false ∧ unitsOf 0xC31D8000#32 = halfDegrees (-315) := by
  decide +kernel

theorem witness_RampWritesOnlyTheMultiplier :
    s0.coreState = .idle ∧ isZero (mag 0#32 0#32) = true ∧
    fle 0x42B40000#32 (mag 0#32 0x42B40000#32) = true ∧ fle 0x42B40000#32 (mag 0#32 fInf) = true ∧
    isNaN (mag fNaN 0#32) = true ∧ mag 0#32 f45 = f45 := by
  decide +kernel

theorem witness_RampDoesNotDecreaseInTheMagnitude :
    fle (mag 0#32 0x42B1A28E#32) (mag 0#32 0x42B1A28F#32) = true := by decide +kernel

theorem witness_RampPlateauBeginsBelowNinety :
    fle 0x42B1A28F#32 (mag 0#32 0x42B1A28F#32) = true ∧
    mag 0#32 0x42B1A28E#32 = 0x42B1A28E#32 := by decide +kernel

/-- Stay and East. -/
theorem witness_MovecIntegratesAndClamps : s0.coreState = .idle ∧
    quant testConfig 0#32 0#32 = .stay ∧ quant testConfig 0#32 f45 ≠ .stay := by decide +kernel

/-- The common hypotheses at both ends of a coordinate (-0 included), then each clause: a velocity
just above 0.5 (the default `DIAG` too), one whose product with `DT` underflows, one of exactly 1 and
one whose product overflows. -/
theorem witness_MovecSpecialOperandsGoWhereTheRulesSay :
    (fle 0#32 0x80000000#32 = true ∧ fle 0x80000000#32 (i2f 0) = true) ∧
    (fle 0#32 (i2f 255) = true ∧ fle (i2f 255) (i2f 255) = true) ∧
    isNaN fNaN = true ∧
    (isInf fInf = true ∧ isZero 0x80000000#32 = true) ∧
    (isInf 0xFF800000#32 = true ∧ isNaN 0x00000001#32 = false ∧ isZero 0x00000001#32 = false) ∧
    (2 ^ 148 < magOf 0x3F000001#32 ∧ 2 ^ 148 < magOf 0x3F350481#32) ∧
    isZero (fmul 0x3F000000#32 0x00000001#32) = true ∧
    (isZero 0x80000000#32 = true ∧ isFinite 0x7F7FFFFF#32 = true) ∧
    magOf 0xBF800000#32 ≤ 2 ^ 149 ∧ isFinite 0x40000000#32 = true ∧
    isInf (fmul 0x40000000#32 0x7F7FFFFF#32) = true ∧ isInf 0xFF800000#32 = true := by
  decide +kernel

/-- Stay; and North-East at the corner (4, 4), where both axes saturate. -/
theorem witness_MovedStepsOneCellAndSaturates :
    s0.cfg.legal = true ∧ s0.coreState = .idle ∧ quant testConfig 0#32 0#32 = .stay ∧
    quant testConfig f30 f30 = .ne ∧
    ((4 : Nat) : Int) = min (max ((((0x0404#16).toNat % 256 : Nat) : Int) + (displacement .ne).1) 0)
      (testConfig.width - 1) ∧
    ((4 : Nat) : Int) = min (max ((((0x0404#16).toNat / 256 : Nat) : Int) + (displacement .ne).2) 0)
      (testConfig.height - 1) := by
  decide +kernel

theorem witness_TickConversionIsTheFloor :
    1 ≤ 1000000 ∧ 1000000 ≤ 1000000 ∧ 2 ^ 32 - 1 < 2 ^ 32 := by decide

theorem witness_DefaultTimingPassesFromItsSmallestRate :
    2857143 ≤ 2857143 ∧ 2857143 < 2 ^ 32 ∧ 2857143 ≤ 2 ^ 32 - 1 ∧ 2 ^ 32 - 1 < 2 ^ 32 := by decide

/-- The three cases of PREP: no rate, the largest rate that fails, the smallest that passes. -/
theorem witness_PrepChecksTheRateThenThePulses :
    ({ s0 with coreState := .prep } : State).coreState = .prep ∧
    ((0 : Word).toNat = 0) ∧
    (∃ ns ∈ timingConstants testConfig, ns * 2857142 / 10 ^ 9 = 0) ∧
    (∀ ns ∈ timingConstants testConfig, 1 ≤ ns * 2857143 / 10 ^ 9 ∧
      ns * 2857143 / 10 ^ 9 ≤ 2 ^ testConfig.durBits - 1) := by
  decide

theorem witness_GrbReordersTheChannels :
    (0x7F7F12#24).extractLsb' 8 8 = (0x7F7F12#24).extractLsb' 16 8 := by decide

/-- `DUR_BITS` at both ends of its range, the duration at `DUR_MAX`. -/
theorem witness_EdgeWordHoldsLevelAboveDuration :
    (1 ≤ 1 ∧ 1 ≤ 31 ∧ 1 ≤ 2 ^ 1 - 1) ∧ (1 ≤ 31 ∧ 31 ≤ 31 ∧ 2 ^ 31 - 1 ≤ 2 ^ 31 - 1) := by decide

/-- The state from which an ENCODE runs through, at the smallest rate that passes. -/
theorem witness_EncodeHandsOverTheClosedFormFrame :
    ∃ s : State, s.cfg.legal = true ∧ s.coreState = .idle ∧ s.inFlight = none ∧
      s.inputs = [commandAccess 0x00000008#32] ∧ s.tickRate.toNat ≠ 0 ∧
      ∀ ns ∈ timingConstants s.cfg, 1 ≤ ns * s.tickRate.toNat / 10 ^ 9 ∧
        ns * s.tickRate.toNat / 10 ^ 9 ≤ 2 ^ s.cfg.durBits - 1 :=
  ⟨{ withNext (commandAccess 0x00000008#32) onePixel with tickRate := 2857143#32 }, by decide⟩

theorem witness_lastEdge_frameInv : frameInv lastEdge := by decide +kernel

/-- The EMIT step that hands the frame over, from a state that keeps the invariant; the buffer is
all black. -/
theorem witness_EmittedFramesAreWholeAndAlternate :
    ∃ t E, frameInv lastEdge ∧ step lastEdge = .next t ∧ lastEdge.inFlight = none ∧
      t.inFlight = some E ∧
      ∀ i < lastEdge.cfg.width * lastEdge.cfg.height, pixel lastEdge i = 0#24 :=
  ⟨_, _, witness_lastEdge_frameInv, rfl, rfl, rfl, by decide +kernel⟩

/-- Two states that differ in a register and agree on what the frame depends on. -/
theorem witness_FrameDependsOnPixelsRateAndParametersOnly :
    ∃ s1 s2 : State, s1.pitch ≠ s2.pitch ∧ s1.cfg.legal = true ∧ s1.cfg = s2.cfg ∧
      s1.tickRate = s2.tickRate ∧
      (∀ i < s1.cfg.width * s1.cfg.height, pixel s1 i = pixel s2 i) ∧
      s1.coreState = .idle ∧ s2.coreState = .idle ∧ s1.inFlight = none ∧ s2.inFlight = none ∧
      s1.inputs = [commandAccess 0x00000008#32] ∧ s2.inputs = [commandAccess 0x00000008#32] :=
  ⟨withNext (commandAccess 0x8#32) s0, withNext (commandAccess 0x8#32) (tilted f45 fNaN),
    by decide +kernel⟩

theorem witness_TransmitterAnswersEndTheFrame :
    waiting.cfg.legal = true ∧ waiting.coreState = .wait ∧ waiting.abandoned = 0 ∧
    (withNext (.answer .ok) waiting).inputs = .answer .ok :: [] ∧
    (withNext (.answer .hwError) waiting).inputs = .answer .hwError :: [] := by
  decide

theorem witness_AnswersThatAreNotDueChangeNothing :
    s0.cfg.legal = true ∧ (withNext (.answer .ok) s0).inputs = .answer .ok :: [] ∧
    s0.abandoned = 0 ∧ s0.coreState ≠ .wait ∧ { waiting with abandoned := 1 }.abandoned = 0 + 1 := by
  decide

/-- HALT meets a reset, and any other event. -/
theorem witness_HaltIsLeftOnlyByReset :
    halted.coreState = .halt ∧ (∃ t, step (withNext .reset halted) = .next t) ∧
    (∃ t, step (withNext (hostWrite 0x004#19 0x1#32) halted) = .next t) ∧
    ∀ rest, (withNext (hostWrite 0x004#19 0x1#32) halted).inputs ≠ .reset :: rest :=
  ⟨rfl, ⟨_, rfl⟩, ⟨_, rfl⟩, by intro rest h; cases h⟩

/-- The smallest and the largest part. -/
theorem witness_legal_parts :
    Config.legal { testConfig with width := 1, height := 1 } = true ∧
    Config.legal { testConfig with width := 256, height := 256 } = true := by decide

/-- A reset in WAIT and one in HALT. -/
theorem witness_ResetFromAnyStateReachesTheResetValues :
    waiting.cfg.legal = true ∧ (withNext .reset waiting).inputs = .reset :: [] ∧
    waiting.coreState = .wait ∧ halted.cfg.legal = true ∧ halted.coreState ≠ .wait := by decide

theorem witness_StatusWriteClearsOnlyItsOnes : s0.coreState ≠ .halt ∧ halted.coreState = .halt := by
  decide

theorem witness_DataRegisterWritesStoreTheirBits : waiting.coreState ≠ .halt := by decide

/-- The first and last unmapped offsets of each range, and a misaligned one. -/
theorem witness_UnmappedOffsetsReadZeroAndIgnoreWrites :
    [0x00034#19, 0x3FFFC#19, 0x40064#19, 0x7FFFC#19, 0x00001#19].all (fun off =>
      (decide (0x030 < off.toNat) || decide (off.toNat % 4 ≠ 0)) &&
      (decide (off.toNat < 0x40000) ||
        decide (0x40000 + 4 * (s0.cfg.width * s0.cfg.height) ≤ off.toNat))) = true := by
  decide

theorem witness_ReadOnlyRegistersIgnoreWrites :
    0x40000 ≤ (0x40000#19).toNat ∧ 0x40000 ≤ (0x7FFFF#19).toNat := by decide

/-- The first and the last word of the window. -/
theorem witness_WindowReadsThePixels :
    s0.cfg.legal = true ∧ 0 < s0.cfg.width * s0.cfg.height ∧ 24 < s0.cfg.width * s0.cfg.height := by
  decide

theorem witness_CfgReportsTheGrid : s0.cfg.legal = true ∧ ∃ t, step s0 = .next t :=
  ⟨by decide, _, rfl⟩

theorem witness_OnlyAlignedWordAccessesAreAccepted :
    AccessWidth.bits16 ≠ .bits32 ∧ (0x7FFFF#19).toNat % 4 ≠ 0 ∧ (0x7FFFC#19).toNat % 4 = 0 := by
  decide

theorem witness_ReadsHaveNoSideEffects : (0x7FFFC#19).toNat % 4 = 0 ∧ (0x000#19).toNat % 4 = 0 := by
  decide

/-- A state outside HALT; and a `wait_idle` after one statement, with its label, the Host at its
label and at its `rd`. -/
theorem witness_PseudoInstructionsDoWhatTheyName :
    waiting.coreState ≠ .halt ∧ 255 < 256 ∧ (∃ t, exec .render waiting = .next t) ∧
    ∃ h k : HostAgent, h.program = [cmdStmt .encode] ++ waitIdle "w" "h" ++ [.halt] ∧
      k.program = h.program ∧ Stmt.label "w" ∉ [cmdStmt .encode] ∧ h.next = 1 ∧ k.next = 1 + 1 :=
  ⟨by decide, by decide, ⟨_, rfl⟩,
    ⟨[cmdStmt .encode] ++ waitIdle "w" "h" ++ [.halt], 1, []⟩,
    ⟨[cmdStmt .encode] ++ waitIdle "w" "h" ++ [.halt], 2, []⟩, rfl, rfl, by decide, rfl, rfl⟩

/-- The invariants in IDLE, in EMIT and in WAIT, each of a state that has a next one. -/
theorem witness_invariants :
    (memoryInv s0 ∧ flagInv s0 ∧ positionInv s0 ∧ frameInv s0 ∧ ∃ t, step s0 = .next t) ∧
    (memoryInv lastEdge ∧ flagInv lastEdge ∧ positionInv lastEdge ∧ ∃ t, step lastEdge = .next t) ∧
    (memoryInv waiting ∧ flagInv waiting ∧ frameInv waiting ∧ ∃ t, step waiting = .next t) :=
  ⟨⟨by decide +kernel, by decide, by decide +kernel, by decide +kernel, _, rfl⟩,
    ⟨by decide +kernel, by decide, by decide +kernel, _, rfl⟩,
    ⟨by decide +kernel, by decide, by decide +kernel, _, rfl⟩⟩

/-- A Host write meets a frame in flight. -/
theorem witness_FrameBufferIsStableWhileBusy :
    ∃ s t : State, busy s = true ∧ step s = .next t ∧ (∀ rest, s.inputs ≠ .reset :: rest) ∧
      frameInv s ∧ s.coreState = .wait :=
  ⟨withNext (hostWrite 0x004#19 0x1#32) waiting, _, by decide, rfl,
    (by intro rest h; cases h), by decide +kernel, by decide⟩

theorem witness_ParametersNeverChange : ∃ t, step s0 = .next t := ⟨_, rfl⟩

/-- A tie, resolved to the even pattern, and the overflow boundary, at d = 1 and d = 2. -/
theorem witness_RoundingIsToNearestTiesToEven :
    0 < 2 ∧ roundMag 1 2 < 0x7F800000 ∧ 1 < 0x7F800000 ∧ 1 ≠ roundMag 1 2 ∧
    |(1 : Int) - magOf (BitVec.ofNat 32 (roundMag 1 2)) * 2| =
      |(1 : Int) - magOf (BitVec.ofNat 32 1) * 2| ∧
    roundMag ((2 ^ 25 - 1) * 2 ^ 252) 1 = 0x7F800000 ∧
    roundMag ((2 ^ 25 - 1) * 2 ^ 252 - 1) 1 = 0x7F7FFFFF := by
  decide +kernel

/-- Largest, smallest and zero operands; a sum that overflows, a tie, exact sums of zero; a root that
is not exact lies between its neighbours. -/
theorem witness_ArithmeticIsCorrectlyRounded :
    (isFinite 0x00000001#32 = true ∧ isFinite 0x7F7FFFFF#32 = true ∧ isFinite f2 = true) ∧
    (2 ^ 25 - 1) * 2 ^ 252 * 1 ≤ (unitsOf 0x7F7FFFFF#32 + unitsOf 0x7F7FFFFF#32).natAbs ∧
    (unitsOf 0x3F800000#32 + unitsOf 0xBF800000#32 = 0 ∧ unitsOf f2 - unitsOf f2 = 0) ∧
    (isZero 0x00000001#32 = false ∧ isZero 0x80000000#32 = true) ∧
    (0 ≤ unitsOf 0x80000000#32 ∧ 0 ≤ unitsOf f2 ∧ unitsOf (fsqrt f2) < unitsOf 0x3FB504F4#32 ∧
      0 ≤ unitsOf 0x3FB504F2#32 ∧ unitsOf 0x3FB504F2#32 < unitsOf (fsqrt f2)) ∧
    fadd 0x4B800001#32 0x3F800000#32 = 0x4B800002#32 ∧
    (isFinite 0x4B800001#32 = true ∧ unitsOf 0x4B800001#32 ≠ unitsOf 0x4B800002#32 ∧
      |unitsOf 0x4B800001#32 + unitsOf 0x3F800000#32 - unitsOf 0x4B800002#32| =
        |unitsOf 0x4B800001#32 + unitsOf 0x3F800000#32 - unitsOf 0x4B800001#32|) := by
  decide +kernel

/-- Its clauses on infinite operands: one infinity beside a zero, a subnormal, and an infinity of
either sign. -/
theorem witness_ArithmeticIsCorrectlyRounded_infinite :
    isInf fInf = true ∧ signOf fInf = false ∧ isInf 0xFF800000#32 = true ∧
    isNaN 0x80000000#32 = false ∧ isInf 0x80000000#32 = false ∧ isFinite 0x80000000#32 = true ∧
    isNaN 0x80000001#32 = false ∧ isZero 0x80000001#32 = false ∧ isFinite 0x80000001#32 = true ∧
    isNaN 0xFF800000#32 = false ∧ isZero 0xFF800000#32 = false ∧
    signOf 0xFF800000#32 ≠ signOf fInf := by
  decide +kernel

/-- The magnitudes of Q34 and S15. -/
theorem test_infinite_magnitude : mag fInf 0#32 = fInf ∧ mag 0#32 fInf = fInf := by
  decide +kernel

end Sys2Proof.Tests
end

namespace Sys2Proof.Machine

/-! ## The parameters (spec 00_scope R7) -/

/-! ### No effect writes them -/

/-- A command behind the acceptance order leaves the parameters alone when its effect does. -/
theorem whenIdle_cfg (f : State → State) (s : State) (hf : (f s).cfg = s.cfg) :
    (whenIdle f s).cfg = s.cfg := by
  rcases whenIdle_cases f s with ⟨-, e⟩ | ⟨-, e⟩ | ⟨-, e⟩
  · rw [e, hf]
  · rw [e, setDrop_cfg]
  · rw [e]

theorem effectOf_cfg (i : Instr) (s : State) : (effectOf i s).cfg = s.cfg := by
  cases i with
  | movec =>
    rcases movecEffect_cases s with ⟨-, e⟩ | ⟨-, _, _, -, -, e⟩ <;> simp [effectOf, e]
  | moved =>
    rcases movedEffect_cases s with ⟨-, e⟩ | ⟨-, _, _, -, -, e⟩ <;> simp [effectOf, e]
  | nop | clear | setpix | render | quant | ramp | encode => rfl

theorem writeEffect_cfg (v : Word) (s t : State) (h : WriteEffect v s t) : t.cfg = s.cfg := by
  cases h with
  | command i => exact whenIdle_cfg _ s (effectOf_cfg i s)
  | reserved => exact whenIdle_cfg _ s (setBadcmd_cfg s)
  | status => exact clearSticky_cfg s v
  | ignored | pitch | roll | dt | mult | color | xy => rfl

/-- The Core moves in PREP and EMIT only (41_encoder R131, 60_exceptions R226). -/
theorem coreStep_of_still (s : State)
    (h : s.coreState = .idle ∨ s.coreState = .wait ∨ s.coreState = .halt) : coreStep s = s := by
  rcases h with h | h | h <;> simp [coreStep, h]

theorem coreStep_cfg (s : State) : (coreStep s).cfg = s.cfg := by
  cases hc : s.coreState with
  | idle | wait | halt => rw [coreStep_of_still s (by simp [hc])]
  | prep =>
    simp only [coreStep, hc]
    rcases prepStep_cases s with ⟨-, e⟩ | ⟨-, -, e⟩ | ⟨-, -, e⟩ <;> simp [e]
  | emit =>
    simp only [coreStep, hc]
    rcases emitStep_cases s with ⟨-, e⟩ | ⟨-, -, e⟩ | ⟨-, -, e⟩ <;> simp [e]

theorem receiveAnswer_cfg (r : TxAnswer) (s : State) : (receiveAnswer r s).cfg = s.cfg := by
  rcases receiveAnswer_cases r s with ⟨_, -, e⟩ | ⟨-, -, e⟩ | ⟨-, -, -, e⟩ | ⟨-, -, -, e⟩ <;>
    simp [e]

/-- No step writes the parameters. -/
theorem step_cfg (s t : State) (h : step s = .next t) : t.cfg = s.cfg :=
  step_keeps (fun u => u.cfg = s.cfg)
    (pop := fun _ _ hu => hu)
    (read := fun _ _ hu => hu)
    (rate := fun _ _ hu => hu)
    (write := fun _ v _ _ hu hw => (writeEffect_cfg v _ _ hw).trans hu)
    (core := fun u _ hu => (coreStep_cfg u).trans hu)
    (answer := fun u r _ hu => (receiveAnswer_cfg r u).trans hu)
    (reset := fun _ _ hu => hu)
    s t h rfl

/-- Settles O57: no effect writes the parameters, and a part outside their ranges has no step. -/
theorem parametersNeverChange : Obligations.ParametersNeverChange := by
  intro s t h
  have hcfg := step_cfg s t h
  obtain ⟨legal, -⟩ := step_cases s t h
  exact ⟨hcfg, by rw [hcfg]; exact legal⟩

/-! ### A part outside their ranges is refused -/

/-- The timing constants of a legal part lie in their range (00_scope R7). -/
theorem legal_timing (c : Config) (h : c.legal = true) :
    ∀ ns ∈ timingConstants c, 1 ≤ ns ∧ ns ≤ 1000000 := by
  simp [Config.legal, Config.timingLegal] at h
  simp [timingConstants]
  omega

theorem step_of_illegal (s : State) (h : s.cfg.legal = false) :
    step s = .refused .illegalConfiguration := by
  simp [step, h]

/-- Settles O5: a legal part has every parameter in its range. -/
theorem illegalConfigurationsAreRefused : Obligations.IllegalConfigurationsAreRefused := by
  intro s outside
  apply step_of_illegal
  by_contra h
  have legal : s.cfg.legal = true := by simpa using h
  have dims := legal_dimensions s.cfg legal
  rcases outside with h | h | h | h | ⟨ns, mem, h⟩ | h | h
  case inr.inr.inr.inr.inl =>
    have := legal_timing s.cfg legal ns mem
    omega
  all_goals omega

/-! ## The step -/

/-- The Host's write of a legal word to `CMD` is the meaning of its command, in HALT too. -/
theorem applyInput_commandAccess (w : Word) (i : Instr) (s : State) (h : decode w = .ok i) :
    applyInput (commandAccess w) s = exec i s := by
  by_cases halted : s.coreState = .halt
  · calc applyInput (commandAccess w) s
        = memWrite (regOffset .cmd) w s := hostAccess_write _ w s (by decide)
      _ = .next s := by rw [memWrite, if_pos halted]
      _ = exec i s := by rw [exec_eq, whenIdle_halt _ s halted]
  · calc applyInput (commandAccess w) s
        = writeReg .cmd w s := hostAccess_writeReg .cmd w s halted
      _ = exec i s := by simp only [writeReg, issueCommand, h]

/-- A step at the Host's write of a legal word to `CMD`. -/
theorem step_command (s : State) (w : Word) (i : Instr) (rest : List Input)
    (legal : s.cfg.legal = true) (h : decode w = .ok i)
    (next : s.inputs = commandAccess w :: rest) : step s = exec i (popInput rest s) := by
  rw [step_cons s _ rest legal next, applyInput_commandAccess w i _ h]

/-- Taking the write that `withFetchWord` put first off the list gives the state back. -/
theorem popInput_withFetchWord (s : State) (nbits w : Nat) :
    popInput s.inputs (s.withFetchWord nbits w) = s := rfl

theorem step_withFetchWord (s : State) (w : Word) (i : Instr) (legal : s.cfg.legal = true)
    (h : decode w = .ok i) : step (s.withFetchWord 32 w.toNat) = exec i s := by
  have next : (s.withFetchWord 32 w.toNat).inputs = commandAccess w :: s.inputs := by
    rw [State.withFetchWord, Nat.mod_eq_of_lt w.isLt, BitVec.ofNat_toNat, BitVec.setWidth_eq]
  rw [step_command (s.withFetchWord 32 w.toNat) w i s.inputs legal h next, popInput_withFetchWord]

/-- Settles O4: each event by the one lemma about its effect. -/
theorem stepRunsTheDecodedCommand : Obligations.StepRunsTheDecodedCommand := by
  intro s legal
  have event := fun i rest => step_cons s i rest legal
  refine ⟨fun w i h _ => ⟨fun rest => step_command s w i rest legal h,
    step_withFetchWord s w i legal h⟩, step_nil s legal, coreStep_of_still s, fun rest => ?_⟩
  refine ⟨fun a next => event _ rest next, fun off aligned next => ?read,
    fun off v aligned next => ?write, fun next => event _ rest next,
    fun r next => event _ rest next, fun v next => event _ rest next, fun next => event _ rest next⟩
  case read => exact (event _ rest next).trans (hostAccess_read off _ aligned)
  case write => exact (event _ rest next).trans (hostAccess_write off v _ aligned)

end Sys2Proof.Machine

namespace Sys2Proof.Machine

/-! ## The rounding step is to nearest, ties to even (spec 00_scope R13)

The midpoints between a rounded pattern and the other patterns bound the exact value. Nearness, the
threshold of overflow and the rounding of a square root all follow from these two bounds. -/

/-! ### Midpoints -/

/-- An exact value half a quantum away from the rounded significand has made it even. -/
theorem roundSig_tie_even (n D : Nat) (hD : 0 < D)
    (tie : 2 * n = (2 * roundSig n D + 1) * D ∨ 2 * n + D = 2 * roundSig n D * D) :
    roundSig n D % 2 = 0 := by
  have hdiv := Nat.div_add_mod n D
  have hlt := Nat.mod_lt n hD
  unfold roundSig at tie ⊢
  generalize n % D = r at *
  generalize hm : n / D = m at *
  split at tie
  next up =>
    rw [if_pos up]
    have : 2 * r = D := by rcases tie with tie | tie <;> nlinarith
    omega
  next down =>
    rw [if_neg down]
    have : 2 * r = D := by rcases tie with tie | tie <;> nlinarith
    omega

/-- What rounding n/d to the significand m of quantum 2^q means: m is in its range and within half a
quantum of the value, even when it is half a quantum away, and the value is not below the least
normal significand of a quantum. -/
structure RoundsTo (n d q m : Nat) : Prop where
  normal : q = 0 ∨ 2 ^ 23 ≤ m
  bounded : m ≤ 2 ^ 24
  notAbove : 2 * n ≤ (2 * m + 1) * (d * 2 ^ q)
  notBelow : 2 * m * (d * 2 ^ q) ≤ 2 * n + d * 2 ^ q
  tieEven : 2 * n = (2 * m + 1) * (d * 2 ^ q) ∨ 2 * n + d * 2 ^ q = 2 * m * (d * 2 ^ q) → m % 2 = 0
  least : q ≠ 0 → m = 2 ^ 23 → m * (d * 2 ^ q) ≤ n

/-- The rounded pattern is a quantum and a significand that the value rounds to. -/
theorem roundRaw_roundsTo (n d : Nat) (hd : 0 < d) :
    ∃ q m, roundRaw n d = q * 2 ^ 23 + m ∧ RoundsTo n d q m := by
  refine ⟨quantumExp n d, roundSig n (d * 2 ^ quantumExp n d), rfl, ?_⟩
  obtain ⟨lo, hi⟩ := quantum_range n d
  generalize quantumExp n d = q at *
  have hD : 0 < d * 2 ^ q := by positivity
  have sigLe := roundSig_le n (d * 2 ^ q)
  have sigGe := le_roundSig n (d * 2 ^ q)
  obtain ⟨near, near'⟩ := roundSig_near n (d * 2 ^ q) hD
  refine ⟨by omega, by omega, by linarith, by linarith, roundSig_tie_even n _ hD,
    fun normal eq => ?_⟩
  have kept : roundSig n (d * 2 ^ q) = n / (d * 2 ^ q) := by omega
  rw [kept]
  exact Nat.div_mul_le_self n _

/-- The pattern after q * 2^23 + m stands for a quantum more, or for more than that. -/
theorem magUnits_succ_ge (q m : Nat) (h : q = 0 ∨ 2 ^ 23 ≤ m) (hm : m ≤ 2 ^ 24) :
    (m + 1) * 2 ^ q ≤ magUnits (q * 2 ^ 23 + m + 1) := by
  rcases Nat.lt_or_eq_of_le hm with hm | rfl
  · rw [Nat.add_assoc, magUnits_quantum q (m + 1) (by omega) (by omega)]
  · rw [show q * 2 ^ 23 + 2 ^ 24 + 1 = (q + 1) * 2 ^ 23 + (2 ^ 23 + 1) by ring,
      magUnits_quantum (q + 1) (2 ^ 23 + 1) (by omega) (by decide), pow_succ 2 q]
    have := Nat.two_pow_pos q
    omega

/-- The exact value is at most the midpoint to any pattern above the rounded one; at the midpoint
the rounded pattern is even. -/
theorem roundRaw_le_midpoint (n d b : Nat) (hd : 0 < d) (hb : roundRaw n d < b) :
    2 * n ≤ (magUnits (roundRaw n d) + magUnits b) * d ∧
      (2 * n = (magUnits (roundRaw n d) + magUnits b) * d → roundRaw n d % 2 = 0) := by
  obtain ⟨q, m, pattern, r⟩ := roundRaw_roundsTo n d hd
  rw [pattern] at hb ⊢
  rw [magUnits_quantum q m r.normal r.bounded]
  have next : (m + 1) * 2 ^ q ≤ magUnits b :=
    (magUnits_succ_ge q m r.normal r.bounded).trans (magUnits_strictMono.monotone hb)
  have half : (2 * m + 1) * (d * 2 ^ q) ≤ (m * 2 ^ q + magUnits b) * d :=
    calc (2 * m + 1) * (d * 2 ^ q)
        = (m * 2 ^ q + (m + 1) * 2 ^ q) * d := by ring
      _ ≤ (m * 2 ^ q + magUnits b) * d := Nat.mul_le_mul_right d (Nat.add_le_add_left next _)
  refine ⟨r.notAbove.trans half, fun tie => ?_⟩
  have := r.tieEven (.inl (le_antisymm r.notAbove (tie ▸ half)))
  omega

/-- The exact value is at least the midpoint to any pattern below the rounded one; at the midpoint
the rounded pattern is even. -/
theorem midpoint_le_roundRaw (n d b : Nat) (hd : 0 < d) (hb : b < roundRaw n d) :
    (magUnits b + magUnits (roundRaw n d)) * d ≤ 2 * n ∧
      (2 * n = (magUnits b + magUnits (roundRaw n d)) * d → roundRaw n d % 2 = 0) := by
  obtain ⟨q, m, pattern, r⟩ := roundRaw_roundsTo n d hd
  rw [pattern] at hb ⊢
  by_cases least : q ≠ 0 ∧ m = 2 ^ 23
  · -- The least significand of its quantum was not rounded up, so the value is not below it.
    have less : magUnits b < m * 2 ^ q :=
      magUnits_quantum q m r.normal r.bounded ▸ magUnits_strictMono hb
    rw [magUnits_quantum q m r.normal r.bounded]
    have strict : (magUnits b + m * 2 ^ q) * d < 2 * n :=
      calc (magUnits b + m * 2 ^ q) * d
          < (m * 2 ^ q + m * 2 ^ q) * d := Nat.mul_lt_mul_of_pos_right (by omega) hd
        _ = 2 * (m * (d * 2 ^ q)) := by ring
        _ ≤ 2 * n := Nat.mul_le_mul_left 2 (r.least least.1 least.2)
    exact ⟨strict.le, fun tie => absurd tie strict.ne'⟩
  · have range := r.normal
    have bounded := r.bounded
    obtain ⟨k, rfl⟩ : ∃ k, m = k + 1 := Nat.exists_eq_add_one.2 (by omega)
    have prev : magUnits b ≤ k * 2 ^ q := by
      rw [← magUnits_quantum q k (by omega) (by omega)]
      exact magUnits_strictMono.monotone (by omega)
    rw [magUnits_quantum q (k + 1) r.normal r.bounded]
    have half : (magUnits b + (k + 1) * 2 ^ q) * d + d * 2 ^ q ≤ 2 * (k + 1) * (d * 2 ^ q) :=
      calc (magUnits b + (k + 1) * 2 ^ q) * d + d * 2 ^ q
          ≤ (k * 2 ^ q + (k + 1) * 2 ^ q) * d + d * 2 ^ q :=
            Nat.add_le_add_right (Nat.mul_le_mul_right d (Nat.add_le_add_right prev _)) _
        _ = 2 * (k + 1) * (d * 2 ^ q) := by ring
    have notBelow := r.notBelow
    refine ⟨by omega, fun tie => ?_⟩
    have := r.tieEven (.inr (by omega))
    omega

/-! ### Nearness -/

/-- Of two numbers the lower one is nearer to everything up to their midpoint. -/
theorem nearer_below_midpoint (n x y : Int) (lt : x < y) (mid : 2 * n ≤ x + y) :
    |n - x| ≤ |n - y| ∧ (|n - x| = |n - y| → 2 * n = x + y) := by
  rcases abs_cases (n - x) with ⟨ex, _⟩ | ⟨ex, _⟩ <;>
    rcases abs_cases (n - y) with ⟨ey, _⟩ | ⟨ey, _⟩ <;> rw [ex, ey] <;> omega

/-- Of two numbers the upper one is nearer to everything from their midpoint on. -/
theorem nearer_above_midpoint (n x y : Int) (lt : y < x) (mid : x + y ≤ 2 * n) :
    |n - x| ≤ |n - y| ∧ (|n - x| = |n - y| → 2 * n = x + y) := by
  rcases abs_cases (n - x) with ⟨ex, _⟩ | ⟨ex, _⟩ <;>
    rcases abs_cases (n - y) with ⟨ey, _⟩ | ⟨ey, _⟩ <;> rw [ex, ey] <;> omega

/-- No pattern is nearer to the exact value than the rounded one; where another is as near, the
rounded one is even. The patterns have no bound on the exponent. -/
theorem roundRaw_nearest (n d b : Nat) (hd : 0 < d) :
    |(n : Int) - magUnits (roundRaw n d) * d| ≤ |(n : Int) - magUnits b * d| ∧
      (b ≠ roundRaw n d →
        |(n : Int) - magUnits (roundRaw n d) * d| = |(n : Int) - magUnits b * d| →
        roundRaw n d % 2 = 0) := by
  rcases Nat.lt_trichotomy b (roundRaw n d) with lt | rfl | gt
  · obtain ⟨mid, tieEven⟩ := midpoint_le_roundRaw n d b hd lt
    have less := Nat.mul_lt_mul_of_pos_right (magUnits_strictMono lt) hd
    obtain ⟨near, tie⟩ := nearer_above_midpoint n (magUnits (roundRaw n d) * d) (magUnits b * d)
      (by exact_mod_cast less) (by zify at mid; linarith)
    exact ⟨near, fun _ eq => tieEven (by zify; linarith [tie eq])⟩
  · exact ⟨le_rfl, fun ne => absurd rfl ne⟩
  · obtain ⟨mid, tieEven⟩ := roundRaw_le_midpoint n d b hd gt
    have less := Nat.mul_lt_mul_of_pos_right (magUnits_strictMono gt) hd
    obtain ⟨near, tie⟩ := nearer_below_midpoint n (magUnits (roundRaw n d) * d) (magUnits b * d)
      (by exact_mod_cast less) (by zify at mid; linarith)
    exact ⟨near, fun _ eq => tieEven (by zify; linarith [tie eq])⟩

/-! ### Overflow -/

/-- The value of the largest finite pattern. -/
theorem magUnits_largest : magUnits (infBits - 1) = (2 ^ 24 - 1) * 2 ^ 253 := by decide

/-- The value that stands for infinity. -/
theorem magUnits_infBits : magUnits infBits = 2 ^ 24 * 2 ^ 253 := by decide

/-- Rounding overflows exactly from half a unit in the last place above the largest finite value. -/
theorem infBits_le_roundRaw_iff (n d : Nat) (hd : 0 < d) :
    infBits ≤ roundRaw n d ↔ (2 ^ 25 - 1) * 2 ^ 252 * d ≤ n := by
  have midpoint : (magUnits (infBits - 1) + magUnits infBits) * d =
      2 * ((2 ^ 25 - 1) * 2 ^ 252 * d) := by
    rw [magUnits_largest, magUnits_infBits]; ring
  constructor
  · intro overflow
    obtain ⟨mid, -⟩ := midpoint_le_roundRaw n d (infBits - 1) hd (by unfold infBits at *; omega)
    have more : magUnits infBits ≤ magUnits (roundRaw n d) := magUnits_strictMono.monotone overflow
    have := Nat.mul_le_mul_right d (Nat.add_le_add_left more (magUnits (infBits - 1)))
    omega
  · intro large
    by_contra under
    obtain ⟨mid, tieEven⟩ := roundRaw_le_midpoint n d infBits hd (by omega)
    have less : magUnits (roundRaw n d) ≤ magUnits (infBits - 1) :=
      magUnits_strictMono.monotone (by omega)
    have grown := Nat.mul_le_mul_right d (Nat.add_le_add_right less (magUnits infBits))
    -- The value is the midpoint itself, and the pattern below infinity is odd.
    have tie : 2 * n = (magUnits (roundRaw n d) + magUnits infBits) * d := by omega
    have even := tieEven tie
    have same : magUnits (roundRaw n d) = magUnits (infBits - 1) := by
      have : (magUnits (roundRaw n d) + magUnits infBits) * d =
          (magUnits (infBits - 1) + magUnits infBits) * d := by omega
      have := Nat.eq_of_mul_eq_mul_right hd this
      omega
    rw [magUnits_strictMono.injective same] at even
    exact absurd even (by decide)

theorem roundMag_eq_infBits_iff (n d : Nat) (hd : 0 < d) :
    roundMag n d = infBits ↔ (2 ^ 25 - 1) * 2 ^ 252 * d ≤ n := by
  rw [← infBits_le_roundRaw_iff n d hd, roundMag_eq, min_eq_right_iff]

/-- Below infinity nothing is cut off. -/
theorem roundMag_of_lt (n d : Nat) (h : roundMag n d < infBits) : roundMag n d = roundRaw n d := by
  rw [roundMag_eq] at h ⊢
  omega

/-- A positive pattern below infinity stands for the value of its bits. -/
theorem magOf_ofNat (b : Nat) (h : b < infBits) : magOf (BitVec.ofNat 32 b) = magUnits b :=
  magOf_packSign false b (h.trans infBits_lt)

/-- Settles O58, by the midpoints on either side of the rounded pattern. -/
theorem roundingIsToNearestTiesToEven : Obligations.RoundingIsToNearestTiesToEven := by
  intro n d hd
  refine ⟨roundMag_eq_infBits_iff n d hd, fun finite b hb => ?_⟩
  rw [magOf_ofNat _ finite, magOf_ofNat b hb, roundMag_of_lt n d finite]
  exact roundRaw_nearest n d b hd

end Sys2Proof.Machine

namespace Sys2Proof.Machine

/-! ## The five operations (spec 00_scope R13, 42_motion R170) -/

/-! ### Kinds of patterns -/

/-- A pattern is a NaN, an infinity or finite. -/
theorem nan_or_inf_or_finite (v : F32) :
    isNaN v = true ∨ isInf v = true ∨ isFinite v = true := by
  cases hn : isNaN v <;> cases hi : isInf v <;> simp [isFinite, hn, hi]

theorem isFinite_iff (v : F32) : isFinite v = true ↔ isNaN v = false ∧ isInf v = false := by
  simp [isFinite]

theorem isNaN_of_isInf {v : F32} (h : isInf v = true) : isNaN v = false := by
  simp only [isInf, Bool.and_eq_true, beq_iff_eq] at h
  simp [isNaN, h]

theorem isZero_of_isInf {v : F32} (h : isInf v = true) : isZero v = false := by
  simp only [isInf, Bool.and_eq_true, beq_iff_eq] at h
  simp [isZero, magOf, h]

theorem isInf_of_isZero {v : F32} (h : isZero v = true) : isInf v = false := by
  cases hi : isInf v
  · rfl
  · rw [isZero_of_isInf hi] at h; exact absurd h Bool.false_ne_true

theorem isNaN_of_isZero {v : F32} (h : isZero v = true) : isNaN v = false := by
  simp only [isZero, Bool.and_eq_true, Bool.not_eq_true'] at h
  exact h.1

/-- Away from NaN a pattern is a zero exactly when its magnitude is 0. -/
theorem isZero_iff {v : F32} (h : isNaN v = false) : isZero v = true ↔ magOf v = 0 := by
  simp [isZero, h]

theorem magOf_pos {v : F32} (h : isNaN v = false) (hz : isZero v = false) : 0 < magOf v := by
  rw [Nat.pos_iff_ne_zero, ne_eq, ← isZero_iff h, hz]
  exact Bool.false_ne_true

/-- The bits of an infinity below its sign. -/
theorem isInf_iff (v : F32) : isInf v = true ↔ v.toNat % 2 ^ 31 = infBits := by
  simp only [isInf, expOf, fracOf, infBits, Bool.and_eq_true, beq_iff_eq]
  omega

/-- Infinities of one sign are the same pattern. -/
theorem eq_of_isInf {a b : F32} (ha : isInf a = true) (hb : isInf b = true)
    (h : signOf a = signOf b) : a = b := by
  rw [isInf_iff] at ha hb
  rw [← packSign_fields a, ← packSign_fields b, ha, hb, h]

theorem isInf_packSign (sign : Bool) (m : Nat) (h : m < 2 ^ 31) :
    isInf (packSign sign m) = true ↔ m = infBits := by
  rw [isInf_iff, packSign_toNat sign m h]
  cases sign
  · simp; omega
  · simp; omega

theorem isInf_packSign_infBits (sign : Bool) : isInf (packSign sign infBits) = true :=
  (isInf_packSign sign infBits infBits_lt).2 rfl

theorem signOf_packSign_infBits (sign : Bool) : signOf (packSign sign infBits) = sign :=
  signOf_packSign sign infBits infBits_lt

theorem isZero_packSign_zero (sign : Bool) : isZero (packSign sign 0) = true := by
  cases sign <;> decide

theorem isNaN_defaultNaN : isNaN defaultNaN = true := by decide

/-! ### Signed values -/

theorem natAbs_unitsOf (v : F32) : (unitsOf v).natAbs = magOf v := by
  unfold unitsOf
  cases signOf v <;> simp

theorem unitsOf_of_nonneg {v : F32} (h : 0 ≤ unitsOf v) : unitsOf v = magOf v := by
  rw [← natAbs_unitsOf, Int.natAbs_of_nonneg h]

/-! ### A rounded result is the rounding of its exact value -/

theorem isInf_roundF (sign : Bool) (n d : Nat) (hd : 0 < d) :
    isInf (roundF sign n d) = true ↔ (2 ^ 25 - 1) * 2 ^ 252 * d ≤ n := by
  rw [← roundMag_eq_infBits_iff n d hd]
  exact isInf_packSign sign _ ((roundMag_le n d).trans_lt infBits_lt)

theorem isFinite_roundF_iff (sign : Bool) (n d : Nat) :
    isFinite (roundF sign n d) = true ↔ roundMag n d < infBits := by
  have le := roundMag_le n d
  rw [isFinite_iff, isNaN_roundF, roundF, ← Bool.not_eq_true (isInf _),
    isInf_packSign sign _ (le.trans_lt infBits_lt)]
  exact ⟨fun h => lt_of_le_of_ne le h.2, fun h => ⟨rfl, h.ne⟩⟩

theorem roundF_parity (sign : Bool) (n d : Nat) :
    (roundF sign n d).toNat % 2 = roundMag n d % 2 := by
  rw [roundF, packSign_toNat sign _ ((roundMag_le n d).trans_lt infBits_lt)]
  cases sign
  · simp
  · simp; omega

/-- No signed number with a magnitude of a pattern is nearer to a value that is not negative than
the rounded pattern; where another is as near, the rounded pattern is even. -/
theorem roundRaw_nearest_signed (n d : Nat) (hd : 0 < d) (g : Int) (b : Nat)
    (hg : g.natAbs = magUnits b) :
    |(n : Int) - magUnits (roundRaw n d) * d| ≤ |(n : Int) - g * d| ∧
      (g ≠ magUnits (roundRaw n d) →
        |(n : Int) - magUnits (roundRaw n d) * d| = |(n : Int) - g * d| →
        roundRaw n d % 2 = 0) := by
  by_cases pos : 0 ≤ g
  · obtain ⟨near, tieEven⟩ := roundRaw_nearest n d b hd
    have value : g = magUnits b := by omega
    rw [value]
    exact ⟨near, fun ne => tieEven fun eq => ne (by rw [eq])⟩
  · -- The zero lies between the value and a negative number.
    obtain ⟨near, -⟩ := roundRaw_nearest n d 0 hd
    have zero : magUnits 0 = 0 := by decide
    have farther : |(n : Int) - (magUnits 0 : Nat) * d| < |(n : Int) - g * d| := by
      have : g * d < 0 := Int.mul_neg_of_neg_of_pos (by omega) (by exact_mod_cast hd)
      rw [zero, abs_of_nonneg (by simp), abs_of_nonneg (by omega)]
      simp; omega
    exact ⟨(near.trans_lt farther).le, fun _ tie => absurd tie (near.trans_lt farther).ne⟩

/-- The one rounding of the model is the rounding of IEEE 754 of the number with that sign and
magnitude n/d. -/
theorem isRoundingOf_roundF (sign : Bool) (n d : Nat) (hd : 0 < d) :
    isRoundingOf (roundF sign n d) (if sign then -(n : Int) else n) d := by
  refine ⟨isNaN_roundF sign n d, ?_, ?_, fun finite g _ => ?_⟩
  · rw [isInf_roundF sign n d hd]
    cases sign <;> simp
  · rw [signOf_roundF]
    cases sign
    · simp
    · simp; omega
  · have value := roundMag_of_lt n d ((isFinite_roundF_iff sign n d).1 finite)
    have hx : unitsOf (roundF sign n d) =
        if sign then -(magUnits (roundRaw n d) : Int) else magUnits (roundRaw n d) := by
      rw [unitsOf, signOf_roundF, magOf_roundF, value]
    have hg : (unitsOf g).natAbs = magUnits (g.toNat % 2 ^ 31) := by
      rw [natAbs_unitsOf, magOf_eq]
    rw [roundF_parity, value, hx]
    cases sign
    · exact roundRaw_nearest_signed n d hd (unitsOf g) _ hg
    · obtain ⟨near, tieEven⟩ :=
        roundRaw_nearest_signed n d hd (-unitsOf g) _ (by rw [Int.natAbs_neg, hg])
      have flip : ∀ u : Int, |-(n : Int) - u * d| = |(n : Int) - -u * d| := by
        intro u
        rw [← abs_neg]
        congr 1
        ring
      simp only [if_true, flip, neg_neg]
      exact ⟨near, fun ne => tieEven (by omega)⟩

end Sys2Proof.Machine

namespace Sys2Proof.Machine

/-! ### Addition and subtraction -/

theorem fadd_of_nan {a b : F32} (h : isNaN a = true ∨ isNaN b = true) :
    fadd a b = defaultNaN := by
  rcases h with h | h <;> simp [fadd, h]

/-- Infinities of opposite signs. -/
theorem fadd_of_inf_opposite {a b : F32} (ha : isInf a = true) (hb : isInf b = true)
    (h : signOf a ≠ signOf b) : fadd a b = defaultNaN := by
  simp [fadd, isNaN_of_isInf, ha, hb, h]

theorem fadd_of_inf_left {a b : F32} (ha : isInf a = true) (hb : isNaN b = false)
    (h : isInf b = true → signOf b = signOf a) : fadd a b = a := by
  cases hi : isInf b
  · simp [fadd, isNaN_of_isInf, ha, hb, hi]
  · simp [fadd, isNaN_of_isInf, ha, hi, h hi]

theorem fadd_of_inf_right {a b : F32} (hb : isInf b = true) (ha : isNaN a = false)
    (h : isInf a = true → signOf a = signOf b) : fadd a b = b := by
  cases hi : isInf a
  · simp [fadd, isNaN_of_isInf, ha, hb, hi]
  · rw [fadd_of_inf_left hi (isNaN_of_isInf hb) (fun _ => (h hi).symm), eq_of_isInf hi hb (h hi)]

/-- The sign of a sum of finite terms: of the exact sum, or minus for a zero of negative terms. -/
def sumSign (a b : F32) : Bool :=
  if unitsOf a + unitsOf b = 0 then signOf a && signOf b else decide (unitsOf a + unitsOf b < 0)

theorem fadd_of_finite {a b : F32} (ha : isFinite a = true) (hb : isFinite b = true) :
    fadd a b = roundF (sumSign a b) (unitsOf a + unitsOf b).natAbs 1 := by
  rw [isFinite_iff] at ha hb
  by_cases zero : unitsOf a + unitsOf b = 0
  · have : roundMag 0 1 = 0 := by decide
    simp [fadd, sumSign, ha, hb, zero, roundF, this]
  · simp [fadd, sumSign, ha, hb, zero]

theorem isNaN_fadd_iff (a b : F32) :
    isNaN (fadd a b) = true ↔ isNaN a = true ∨ isNaN b = true ∨
      (isInf a = true ∧ isInf b = true ∧ signOf a ≠ signOf b) := by
  by_cases nan : isNaN a = true ∨ isNaN b = true
  · rw [fadd_of_nan nan, ← or_assoc]
    exact iff_of_true isNaN_defaultNaN (.inl nan)
  obtain ⟨na, nb⟩ := not_or.1 nan
  rw [or_iff_right na, or_iff_right nb]
  rw [Bool.not_eq_true] at na nb
  by_cases opposite : isInf a = true ∧ isInf b = true ∧ signOf a ≠ signOf b
  · obtain ⟨ia, ib, ne⟩ := opposite
    rw [fadd_of_inf_opposite ia ib ne]
    exact iff_of_true isNaN_defaultNaN ⟨ia, ib, ne⟩
  refine iff_of_false ?_ opposite
  have same : isInf a = true → isInf b = true → signOf a = signOf b :=
    fun ia ib => not_not.1 fun ne => opposite ⟨ia, ib, ne⟩
  cases ia : isInf a with
  | true => rw [fadd_of_inf_left ia nb fun ib => (same ia ib).symm, na]; decide
  | false =>
    cases ib : isInf b with
    | true => rw [fadd_of_inf_right ib na fun ia => same ia ib, nb]; decide
    | false =>
      rw [fadd_of_finite ((isFinite_iff a).2 ⟨na, ia⟩) ((isFinite_iff b).2 ⟨nb, ib⟩),
        isNaN_roundF]
      decide

theorem isNaN_fsub_iff (a b : F32) :
    isNaN (fsub a b) = true ↔ isNaN a = true ∨ isNaN b = true ∨
      (isInf a = true ∧ isInf b = true ∧ signOf a = signOf b) := by
  rw [fsub, isNaN_fadd_iff, isNaN_fneg, isInf_fneg, signOf_fneg, Bool.ne_not]

theorem isFinite_fneg (v : F32) : isFinite (fneg v) = isFinite v := by
  simp [isFinite, isNaN_fneg, isInf_fneg]

/-- A number with a sign that is that of its value, where the value is not 0, rounds correctly. -/
theorem isRoundingOf_roundF_natAbs (sign : Bool) (num : Int) (d : Nat) (hd : 0 < d)
    (h : num ≠ 0 → sign = decide (num < 0)) : isRoundingOf (roundF sign num.natAbs d) num d := by
  have rounding := isRoundingOf_roundF sign num.natAbs d hd
  have value : (if sign then -(num.natAbs : Int) else num.natAbs) = num := by
    by_cases zero : num = 0
    · simp [zero]
    · by_cases neg : num < 0
      · simp only [h zero, neg, decide_true, if_true]; omega
      · simp only [h zero, neg, decide_false, Bool.false_eq_true, if_false]; omega
  rwa [value] at rounding

/-- The sum of finite terms is correctly rounded. -/
theorem fadd_isRoundingOf {a b : F32} (ha : isFinite a = true) (hb : isFinite b = true) :
    isRoundingOf (fadd a b) (unitsOf a + unitsOf b) 1 := by
  rw [fadd_of_finite ha hb]
  exact isRoundingOf_roundF_natAbs _ _ 1 Nat.one_pos fun ne => if_neg ne

/-- An exact sum of zero is -0 only if both terms are negative. -/
theorem signOf_fadd_of_zero_sum {a b : F32} (ha : isFinite a = true) (hb : isFinite b = true)
    (h : unitsOf a + unitsOf b = 0) : signOf (fadd a b) = (signOf a && signOf b) := by
  rw [fadd_of_finite ha hb, signOf_roundF, sumSign, if_pos h]

/-- The difference of finite terms is correctly rounded. -/
theorem fsub_isRoundingOf {a b : F32} (ha : isFinite a = true) (hb : isFinite b = true) :
    isRoundingOf (fsub a b) (unitsOf a - unitsOf b) 1 := by
  rw [Int.sub_eq_add_neg, ← unitsOf_fneg]
  exact fadd_isRoundingOf ha (by rw [isFinite_fneg, hb])

theorem signOf_fsub_of_zero_difference {a b : F32} (ha : isFinite a = true)
    (hb : isFinite b = true) (h : unitsOf a - unitsOf b = 0) :
    signOf (fsub a b) = (signOf a && !signOf b) := by
  rw [fsub, signOf_fadd_of_zero_sum ha (by rw [isFinite_fneg, hb]) (by rw [unitsOf_fneg]; omega),
    signOf_fneg]

/-- An infinity less a number, or less an infinity of the other sign. -/
theorem fsub_of_inf_left {a b : F32} (ha : isInf a = true) (hb : isNaN b = false)
    (h : isInf b = true → signOf b ≠ signOf a) : fsub a b = a :=
  fadd_of_inf_left ha (by rw [isNaN_fneg, hb]) fun ib => by
    rw [signOf_fneg, Bool.not_eq]
    exact h (by rwa [isInf_fneg] at ib)

/-- A number less an infinity, or an infinity of the other sign less it. -/
theorem fsub_of_inf_right {a b : F32} (hb : isInf b = true) (ha : isNaN a = false)
    (h : isInf a = true → signOf a ≠ signOf b) : fsub a b = fneg b :=
  fadd_of_inf_right (by rw [isInf_fneg, hb]) ha fun ia => by
    rw [signOf_fneg, Bool.eq_not]
    exact h ia

/-! ### Multiplication -/

theorem fmul_of_nan {a b : F32} (h : isNaN a = true ∨ isNaN b = true) :
    fmul a b = defaultNaN := by
  rcases h with h | h <;> simp [fmul, h]

/-- Zero times infinity. -/
theorem fmul_of_inf_zero {a b : F32}
    (h : (isInf a = true ∧ isZero b = true) ∨ (isZero a = true ∧ isInf b = true)) :
    fmul a b = defaultNaN := by
  rcases h with ⟨h, h'⟩ | ⟨h, h'⟩ <;> simp [fmul, h, h']

theorem fmul_of_inf {a b : F32} (na : isNaN a = false) (nb : isNaN b = false)
    (za : isZero a = false) (zb : isZero b = false) (h : isInf a = true ∨ isInf b = true) :
    fmul a b = packSign (signOf a ^^ signOf b) infBits := by
  rcases h with h | h <;> simp [fmul, na, nb, za, zb, h]

theorem fmul_of_finite {a b : F32} (ha : isFinite a = true) (hb : isFinite b = true) :
    fmul a b = roundF (signOf a ^^ signOf b) (magOf a * magOf b) (2 ^ 149) := by
  rw [isFinite_iff] at ha hb
  simp [fmul, ha, hb]

theorem isNaN_fmul_iff (a b : F32) :
    isNaN (fmul a b) = true ↔ isNaN a = true ∨ isNaN b = true ∨
      (isInf a = true ∧ isZero b = true) ∨ (isZero a = true ∧ isInf b = true) := by
  by_cases nan : isNaN a = true ∨ isNaN b = true
  · rw [fmul_of_nan nan, ← or_assoc]
    exact iff_of_true isNaN_defaultNaN (.inl nan)
  obtain ⟨na, nb⟩ := not_or.1 nan
  rw [or_iff_right na, or_iff_right nb]
  rw [Bool.not_eq_true] at na nb
  by_cases invalid : (isInf a = true ∧ isZero b = true) ∨ (isZero a = true ∧ isInf b = true)
  · rw [fmul_of_inf_zero invalid]
    exact iff_of_true isNaN_defaultNaN invalid
  refine iff_of_false ?_ invalid
  by_cases inf : isInf a = true ∨ isInf b = true
  · have za : isZero a = false := by
      rcases inf with ia | ib
      · exact isZero_of_isInf ia
      · exact Bool.eq_false_iff.2 fun za => invalid (.inr ⟨za, ib⟩)
    have zb : isZero b = false := by
      rcases inf with ia | ib
      · exact Bool.eq_false_iff.2 fun zb => invalid (.inl ⟨ia, zb⟩)
      · exact isZero_of_isInf ib
    rw [fmul_of_inf na nb za zb inf, isNaN_packSign _ _ le_rfl]
    decide
  · obtain ⟨ia, ib⟩ := not_or.1 inf
    rw [Bool.not_eq_true] at ia ib
    rw [fmul_of_finite ((isFinite_iff a).2 ⟨na, ia⟩) ((isFinite_iff b).2 ⟨nb, ib⟩),
      isNaN_roundF]
    decide

/-- The sign of an exact product is the exclusive or of the signs. -/
theorem unitsOf_mul (a b : F32) :
    unitsOf a * unitsOf b =
      if signOf a ^^ signOf b then -((magOf a * magOf b : Nat) : Int)
      else (magOf a * magOf b : Nat) := by
  unfold unitsOf
  cases signOf a <;> cases signOf b <;> simp

/-- The product of finite factors is correctly rounded. -/
theorem fmul_isRoundingOf {a b : F32} (ha : isFinite a = true) (hb : isFinite b = true) :
    isRoundingOf (fmul a b) (unitsOf a * unitsOf b) (2 ^ 149) := by
  rw [fmul_of_finite ha hb, unitsOf_mul]
  exact isRoundingOf_roundF _ _ _ (Nat.two_pow_pos 149)

theorem signOf_fmul_of_finite {a b : F32} (ha : isFinite a = true) (hb : isFinite b = true) :
    signOf (fmul a b) = (signOf a ^^ signOf b) := by
  rw [fmul_of_finite ha hb, signOf_roundF]

/-! ### Division -/

theorem fdiv_of_nan {a b : F32} (h : isNaN a = true ∨ isNaN b = true) :
    fdiv a b = defaultNaN := by
  rcases h with h | h <;> simp [fdiv, h]

/-- Infinity over infinity and zero over zero. -/
theorem fdiv_of_invalid {a b : F32}
    (h : (isInf a = true ∧ isInf b = true) ∨ (isZero a = true ∧ isZero b = true)) :
    fdiv a b = defaultNaN := by
  rcases h with ⟨h, h'⟩ | ⟨h, h'⟩
  · simp [fdiv, h, h']
  · simp [fdiv, isInf_of_isZero, h, h']

theorem fdiv_of_inf_left {a b : F32} (ha : isInf a = true) (hb : isFinite b = true) :
    fdiv a b = packSign (signOf a ^^ signOf b) infBits := by
  rw [isFinite_iff] at hb
  simp [fdiv, isNaN_of_isInf, ha, hb]

theorem fdiv_of_inf_right {a b : F32} (ha : isFinite a = true) (hb : isInf b = true) :
    fdiv a b = packSign (signOf a ^^ signOf b) 0 := by
  rw [isFinite_iff] at ha
  simp [fdiv, isNaN_of_isInf, ha, hb]

theorem fdiv_of_zero_right {a b : F32} (ha : isFinite a = true) (za : isZero a = false)
    (zb : isZero b = true) : fdiv a b = packSign (signOf a ^^ signOf b) infBits := by
  rw [isFinite_iff] at ha
  simp [fdiv, isNaN_of_isZero, isInf_of_isZero, ha, za, zb]

theorem fdiv_of_finite {a b : F32} (ha : isFinite a = true) (hb : isFinite b = true)
    (zb : isZero b = false) :
    fdiv a b = roundF (signOf a ^^ signOf b) (magOf a * 2 ^ 149) (magOf b) := by
  rw [isFinite_iff] at ha hb
  simp [fdiv, ha, hb, zb]

theorem isNaN_fdiv_iff (a b : F32) :
    isNaN (fdiv a b) = true ↔ isNaN a = true ∨ isNaN b = true ∨
      (isInf a = true ∧ isInf b = true) ∨ (isZero a = true ∧ isZero b = true) := by
  by_cases nan : isNaN a = true ∨ isNaN b = true
  · rw [fdiv_of_nan nan, ← or_assoc]
    exact iff_of_true isNaN_defaultNaN (.inl nan)
  obtain ⟨na, nb⟩ := not_or.1 nan
  rw [or_iff_right na, or_iff_right nb]
  rw [Bool.not_eq_true] at na nb
  by_cases invalid : (isInf a = true ∧ isInf b = true) ∨ (isZero a = true ∧ isZero b = true)
  · rw [fdiv_of_invalid invalid]
    exact iff_of_true isNaN_defaultNaN invalid
  refine iff_of_false ?_ invalid
  rw [Bool.not_eq_true]
  obtain ⟨infs, zeros⟩ := not_or.1 invalid
  cases ia : isInf a with
  | true =>
    have ib : isInf b = false := by simpa [ia] using infs
    rw [fdiv_of_inf_left ia ((isFinite_iff b).2 ⟨nb, ib⟩)]
    exact isNaN_packSign _ _ le_rfl
  | false =>
    have fa := (isFinite_iff a).2 ⟨na, ia⟩
    cases ib : isInf b with
    | true =>
      rw [fdiv_of_inf_right fa ib]
      exact isNaN_packSign _ _ (Nat.zero_le _)
    | false =>
      cases zb : isZero b with
      | true =>
        rw [fdiv_of_zero_right fa (by simpa [zb] using zeros) zb]
        exact isNaN_packSign _ _ le_rfl
      | false =>
        rw [fdiv_of_finite fa ((isFinite_iff b).2 ⟨nb, ib⟩) zb]
        exact isNaN_roundF _ _ _

/-- The dividend of an exact quotient over the magnitude of the divisor. -/
theorem unitsOf_dividend (a b : F32) :
    (unitsOf a * 2 ^ 149 * if signOf b then -1 else 1) =
      if signOf a ^^ signOf b then -((magOf a * 2 ^ 149 : Nat) : Int)
      else (magOf a * 2 ^ 149 : Nat) := by
  unfold unitsOf
  cases signOf a <;> cases signOf b <;> simp

/-- The quotient of a finite number by a non-zero one is correctly rounded. -/
theorem fdiv_isRoundingOf {a b : F32} (ha : isFinite a = true) (hb : isFinite b = true)
    (zb : isZero b = false) :
    isRoundingOf (fdiv a b) (unitsOf a * 2 ^ 149 * if signOf b then -1 else 1) (magOf b) := by
  rw [fdiv_of_finite ha hb zb, unitsOf_dividend]
  exact isRoundingOf_roundF _ _ _ (magOf_pos ((isFinite_iff b).1 hb).1 zb)

theorem signOf_fdiv_of_finite {a b : F32} (ha : isFinite a = true) (hb : isFinite b = true)
    (zb : isZero b = false) : signOf (fdiv a b) = (signOf a ^^ signOf b) := by
  rw [fdiv_of_finite ha hb zb, signOf_roundF]

end Sys2Proof.Machine

namespace Sys2Proof.Machine

/-! ### The square root

The model rounds the root of m in halves of a unit, a half added when the root is not whole
(`rootHalves`). An even number of halves compares with it as with twice the exact root, and above
2^24 every pattern stands for an even number of units, so every midpoint is such a number. -/

/-- The root of m in halves, the last one sticky. -/
def rootHalves (m : Nat) : Nat := 2 * isqrt m + if isqrt m * isqrt m = m then 0 else 1

theorem fsqrt_of_nan {v : F32} (h : isNaN v = true) : fsqrt v = defaultNaN := by
  simp [fsqrt, h]

theorem fsqrt_of_isZero {v : F32} (h : isZero v = true) : fsqrt v = v := by
  simp [fsqrt, isNaN_of_isZero, h]

/-- The root of a negative number. -/
theorem fsqrt_of_negative {v : F32} (s : signOf v = true) (z : isZero v = false) :
    fsqrt v = defaultNaN := by
  simp [fsqrt, s, z]

theorem fsqrt_of_inf {v : F32} (h : isInf v = true) (s : signOf v = false) : fsqrt v = v := by
  simp [fsqrt, isNaN_of_isInf, isZero_of_isInf, h, s]

theorem fsqrt_of_positive {v : F32} (f : isFinite v = true) (s : signOf v = false)
    (z : isZero v = false) : fsqrt v = roundF false (rootHalves (magOf v * 2 ^ 149)) 2 := by
  rw [isFinite_iff] at f
  simp [fsqrt, rootHalves, f, s, z]

theorem isNaN_fsqrt_iff (v : F32) :
    isNaN (fsqrt v) = true ↔ isNaN v = true ∨ (signOf v = true ∧ isZero v = false) := by
  cases z : isZero v with
  | true => simp [fsqrt_of_isZero z, isNaN_of_isZero z]
  | false =>
    cases s : signOf v with
    | true => simp [fsqrt_of_negative s z, isNaN_defaultNaN]
    | false =>
      rcases nan_or_inf_or_finite v with n | i | f
      · simp [fsqrt_of_nan n, isNaN_defaultNaN, n]
      · simp [fsqrt_of_inf i s]
      · simp [fsqrt_of_positive f s z, isNaN_roundF, ((isFinite_iff v).1 f).1]

/-- An even number of halves is at least the root in halves when its half is at least the root. -/
theorem rootHalves_le_iff (m k : Nat) (hm : m < 2 ^ 214 * 2 ^ 214) :
    rootHalves m ≤ 2 * k ↔ m ≤ k * k := by
  obtain ⟨lo, hi⟩ := isqrt_spec m hm
  unfold rootHalves
  generalize isqrt m = r at *
  split
  next whole =>
    rw [← whole, Nat.mul_self_le_mul_self_iff]
    omega
  next inexact =>
    have above : r < k ↔ m ≤ k * k := by
      constructor
      · intro h
        nlinarith
      · intro h
        exact Nat.mul_self_lt_mul_self_iff.1 (by omega)
    omega

/-- An even number of halves is at most the root in halves when its half is at most the root. -/
theorem le_rootHalves_iff (m k : Nat) (hm : m < 2 ^ 214 * 2 ^ 214) :
    2 * k ≤ rootHalves m ↔ k * k ≤ m := by
  obtain ⟨lo, hi⟩ := isqrt_spec m hm
  unfold rootHalves
  generalize isqrt m = r at *
  have below : k ≤ r ↔ k * k ≤ m := by
    constructor
    · intro h
      exact (Nat.mul_self_le_mul_self h).trans lo
    · intro h
      exact Nat.lt_succ_iff.1 (Nat.mul_self_lt_mul_self_iff.1 (h.trans_lt hi))
  split <;> omega

/-- A pattern above 2^24 stands for an even number of units. -/
theorem magUnits_even (b : Nat) (h : 2 ^ 24 ≤ b) : magUnits b % 2 = 0 := by
  obtain ⟨e, he⟩ : ∃ e, b / 2 ^ 23 - 1 = e + 1 := Nat.exists_eq_add_one.2 (by omega)
  rw [magUnits, if_neg (by omega), he, pow_succ 2 e, ← Nat.mul_assoc, Nat.mul_mod_left]

/-- The root of at least one unit is above 2^24. -/
theorem lt_roundRaw_rootHalves (m : Nat) (lo : 2 ^ 149 ≤ m) (hi : m < 2 ^ 214 * 2 ^ 214) :
    2 ^ 24 < roundRaw (rootHalves m) 2 := by
  have value : magUnits (2 ^ 24 + 1) = 2 ^ 24 + 2 := by decide
  have large : 2 * magUnits (2 ^ 24 + 1) ≤ rootHalves m := by
    rw [le_rootHalves_iff m _ hi, value]
    exact le_trans (by decide) lo
  calc 2 ^ 24 < 2 ^ 24 + 1 := by decide
    _ = roundRaw (magUnits (2 ^ 24 + 1) * 2) 2 := (roundRaw_exact _ 2 (by decide)).symm
    _ ≤ roundRaw (rootHalves m) 2 := roundRaw_mono _ 2 _ 2 (by decide) (by decide) (by omega)

/-- A midpoint between patterns above 2^24 is a whole number of units. -/
theorem midpoint_whole (b c : Nat) (hb : 2 ^ 24 ≤ b) (hc : 2 ^ 24 ≤ c) :
    ∃ k, magUnits b + magUnits c = 2 * k :=
  ⟨(magUnits b + magUnits c) / 2, by
    have := magUnits_even b hb
    have := magUnits_even c hc
    omega⟩

/-- The root is at most the midpoint to any pattern above the rounded one, by squares. -/
theorem root_le_midpoint (m c : Nat) (lo : 2 ^ 149 ≤ m) (hi : m < 2 ^ 214 * 2 ^ 214)
    (hc : roundRaw (rootHalves m) 2 < c) :
    4 * m ≤ (magUnits (roundRaw (rootHalves m) 2) + magUnits c) ^ 2 ∧
      ((magUnits (roundRaw (rootHalves m) 2) + magUnits c) ^ 2 = 4 * m →
        roundRaw (rootHalves m) 2 % 2 = 0) := by
  have large := lt_roundRaw_rootHalves m lo hi
  obtain ⟨mid, tieEven⟩ := roundRaw_le_midpoint (rootHalves m) 2 c (by decide) hc
  obtain ⟨k, whole⟩ := midpoint_whole _ c large.le (large.trans hc).le
  rw [whole] at mid tieEven ⊢
  have square : m ≤ k * k := (rootHalves_le_iff m k hi).1 (by omega)
  refine ⟨by linarith [sq (2 * k)], fun tie => tieEven ?_⟩
  have : 2 * k ≤ rootHalves m := (le_rootHalves_iff m k hi).2 (by linarith [sq (2 * k)])
  omega

/-- The root is at least the midpoint to any pattern below the rounded one, by squares. -/
theorem midpoint_le_root (m c : Nat) (lo : 2 ^ 149 ≤ m) (hi : m < 2 ^ 214 * 2 ^ 214)
    (hc : c < roundRaw (rootHalves m) 2) :
    (magUnits (roundRaw (rootHalves m) 2) + magUnits c) ^ 2 ≤ 4 * m ∧
      ((magUnits (roundRaw (rootHalves m) 2) + magUnits c) ^ 2 = 4 * m →
        roundRaw (rootHalves m) 2 % 2 = 0) := by
  have large := lt_roundRaw_rootHalves m lo hi
  -- The pattern just below the rounded one is above 2^24 too, and its midpoint is the greatest.
  obtain ⟨p, hp⟩ : ∃ p, roundRaw (rootHalves m) 2 = p + 1 := Nat.exists_eq_add_one.2 (by omega)
  obtain ⟨mid, tieEven⟩ := midpoint_le_roundRaw (rootHalves m) 2 p (by decide) (by omega)
  have mono : magUnits c ≤ magUnits p := magUnits_strictMono.monotone (by omega)
  obtain ⟨k, whole⟩ := midpoint_whole p _ (by omega) large.le
  rw [whole] at mid tieEven
  have square : k * k ≤ m := (le_rootHalves_iff m k hi).1 (by omega)
  have least : magUnits (roundRaw (rootHalves m) 2) + magUnits c ≤ 2 * k := by omega
  have squares := Nat.pow_le_pow_left least 2
  refine ⟨by linarith [sq (2 * k)], fun tie => tieEven ?_⟩
  have : rootHalves m ≤ 2 * k := (rootHalves_le_iff m k hi).2 (by linarith [sq (2 * k)])
  omega

/-- The value of a finite pattern is below that of infinity. -/
theorem magOf_lt {v : F32} (h : isFinite v = true) : magOf v < 2 ^ 24 * 2 ^ 253 := by
  obtain ⟨nan, inf⟩ := (isFinite_iff v).1 h
  have bits : v.toNat % 2 ^ 31 < infBits := by
    simp only [isNaN, isInf, expOf, fracOf, infBits, Bool.and_eq_false_iff, beq_eq_false_iff_ne,
      bne_eq_false_iff_eq] at *
    omega
  rw [magOf_eq, ← magUnits_infBits]
  exact magUnits_strictMono bits

/-- A finite magnitude, scaled as its root is taken, is in the range of `isqrt`. -/
theorem scaled_magOf_lt {v : F32} (h : isFinite v = true) :
    magOf v * 2 ^ 149 < 2 ^ 214 * 2 ^ 214 :=
  (Nat.mul_lt_mul_of_pos_right (magOf_lt h) (Nat.two_pow_pos 149)).trans (by decide)

/-- The root of a finite number does not overflow. -/
theorem roundMag_rootHalves_lt (m : Nat) (hm : m < 2 ^ 214 * 2 ^ 214) :
    roundMag (rootHalves m) 2 < infBits := by
  refine lt_of_le_of_ne (roundMag_le _ 2) fun eq => ?_
  have overflow := (roundMag_eq_infBits_iff _ 2 (by decide)).1 eq
  have small : rootHalves m ≤ 2 * 2 ^ 214 := (rootHalves_le_iff m _ hm).2 hm.le
  exact absurd (overflow.trans small) (by decide)

/-- Among the finite numbers x is nearest to the root of u units, ties to even, compared by
squares. -/
def isNearestRoot (x : F32) (u : Int) : Prop :=
  ∀ g : F32, isFinite g = true →
    (unitsOf x < unitsOf g → 4 * (u * 2 ^ 149) ≤ (unitsOf x + unitsOf g) ^ 2) ∧
    (0 ≤ unitsOf g → unitsOf g < unitsOf x → (unitsOf x + unitsOf g) ^ 2 ≤ 4 * (u * 2 ^ 149)) ∧
    (0 ≤ unitsOf g → unitsOf g ≠ unitsOf x → (unitsOf x + unitsOf g) ^ 2 = 4 * (u * 2 ^ 149) →
      x.toNat % 2 = 0)

/-- A zero is its own root. -/
theorem isNearestRoot_zero {v : F32} (h : unitsOf v = 0) : isNearestRoot v (unitsOf v) := by
  intro g _
  rw [h]
  refine ⟨fun _ => by positivity, fun pos neg => absurd pos (by omega), fun _ ne tie => ?_⟩
  exact absurd (by simpa using tie) ne

/-- The root in halves rounds to the pattern nearest to the root, ties to even. -/
theorem isNearestRoot_roundF {u : Int} {m : Nat} (hu : u * 2 ^ 149 = m) (lo : 2 ^ 149 ≤ m)
    (hi : m < 2 ^ 214 * 2 ^ 214) : isNearestRoot (roundF false (rootHalves m) 2) u := by
  have value := roundMag_of_lt _ 2 (roundMag_rootHalves_lt m hi)
  have hx : unitsOf (roundF false (rootHalves m) 2) = magUnits (roundRaw (rootHalves m) 2) := by
    simp [unitsOf, signOf_roundF, magOf_roundF, value]
  intro g _
  rw [hx, hu, roundF_parity, value]
  have hg (pos : 0 ≤ unitsOf g) : unitsOf g = magUnits (g.toNat % 2 ^ 31) := by
    rw [unitsOf_of_nonneg pos, magOf_eq]
  generalize g.toNat % 2 ^ 31 = c at hg
  refine ⟨fun lt => ?_, fun pos lt => ?_, fun pos ne tie => ?_⟩
  · have pos : 0 ≤ unitsOf g := (Int.natCast_nonneg _).trans lt.le
    rw [hg pos] at lt ⊢
    have above := magUnits_strictMono.lt_iff_lt.1 (by exact_mod_cast lt)
    exact_mod_cast (root_le_midpoint m c lo hi above).1
  · rw [hg pos] at lt ⊢
    have below := magUnits_strictMono.lt_iff_lt.1 (by exact_mod_cast lt)
    exact_mod_cast (midpoint_le_root m c lo hi below).1
  · rw [hg pos] at ne tie
    have tie' : (magUnits (roundRaw (rootHalves m) 2) + magUnits c) ^ 2 = 4 * m := by
      exact_mod_cast tie
    rcases Nat.lt_trichotomy c (roundRaw (rootHalves m) 2) with below | rfl | above
    · exact (midpoint_le_root m c lo hi below).2 tie'
    · exact absurd rfl ne
    · exact (root_le_midpoint m c lo hi above).2 tie'

/-- The root of a finite number that is not negative: finite, of its sign, and nearest. -/
theorem fsqrt_of_nonneg {v : F32} (f : isFinite v = true) (h : 0 ≤ unitsOf v) :
    isFinite (fsqrt v) = true ∧ signOf (fsqrt v) = signOf v ∧
      isNearestRoot (fsqrt v) (unitsOf v) := by
  have nan := ((isFinite_iff v).1 f).1
  have units := unitsOf_of_nonneg h
  cases z : isZero v with
  | true =>
    rw [(isZero_iff nan).1 z] at units
    rw [fsqrt_of_isZero z]
    exact ⟨f, rfl, isNearestRoot_zero units⟩
  | false =>
    have pos := magOf_pos nan z
    have s : signOf v = false := by
      refine Bool.eq_false_iff.2 fun s => ?_
      rw [unitsOf, if_pos s] at units
      omega
    have range := scaled_magOf_lt f
    rw [fsqrt_of_positive f s z, s]
    exact ⟨(isFinite_roundF_iff _ _ _).2 (roundMag_rootHalves_lt _ range), signOf_roundF _ _ _,
      isNearestRoot_roundF (by rw [units]; push_cast; rfl)
        (Nat.le_mul_of_pos_left _ pos) range⟩

/-! ### The statements about the operations -/

/-- Settles O60, operation by operation. -/
theorem nanComesOnlyFromNaNOrInvalidOperations :
    Obligations.NaNComesOnlyFromNaNOrInvalidOperations := fun a b =>
  ⟨isNaN_fadd_iff a b, isNaN_fsub_iff a b, isNaN_fmul_iff a b, isNaN_fdiv_iff a b,
    isNaN_fsqrt_iff a⟩

/-- Settles O59: the finite operands by the rounding of each operation, then the infinite ones. -/
theorem arithmeticIsCorrectlyRounded : Obligations.ArithmeticIsCorrectlyRounded := by
  refine ⟨fun a b fa fb => ?finite, fun a b => ?infinite⟩
  case finite =>
    refine ⟨fadd_isRoundingOf fa fb, signOf_fadd_of_zero_sum fa fb, fsub_isRoundingOf fa fb,
      signOf_fsub_of_zero_difference fa fb, fmul_isRoundingOf fa fb, signOf_fmul_of_finite fa fb,
      fun zb => ⟨fdiv_isRoundingOf fa fb zb, signOf_fdiv_of_finite fa fb zb⟩, fun za zb => ?_,
      fsqrt_of_nonneg fa⟩
    rw [fdiv_of_zero_right fa za zb]
    exact ⟨isInf_packSign_infBits _, signOf_packSign_infBits _⟩
  case infinite =>
    refine ⟨fun ia nb same => ⟨fadd_of_inf_left ia nb same, fadd_of_inf_right ia nb same⟩,
      fun ia nb opposite => ⟨fsub_of_inf_left ia nb opposite, ?_⟩, fun ia nb zb => ?_,
      fun ia fb => ?_, fsqrt_of_inf⟩
    · rw [fsub_of_inf_right ia nb opposite]
      exact ⟨by rw [isInf_fneg, ia], signOf_fneg a⟩
    · have na := isNaN_of_isInf ia
      have za := isZero_of_isInf ia
      rw [fmul_of_inf na nb za zb (.inl ia), fmul_of_inf nb na zb za (.inr ia),
        Bool.xor_comm (signOf b)]
      exact ⟨isInf_packSign_infBits _, signOf_packSign_infBits _, isInf_packSign_infBits _,
        signOf_packSign_infBits _⟩
    · rw [fdiv_of_inf_left ia fb, fdiv_of_inf_right fb ia, Bool.xor_comm (signOf b)]
      exact ⟨isInf_packSign_infBits _, signOf_packSign_infBits _, isZero_packSign_zero _,
        signOf_packSign _ 0 (by decide)⟩

end Sys2Proof.Machine

namespace Sys2Proof.Machine

/-! ## What each effect leaves alone -/

/-- MOVEC writes `DIR`, the Position and the ContinuousState only. -/
theorem movecEffect_frame (s : State) : ∃ dir pos fx fy,
    movecEffect s = { s with dir := dir, pos := pos, fx := fx, fy := fy } := by
  rcases movecEffect_cases s with ⟨-, e⟩ | ⟨-, _, _, -, -, e⟩ <;> exact ⟨_, _, _, _, e⟩

/-- MOVED writes the same registers as MOVEC. -/
theorem movedEffect_frame (s : State) : ∃ dir pos fx fy,
    movedEffect s = { s with dir := dir, pos := pos, fx := fx, fy := fy } := by
  rcases movedEffect_cases s with ⟨-, e⟩ | ⟨-, _, _, -, -, e⟩ <;> exact ⟨_, _, _, _, e⟩

/-- A command's effect writes pixels, result registers and `core_state` only. -/
theorem effectOf_frame (i : Instr) (s : State) : effectOf i s =
    { s with
      mem := (effectOf i s).mem
      dir := (effectOf i s).dir
      mult := (effectOf i s).mult
      pos := (effectOf i s).pos
      fx := (effectOf i s).fx
      fy := (effectOf i s).fy
      coreState := (effectOf i s).coreState } := by
  cases i with
  | movec => obtain ⟨_, _, _, _, e⟩ := movecEffect_frame s; rw [effectOf, e]
  | moved => obtain ⟨_, _, _, _, e⟩ := movedEffect_frame s; rw [effectOf, e]
  | nop | clear | setpix | render | quant | ramp | encode => rfl

/-- A step of the Core writes the encoder's state and `ERRCODE` only. -/
theorem coreStep_frame (s : State) : coreStep s =
    { s with
      coreState := (coreStep s).coreState
      enc := (coreStep s).enc
      inFlight := (coreStep s).inFlight
      errcode := (coreStep s).errcode
      draws := (coreStep s).draws } := by
  cases hc : s.coreState with
  | idle | wait | halt => rw [coreStep_of_still s (by simp [hc])]
  | prep =>
    simp only [coreStep, hc]
    rcases prepStep_cases s with ⟨-, e⟩ | ⟨-, -, e⟩ | ⟨-, -, e⟩ <;> rw [e] <;> rfl
  | emit =>
    simp only [coreStep, hc]
    rcases emitStep_cases s with ⟨-, e⟩ | ⟨-, -, e⟩ | ⟨-, -, e⟩ <;> rw [e] <;> rfl

/-- An answer writes the encoder's state, `ERRCODE` and the count of owed answers only. -/
theorem receiveAnswer_frame (r : TxAnswer) (s : State) : receiveAnswer r s =
    { s with
      coreState := (receiveAnswer r s).coreState
      enc := (receiveAnswer r s).enc
      inFlight := (receiveAnswer r s).inFlight
      errcode := (receiveAnswer r s).errcode
      draws := (receiveAnswer r s).draws
      abandoned := (receiveAnswer r s).abandoned } := by
  rcases receiveAnswer_cases r s with ⟨_, -, e⟩ | ⟨-, -, e⟩ | ⟨-, -, -, e⟩ | ⟨-, -, -, e⟩ <;>
    rw [e] <;> rfl

/-! ## Induction principles for invariants -/

/-- A property that the sticky flags and the operand registers do not enter is kept by a Host write
when the effect of every command keeps it. -/
theorem writeEffect_keeps (P : State → Prop) {v : Word} {s t : State} (hw : WriteEffect v s t)
    (unread : ∀ pitch roll dt mult color xy badcmd drop, P { s with
      pitch := pitch, roll := roll, dt := dt, mult := mult, color := color, xy := xy,
      badcmd := badcmd, drop := drop })
    (effect : ∀ i, s.coreState = .idle → P (effectOf i s)) : P t := by
  have same : P s := unread _ _ _ _ _ _ _ _
  have dropped : P (setDrop s) := unread _ _ _ _ _ _ _ _
  cases hw with
  | ignored => exact same
  | command i =>
    rcases whenIdle_cases (effectOf i) s with ⟨idle, e⟩ | ⟨-, e⟩ | ⟨-, e⟩ <;> rw [e]
    exacts [effect i idle, dropped, same]
  | reserved =>
    rcases whenIdle_cases setBadcmd s with ⟨-, e⟩ | ⟨-, e⟩ | ⟨-, e⟩ <;> rw [e]
    exacts [unread _ _ _ _ _ _ _ _, dropped, same]
  | status | pitch | roll | dt | mult | color | xy => exact unread _ _ _ _ _ _ _ _

/-- The results of the commands that invariants speak of: `DIR`, the Position, the ContinuousState
and the pixels, with the parameters. -/
structure SameResults (s t : State) : Prop where
  cfg : t.cfg = s.cfg
  dir : t.dir = s.dir
  pos : t.pos = s.pos
  fx : t.fx = s.fx
  fy : t.fy = s.fy
  mem : t.mem = s.mem

/-- A property of these results is kept by every step when the commands keep it and it holds after
reset: neither the encoder nor the environment writes them. -/
theorem step_keeps_results (P : State → Prop)
    (results : ∀ s t, SameResults s t → P s → P t)
    (effect : ∀ s i, s.cfg.legal = true → P s → P (effectOf i s))
    (reset : ∀ s, s.cfg.legal = true → P (resetBlock s))
    (s t : State) (h : step s = .next t) (hs : P s) : P t := by
  refine step_keeps P
    (pop := fun u _ => results u _ ⟨rfl, rfl, rfl, rfl, rfl, rfl⟩)
    (read := fun u _ => results u _ ⟨rfl, rfl, rfl, rfl, rfl, rfl⟩)
    (rate := fun u _ => results u _ ⟨rfl, rfl, rfl, rfl, rfl, rfl⟩)
    (write := fun u v t legal hu hw => writeEffect_keeps P hw
      (fun _ _ _ _ _ _ _ _ => results u _ ⟨rfl, rfl, rfl, rfl, rfl, rfl⟩ hu)
      (fun i _ => effect u i legal hu))
    (core := fun u _ => results u _ ?core)
    (answer := fun u r _ => results u _ ?answer)
    (reset := fun u legal _ => reset u legal) s t h hs
  case core => rw [coreStep_frame]; exact ⟨rfl, rfl, rfl, rfl, rfl, rfl⟩
  case answer => rw [receiveAnswer_frame]; exact ⟨rfl, rfl, rfl, rfl, rfl, rfl⟩

/-! ## The memory invariant (spec 10_state R50) -/

theorem memoryInv_of_sameResults (s t : State) (h : SameResults s t) (hs : memoryInv s) :
    memoryInv t := by
  rw [memoryInv, h.mem, h.cfg]; exact hs

theorem memoryInv_resetOf (c : Config) : memoryInv (State.resetOf c) :=
  ⟨memoryWf_nil, fun _ hc => absurd hc List.not_mem_nil⟩

theorem pixelBytes_clearPixels (n : Nat) (m : Memory) (h : ∀ c ∈ m, isPixelByte n c.1 = true) :
    ∀ c ∈ clearPixels n m, isPixelByte n c.1 = true :=
  fun c hc => h c (mem_clearPixels n m c hc)

/-- The frame-buffer commands write pixels of the buffer; the others leave the memory alone. -/
theorem memoryInv_effectOf (i : Instr) (s : State) (h : memoryInv s) :
    memoryInv (effectOf i s) := by
  obtain ⟨wf, extent⟩ := h
  have wf' := memoryWf_clearPixels (pixelCount s.cfg) s.mem wf
  have extent' := pixelBytes_clearPixels (pixelCount s.cfg) s.mem extent
  cases i with
  | clear => exact ⟨wf', extent'⟩
  | setpix =>
    exact ⟨memoryWf_setAt s.cfg _ _ s.color _ wf, pixelBytes_setAt s.cfg _ _ s.color _ extent⟩
  | render =>
    exact ⟨memoryWf_setAt s.cfg _ _ s.color _ wf', pixelBytes_setAt s.cfg _ _ s.color _ extent'⟩
  | movec =>
    obtain ⟨_, _, _, _, e⟩ := movecEffect_frame s
    rw [effectOf, e]; exact ⟨wf, extent⟩
  | moved =>
    obtain ⟨_, _, _, _, e⟩ := movedEffect_frame s
    rw [effectOf, e]; exact ⟨wf, extent⟩
  | nop | quant | ramp | encode => exact ⟨wf, extent⟩

/-- Settles O51: only the frame-buffer commands and reset write the memory. -/
theorem stepKeepsTheMemoryInvariant : Obligations.StepKeepsTheMemoryInvariant := fun s t hs h =>
  step_keeps_results memoryInv memoryInv_of_sameResults
    (effect := fun u i _ => memoryInv_effectOf i u)
    (reset := fun u _ => memoryInv_resetOf u.cfg) s t h hs

/-! ## The position invariant (spec 10_state R48) -/

theorem positionInv_of_sameResults (s t : State) (h : SameResults s t) (hs : positionInv s) :
    positionInv t := by
  rw [positionInv, h.fx, h.fy, h.pos, h.cfg]; exact hs

/-- Coordinates of the ContinuousState with the Position packed from their floors. -/
theorem positionInv_setMotion (fx fy : F32) (x y : Nat) (s : State)
    (legal : s.cfg.legal = true) (hx : coordinateOk fx (xMax s.cfg))
    (hy : coordinateOk fy (yMax s.cfg)) (ex : x = ffloor fx) (ey : y = ffloor fy) :
    positionInv (setMotion fx fy x y s) := by
  obtain ⟨maxX, maxY⟩ := legal_maxima s.cfg legal
  obtain ⟨-, loX, hiX⟩ := id hx
  obtain ⟨-, loY, hiY⟩ := id hy
  have xLe := ffloor_le fx _ (by omega) loX hiX
  have yLe := ffloor_le fy _ (by omega) loY hiY
  exact ⟨hx, hy, (coordX_packXY x y (by omega)).trans ex, (coordY_packXY x y (by omega)).trans ey⟩

/-- A cell of the grid as both Position and ContinuousState. -/
theorem positionInv_cell (x y : Nat) (s : State) (legal : s.cfg.legal = true)
    (hx : x ≤ xMax s.cfg) (hy : y ≤ yMax s.cfg) :
    positionInv (setMotion (i2f x) (i2f y) x y s) := by
  obtain ⟨maxX, maxY⟩ := legal_maxima s.cfg legal
  exact positionInv_setMotion _ _ x y s legal (coordinateOk_i2f x _ hx maxX)
    (coordinateOk_i2f y _ hy maxY) (ffloor_i2f x (by omega)).symm (ffloor_i2f y (by omega)).symm

/-- The centre of the grid (70_reset R262). -/
theorem positionInv_resetOf (c : Config) (legal : c.legal = true) :
    positionInv (State.resetOf c) := by
  have dims := legal_dimensions c legal
  exact positionInv_cell (xCentre c) (yCentre c) (State.resetOf c) legal
    (show c.width / 2 ≤ c.width - 1 by omega) (show c.height / 2 ≤ c.height - 1 by omega)

/-- Only MOVEC and MOVED move, the one to clamped coordinates, the other to a cell of the grid. -/
theorem positionInv_effectOf (i : Instr) (s : State) (legal : s.cfg.legal = true)
    (h : positionInv s) : positionInv (effectOf i s) := by
  obtain ⟨maxX, maxY⟩ := legal_maxima s.cfg legal
  cases i with
  | movec =>
    rw [effectOf]
    rcases movecEffect_cases s with ⟨-, e⟩ | ⟨-, fx, fy, rfl, rfl, e⟩ <;> rw [e]
    · exact h
    · exact positionInv_setMotion _ _ _ _ _ legal (coordinateOk_integrate _ _ _ _ _ maxX).1
        (coordinateOk_integrate _ _ _ _ _ maxY).1 rfl rfl
  | moved =>
    rw [effectOf]
    rcases movedEffect_cases s with ⟨-, e⟩ | ⟨-, x, y, rfl, rfl, e⟩ <;> rw [e]
    · exact h
    · exact positionInv_cell _ _ _ legal (stepCell_le _ _ _) (stepCell_le _ _ _)
  | nop | clear | setpix | render | quant | ramp | encode => exact h

/-- The Position of a legal part that meets the invariant lies in the grid. -/
theorem pos_le_of_positionInv (s : State) (legal : s.cfg.legal = true) (h : positionInv s) :
    coordX s.pos ≤ xMax s.cfg ∧ coordY s.pos ≤ yMax s.cfg := by
  obtain ⟨maxX, maxY⟩ := legal_maxima s.cfg legal
  obtain ⟨⟨-, loX, hiX⟩, ⟨-, loY, hiY⟩, floorX, floorY⟩ := h
  rw [floorX, floorY]
  exact ⟨ffloor_le _ _ (by omega) loX hiX, ffloor_le _ _ (by omega) loY hiY⟩

/-- Settles O52: only MOVEC, MOVED and reset write the Position. -/
theorem stepKeepsThePositionInvariant : Obligations.StepKeepsThePositionInvariant := by
  intro s t hs h
  have ht : positionInv t :=
    step_keeps_results positionInv positionInv_of_sameResults
      (effect := fun u i => positionInv_effectOf i u)
      (reset := fun u => positionInv_resetOf u.cfg) s t h hs
  exact ⟨ht, pos_le_of_positionInv t (parametersNeverChange s t h).2 ht⟩

/-! ## The frame invariant (spec 10_state R53, 41_encoder R142) -/

/-- Outside EMIT and WAIT the invariant says only that no frame is in flight. -/
theorem frameInv_of_no_frame {s : State} (notEmit : s.coreState ≠ .emit)
    (notWait : s.coreState ≠ .wait) (noFrame : s.inFlight = none) : frameInv s :=
  ⟨fun h => absurd h notEmit, fun h => absurd h notWait, fun _ => noFrame⟩

theorem frameInv_of_emit {s : State} (emit : s.coreState = .emit) (built : emitInv s)
    (noFrame : s.inFlight = none) : frameInv s :=
  ⟨fun _ => built, fun h => absurd (emit.symm.trans h) (by decide), fun _ => noFrame⟩

/-- An accepted command leaves the Core in IDLE or, ENCODE, in PREP. -/
theorem effectOf_coreState (i : Instr) (s : State) :
    (effectOf i s).coreState = if i = .encode then .prep else s.coreState := by
  cases i with
  | movec => obtain ⟨_, _, _, _, e⟩ := movecEffect_frame s; rw [effectOf, e]; rfl
  | moved => obtain ⟨_, _, _, _, e⟩ := movedEffect_frame s; rw [effectOf, e]; rfl
  | nop | clear | setpix | render | quant | ramp | encode => rfl

theorem effectOf_inFlight (i : Instr) (s : State) : (effectOf i s).inFlight = s.inFlight :=
  (congrArg State.inFlight (effectOf_frame i s) :)

theorem frameInv_effectOf (i : Instr) (s : State) (idle : s.coreState = .idle)
    (h : frameInv s) : frameInv (effectOf i s) := by
  obtain ⟨-, -, noFrame⟩ := h
  refine frameInv_of_no_frame ?_ ?_ ((effectOf_inFlight i s).trans (noFrame (by simp [idle])))
  all_goals rw [effectOf_coreState, idle]; split <;> decide

/-- A fatal error discards the frame (60_exceptions R224). -/
theorem frameInv_raiseFatal (code : BitVec 4) (s : State) : frameInv (raiseFatal code s) :=
  frameInv_of_no_frame (by simp) (by simp) rfl

/-- PREP enters EMIT with no edge built, with which every frame begins. -/
theorem frameInv_prepStep (s : State) (legal : s.cfg.legal = true)
    (noFrame : s.inFlight = none) : frameInv (prepStep s) := by
  rcases prepStep_cases s with ⟨-, e⟩ | ⟨-, -, e⟩ | ⟨rate, counts, e⟩ <;> rw [e]
  · exact frameInv_raiseFatal _ s
  · exact frameInv_raiseFatal _ s
  · have dims := legal_dimensions s.cfg legal
    have pixels : 0 < pixelCount s.cfg := Nat.mul_pos (by omega) (by omega)
    exact frameInv_of_emit rfl
      ⟨⟨rate, rfl, rfl, rfl, rfl, counts⟩, pixels, le_rfl, by simp, by simp [edgesBuilt]⟩ noFrame

/-- EMIT appends the next edge; after the last one the whole frame is handed over. -/
theorem frameInv_emitStep (s : State) (built : emitInv s) (noFrame : s.inFlight = none) :
    frameInv (emitStep s) := by
  rcases emitStep_cases s with ⟨high, e⟩ | ⟨low, last, e⟩ | ⟨low, more, e⟩ <;> rw [e]
  · exact frameInv_of_emit rfl (emitInv_high s built high) noFrame
  · obtain ⟨counts, -⟩ := id built
    exact ⟨by simp, fun _ => ⟨counts, congrArg some (emitLow_last s built low last)⟩, by simp⟩
  · exact frameInv_of_emit rfl (emitInv_low s built low more) noFrame

theorem frameInv_coreStep (s : State) (legal : s.cfg.legal = true) (h : frameInv s) :
    frameInv (coreStep s) := by
  obtain ⟨built, -, noFrame⟩ := id h
  cases hc : s.coreState with
  | idle | wait | halt => rwa [coreStep_of_still s (by simp [hc])]
  | prep =>
    simp only [coreStep, hc]
    exact frameInv_prepStep s legal (noFrame (by simp [hc]))
  | emit =>
    simp only [coreStep, hc]
    exact frameInv_emitStep s (built hc) (noFrame (by simp [hc]))

/-- An answer that is not discarded ends the frame. -/
theorem frameInv_receiveAnswer (r : TxAnswer) (s : State) (h : frameInv s) :
    frameInv (receiveAnswer r s) := by
  rcases receiveAnswer_cases r s with ⟨_, -, e⟩ | ⟨-, -, e⟩ | ⟨-, -, -, e⟩ | ⟨-, -, -, e⟩ <;> rw [e]
  · exact h
  · exact h
  · exact frameInv_of_no_frame (by simp) (by simp) rfl
  · exact frameInv_raiseFatal _ s

theorem frameInv_resetOf (c : Config) : frameInv (State.resetOf c) :=
  frameInv_of_no_frame (by simp [State.resetOf]) (by simp [State.resetOf]) rfl

/-- Settles O54: a command is accepted in IDLE only, where no frame is being built. -/
theorem stepKeepsTheFrameInvariant : Obligations.StepKeepsTheFrameInvariant := fun s t hs h =>
  step_keeps frameInv
    (pop := fun _ _ hu => hu)
    (read := fun _ _ hu => hu)
    (rate := fun _ _ hu => hu)
    (write := fun u _ _ _ hu hw => writeEffect_keeps frameInv hw (fun _ _ _ _ _ _ _ _ => hu)
      (fun i idle => frameInv_effectOf i u idle hu))
    (core := frameInv_coreStep)
    (answer := fun u r _ => frameInv_receiveAnswer r u)
    (reset := fun _ _ _ => frameInv_of_no_frame (by simp) (by simp) rfl)
    s t h hs

end Sys2Proof.Machine

namespace Sys2Proof.Machine

/-! ## The flag invariant (spec 10_state R36, R45, 60_exceptions R221) -/

theorem dirCode_le (d : Direction) : (dirCode d).toNat ≤ 8 := by cases d <;> decide

/-- The motion commands write the code of a Direction, the others leave `DIR` alone. -/
theorem effectOf_dir_le (i : Instr) (s : State) (h : s.dir.toNat ≤ 8) :
    (effectOf i s).dir.toNat ≤ 8 := by
  cases i with
  | quant => exact dirCode_le _
  | movec =>
    rw [effectOf]
    rcases movecEffect_cases s with ⟨-, e⟩ | ⟨-, _, _, -, -, e⟩ <;> rw [e] <;> exact dirCode_le _
  | moved =>
    rw [effectOf]
    rcases movedEffect_cases s with ⟨-, e⟩ | ⟨-, _, _, -, -, e⟩ <;> rw [e] <;> exact dirCode_le _
  | nop | clear | setpix | render | ramp | encode => exact h

theorem step_keeps_dir_le (s t : State) (h : step s = .next t) (hs : s.dir.toNat ≤ 8) :
    t.dir.toNat ≤ 8 :=
  step_keeps_results (fun u => u.dir.toNat ≤ 8)
    (results := fun _ _ same hu => by rw [same.dir]; exact hu)
    (effect := fun u i _ => effectOf_dir_le i u)
    (reset := fun _ _ => by simp [resetDir]) s t h hs

/-- `ERRCODE` is 0 exactly outside HALT, and holds a code of 60_exceptions R221. -/
def errcodeInv (s : State) : Prop :=
  (s.errcode = 0#4 ↔ s.coreState ≠ .halt) ∧ s.errcode.toNat ≤ 3

theorem flagInv_iff (s : State) : flagInv s ↔ s.dir.toNat ≤ 8 ∧ errcodeInv s := Iff.rfl

/-- Outside HALT nothing has been reported. -/
theorem errcodeInv_of_live {s : State} (live : s.coreState ≠ .halt) (zero : s.errcode = 0#4) :
    errcodeInv s := by
  simp [errcodeInv, live, zero]

/-- A fatal error reports its code and halts the Core (60_exceptions R224). -/
theorem errcodeInv_raiseFatal (code : BitVec 4) (s : State) (h : code ≠ 0#4)
    (h3 : code.toNat ≤ 3) : errcodeInv (raiseFatal code s) := by
  simp [errcodeInv, h, h3]

theorem errcodeInv_effectOf (i : Instr) (s : State) (idle : s.coreState = .idle)
    (h : errcodeInv s) : errcodeInv (effectOf i s) := by
  obtain ⟨zero, -⟩ := h
  have errcode : (effectOf i s).errcode = s.errcode :=
    (congrArg State.errcode (effectOf_frame i s) :)
  refine errcodeInv_of_live ?_ (errcode.trans (zero.2 (by simp [idle])))
  rw [effectOf_coreState, idle]; split <;> decide

/-- PREP and EMIT go to a live state with `ERRCODE` still 0, or halt with a code. -/
theorem errcodeInv_coreStep (s : State) (h : errcodeInv s) : errcodeInv (coreStep s) := by
  obtain ⟨zero, -⟩ := id h
  cases hc : s.coreState with
  | idle | wait | halt => rwa [coreStep_of_still s (by simp [hc])]
  | prep =>
    simp only [coreStep, hc]
    rcases prepStep_cases s with ⟨-, e⟩ | ⟨-, -, e⟩ | ⟨-, -, e⟩ <;> rw [e]
    · exact errcodeInv_raiseFatal _ s (by decide) (by decide)
    · exact errcodeInv_raiseFatal _ s (by decide) (by decide)
    · exact errcodeInv_of_live (by simp) (zero.2 (by simp [hc]))
  | emit =>
    simp only [coreStep, hc]
    rcases emitStep_cases s with ⟨-, e⟩ | ⟨-, -, e⟩ | ⟨-, -, e⟩ <;> rw [e] <;>
      exact errcodeInv_of_live (by simp) (zero.2 (by simp [hc]))

/-- An answer that ends the frame goes to IDLE, or halts with `TX_ERROR`. -/
theorem errcodeInv_receiveAnswer (r : TxAnswer) (s : State) (h : errcodeInv s) :
    errcodeInv (receiveAnswer r s) := by
  obtain ⟨zero, -⟩ := id h
  rcases receiveAnswer_cases r s with
    ⟨_, -, e⟩ | ⟨-, -, e⟩ | ⟨-, wait, -, e⟩ | ⟨-, -, -, e⟩ <;> rw [e]
  · exact h
  · exact h
  · exact errcodeInv_of_live (by simp) (zero.2 (by simp [wait]))
  · exact errcodeInv_raiseFatal _ s (by decide) (by decide)

theorem step_keeps_errcodeInv (s t : State) (h : step s = .next t) (hs : errcodeInv s) :
    errcodeInv t :=
  step_keeps errcodeInv
    (pop := fun _ _ hu => hu)
    (read := fun _ _ hu => hu)
    (rate := fun _ _ hu => hu)
    (write := fun u _ _ _ hu hw => writeEffect_keeps errcodeInv hw (fun _ _ _ _ _ _ _ _ => hu)
      (fun i idle => errcodeInv_effectOf i u idle hu))
    (core := fun u _ => errcodeInv_coreStep u)
    (answer := fun u r _ => errcodeInv_receiveAnswer r u)
    (reset := fun _ _ _ => errcodeInv_of_live (by simp) rfl)
    s t h hs

/-- Settles O53: `DIR` is written by the motion commands, `ERRCODE` by a fatal error, and both by
reset. -/
theorem stepKeepsTheFlagInvariant : Obligations.StepKeepsTheFlagInvariant := by
  intro s t hs h
  obtain ⟨dir, err⟩ := (flagInv_iff s).1 hs
  exact (flagInv_iff t).2 ⟨step_keeps_dir_le s t h dir, step_keeps_errcodeInv s t h err⟩

/-! ## Right after reset (spec 70_reset R261) -/

theorem flagInv_resetOf (c : Config) : flagInv (State.resetOf c) :=
  (flagInv_iff _).2 ⟨by simp [State.resetOf, resetDir],
    errcodeInv_of_live (by simp [State.resetOf]) rfl⟩

/-- Settles O55, invariant by invariant. -/
theorem invariantsHoldAtReset : Obligations.InvariantsHoldAtReset := fun c legal =>
  ⟨memoryInv_resetOf c, positionInv_resetOf c legal, flagInv_resetOf c, frameInv_resetOf c⟩

/-! ## Sticky flags (spec 10_state R34, 60_exceptions R229, R230) -/

/-- A sticky flag that is 1 stays 1. -/
structure StickiesKept (s t : State) : Prop where
  badcmd : s.badcmd = true → t.badcmd = true
  drop : s.drop = true → t.drop = true

theorem StickiesKept.of_eq {s t : State} (badcmd : t.badcmd = s.badcmd) (drop : t.drop = s.drop) :
    StickiesKept s t :=
  ⟨fun h => badcmd.trans h, fun h => drop.trans h⟩

/-- Taking an event off the list touches no flag. -/
theorem StickiesKept.of_popInput {s t : State} {rest : List Input}
    (h : StickiesKept (popInput rest s) t) : StickiesKept s t :=
  ⟨h.badcmd, h.drop⟩

theorem effectOf_stickiesKept (i : Instr) (s : State) : StickiesKept s (effectOf i s) := by
  rw [effectOf_frame]; exact .of_eq rfl rfl

theorem coreStep_stickiesKept (s : State) : StickiesKept s (coreStep s) := by
  rw [coreStep_frame]; exact .of_eq rfl rfl

theorem receiveAnswer_stickiesKept (r : TxAnswer) (s : State) :
    StickiesKept s (receiveAnswer r s) := by
  rw [receiveAnswer_frame]; exact .of_eq rfl rfl

theorem whenIdle_stickiesKept (f : State → State) (s : State) (h : StickiesKept s (f s)) :
    StickiesKept s (whenIdle f s) := by
  rcases whenIdle_cases f s with ⟨-, e⟩ | ⟨-, e⟩ | ⟨-, e⟩ <;> rw [e]
  exacts [h, ⟨id, fun _ => rfl⟩, .of_eq rfl rfl]

/-- A command word, legal or reserved, sets flags at most. -/
theorem issueCommand_stickiesKept (w : Word) (s t : State) (h : issueCommand w s = .next t) :
    StickiesKept s t := by
  rw [issueCommand_eq] at h
  cases h
  apply whenIdle_stickiesKept
  cases decode w with
  | ok i => exact effectOf_stickiesKept i s
  | error _ => exact ⟨fun _ => rfl, id⟩

theorem writeReg_stickiesKept (r : Reg) (v : Word) (s t : State) (other : r ≠ .status)
    (h : writeReg r v s = .next t) : StickiesKept s t := by
  cases r with
  | status => exact absurd rfl other
  | cmd => exact issueCommand_stickiesKept v s t h
  | cfg | dir | pitch | roll | dt | mult | color | xy | pos | fx | fy =>
    cases h; exact .of_eq rfl rfl

/-! ### Writes by offset -/

theorem memWrite_halt (off : Offset) (v : Word) (s : State) (halted : s.coreState = .halt) :
    memWrite off v s = .next s := by
  rw [memWrite, if_pos halted]

theorem memWrite_regOffset (r : Reg) (v : Word) (s : State) (live : s.coreState ≠ .halt) :
    memWrite (regOffset r) v s = writeReg r v s := by
  rw [memWrite, if_neg live, regAt_regOffset]

/-- A write to an offset that is no register is ignored (20_memory R76, R77). -/
theorem memWrite_of_no_reg (off : Offset) (v : Word) (s : State) (noReg : regAt off = none) :
    memWrite off v s = .next s := by
  rw [memWrite, noReg, ite_self]

/-- Of all Host writes only the one to `STATUS` clears a sticky flag. -/
theorem memWrite_stickiesKept (off : Offset) (v : Word) (s t : State)
    (h : memWrite off v s = .next t) :
    StickiesKept s t ∨ (off = regOffset .status ∧ t = clearSticky v s) := by
  by_cases halted : s.coreState = .halt
  · rw [memWrite_halt off v s halted] at h
    cases h; exact .inl (.of_eq rfl rfl)
  cases hr : regAt off with
  | none =>
    rw [memWrite_of_no_reg off v s hr] at h
    cases h; exact .inl (.of_eq rfl rfl)
  | some r =>
    obtain rfl := (regAt_eq_some off r).1 hr
    rw [memWrite_regOffset r v s halted] at h
    by_cases status : r = .status
    · subst status; cases h; exact .inr ⟨rfl, rfl⟩
    · exact .inl (writeReg_stickiesKept r v s t status h)

/-- A step clears a sticky flag at reset or at a write to `STATUS` only. -/
theorem step_stickiesKept (s t : State) (h : step s = .next t) :
    StickiesKept s t ∨ ∃ rest, s.inputs = .reset :: rest ∨
      ∃ v, s.inputs = .host (.write (regOffset .status) .bits32 v) :: rest ∧
        t = clearSticky v (popInput rest s) := by
  obtain ⟨-, ⟨-, rfl⟩ | ⟨i, rest, next, hi⟩⟩ := step_cases s t h
  · exact .inl (coreStep_stickiesKept s)
  cases i with
  | host a =>
    rcases hostAccess_cases a _ t hi with ⟨off, -, -, rfl⟩ | ⟨off, v, rfl, -, hw⟩
    · exact .inl (.of_eq rfl rfl)
    · rcases memWrite_stickiesKept off v _ t hw with kept | ⟨rfl, e⟩
      · exact .inl kept.of_popInput
      · exact .inr ⟨rest, .inr ⟨v, next, e⟩⟩
  | core =>
    cases hi; exact .inl (coreStep_stickiesKept (popInput rest s)).of_popInput
  | answer r =>
    cases hi; exact .inl (receiveAnswer_stickiesKept r (popInput rest s)).of_popInput
  | tickRate v => cases hi; exact .inl (.of_eq rfl rfl)
  | reset => exact .inr ⟨rest, .inl next⟩

/-- Settles O8: a flag that fell was not kept, and a write to `STATUS` clears it by its own bit. -/
theorem stickyFlagsStayUntilAcknowledged : Obligations.StickyFlagsStayUntilAcknowledged := by
  intro s t h
  rcases step_stickiesKept s t h with kept | ⟨rest, reset | ⟨v, write, rfl⟩⟩
  · exact ⟨fun set fell => absurd (kept.badcmd set) (by simp [fell]),
      fun set fell => absurd (kept.drop set) (by simp [fell])⟩
  · exact ⟨fun _ _ => ⟨rest, .inl reset⟩, fun _ _ => ⟨rest, .inl reset⟩⟩
  · refine ⟨fun set fell => ⟨rest, .inr ⟨v, ?_, write⟩⟩,
      fun set fell => ⟨rest, .inr ⟨v, ?_, write⟩⟩⟩
    · simpa [set] using fell
    · simpa [set] using fell

end Sys2Proof.Machine

namespace Sys2Proof.Machine

/-! ## Bit fields side by side -/

/-- The value of two fields side by side, by their weights. -/
theorem toNat_append_weights {m n : Nat} (x : BitVec m) (y : BitVec n) :
    (x ++ y).toNat = x.toNat * 2 ^ n + y.toNat := by
  rw [BitVec.toNat_append, ← Nat.shiftLeft_add_eq_or_of_lt y.isLt, Nat.shiftLeft_eq]

/-- The value of `{y[7:0], x[7:0]}` (10_state R42, R46). -/
theorem packXY_toNat (x y : Nat) (hx : x < 256) (hy : y < 256) :
    (packXY x y).toNat = y * 256 + x := by
  rw [packXY, toNat_append_weights, BitVec.toNat_ofNat, BitVec.toNat_ofNat]
  omega

/-! ## `STATUS` (spec 10_state R34 to R37) -/

/-- Settles O41: the weights of the five fields, `BUSY` and `FATAL` as their states say. -/
theorem statusWordHoldsItsFiveFields : Obligations.StatusWordHoldsItsFiveFields := by
  intro s
  have weights : (statusWord s).toNat = 16 * s.errcode.toNat + 8 * s.drop.toNat +
      4 * s.badcmd.toNat + 2 * (fatal s).toNat + (busy s).toNat := by
    simp only [statusWord, toNat_append_weights, BitVec.toNat_ofBool, BitVec.toNat_ofNat]
    omega
  simp only [weights, Bool.toNat, cond_eq_ite, busy_iff, fatal_iff]
  split_ifs <;> omega

/-- The mask of `wait_idle` takes `BUSY` out of `STATUS` (10_state R35). -/
theorem statusWord_and_one (s : State) : statusWord s &&& 1#32 = 0#32 ↔ busy s = false := by
  have bit0 : (statusWord s).getLsbD 0 = busy s := by
    rw [statusWord, BitVec.getLsbD_append, if_pos (by decide)]
    cases busy s <;> rfl
  rw [BitVec.and_one_eq_setWidth_ofBool_getLsbD, bit0]
  cases busy s <;> decide

/-- Settles O42: outside HALT the write is `clearSticky`, bit by bit. -/
theorem statusWriteClearsOnlyItsOnes : Obligations.StatusWriteClearsOnlyItsOnes := by
  refine fun s v => ⟨fun live => ?_, memWrite_halt _ v s⟩
  have bit : ∀ f clear : Bool, (f && !clear) = if clear then false else f := by decide
  calc memWrite (regOffset .status) v s
      = .next (clearSticky v s) := memWrite_regOffset .status v s live
    _ = _ := by rw [clearSticky, bit, bit]

/-! ## Registers -/

theorem memRead_regOffset (r : Reg) (s : State) : memRead (regOffset r) s = readReg r s := by
  rw [memRead, regAt_regOffset]

/-- `CFG` by its weights (10_state R44). -/
theorem cfgWord_toNat (c : Config) :
    (cfgWord c).toNat = c.height % 2 ^ 9 * 2 ^ 16 + c.width % 2 ^ 9 := by
  simp only [cfgWord, toNat_append_weights, BitVec.toNat_ofNat]
  omega

/-- Settles O40: each read is its register's word, `CFG` and the narrow ones by their value. -/
theorem registerReadsFollowTheMap : Obligations.RegisterReadsFollowTheMap := by
  intro s
  have read := fun r => memRead_regOffset r s
  have zeroExtended : ∀ {w : Nat} (x : BitVec w), w ≤ 32 → (x.setWidth 32).toNat = x.toNat :=
    fun x h => BitVec.toNat_setWidth_of_le h
  refine ⟨read .status, read .cmd, ?_, ?_, read .pitch, read .roll, read .dt, read .mult, ?_, ?_,
    ?_, read .fx, read .fy⟩
  · exact (congrArg BitVec.toNat (read .cfg)).trans (cfgWord_toNat s.cfg)
  · exact (congrArg BitVec.toNat (read .dir)).trans (zeroExtended s.dir (by decide))
  · exact (congrArg BitVec.toNat (read .color)).trans (zeroExtended s.color (by decide))
  · exact (congrArg BitVec.toNat (read .xy)).trans (zeroExtended s.xy (by decide))
  · exact (congrArg BitVec.toNat (read .pos)).trans (zeroExtended s.pos (by decide))

/-- The low bits of a word as a number. -/
theorem extractLsb'_zero_eq_ofNat_mod {w : Nat} (n : Nat) (v : BitVec w) :
    v.extractLsb' 0 n = BitVec.ofNat n (v.toNat % 2 ^ n) := by
  apply BitVec.eq_of_toNat_eq
  simp

/-- Settles O43: each write is its register's, `COLOR` and `XY` keeping their low bits. -/
theorem dataRegisterWritesStoreTheirBits : Obligations.DataRegisterWritesStoreTheirBits := by
  intro s v live
  have write := fun r => memWrite_regOffset r v s live
  refine ⟨write .pitch, write .roll, write .dt, write .mult, (write .color).trans ?_,
    (write .xy).trans ?_⟩
  · rw [writeReg, extractLsb'_zero_eq_ofNat_mod 24 v]
  · rw [writeReg, extractLsb'_zero_eq_ofNat_mod 16 v]

/-- A write to `CFG` is ignored in every state (20_memory R77). -/
theorem memWrite_cfg (v : Word) (s : State) : memWrite (regOffset .cfg) v s = .next s := by
  by_cases halted : s.coreState = .halt
  · exact memWrite_halt _ v s halted
  · exact memWrite_regOffset .cfg v s halted

/-- Settles O47: no write and no step touches the parameters. -/
theorem cfgReportsTheGrid : Obligations.CfgReportsTheGrid := by
  intro s legal
  have read := fun u => memRead_regOffset .cfg u
  have dims := legal_dimensions s.cfg legal
  refine ⟨?_, fun v => memWrite_cfg v s, fun t h => ?_⟩
  · calc (memRead (regOffset .cfg) s).toNat
        = (cfgWord s.cfg).toNat := congrArg BitVec.toNat (read s)
      _ = s.cfg.height % 2 ^ 9 * 2 ^ 16 + s.cfg.width % 2 ^ 9 := cfgWord_toNat s.cfg
      _ = s.cfg.height * 2 ^ 16 + s.cfg.width := by omega
  · calc memRead (regOffset .cfg) t
        = cfgWord t.cfg := read t
      _ = cfgWord s.cfg := by rw [step_cfg s t h]
      _ = memRead (regOffset .cfg) s := (read s).symm

/-! ## The frame-buffer window (spec 10_state R49) -/

/-- The registers lie below the window. -/
theorem regAt_window (off : Offset) (h : windowBase ≤ off.toNat) : regAt off = none := by
  rw [Option.eq_none_iff_forall_ne_some]
  intro r hr
  have below : (regOffset r).toNat < windowBase := by cases r <;> decide
  rw [(regAt_eq_some off r).1 hr] at h
  omega

/-- The buffer of a legal part fits in its window of the aperture. -/
theorem pixelCount_le (c : Config) (legal : c.legal = true) : pixelCount c ≤ 65536 := by
  obtain ⟨-, width, -, height, -⟩ := legal_dimensions c legal
  exact Nat.mul_le_mul width height

/-- A read of the window's word `i` is the pixel, zero-extended. -/
theorem memRead_window (s : State) (i : Nat) (off : Offset) (hi : i < pixelCount s.cfg)
    (h : off.toNat = windowBase + 4 * i) : memRead off s = (pixel s i).setWidth 32 := by
  have inside : inWindow s.cfg off = true := by simp [inWindow, h, hi]
  have index : (off.toNat - windowBase) / 4 = i := by omega
  rw [memRead, regAt_window off (by omega)]
  simp only [inside, index, if_true]

/-- Settles O46: the window of a legal part lies in the aperture, above every register. -/
theorem windowReadsThePixels : Obligations.WindowReadsThePixels := by
  intro s i legal hi
  have fits := pixelCount_le s.cfg legal
  have hi' : i < pixelCount s.cfg := hi
  have off : (BitVec.ofNat 19 (0x40000 + 4 * i)).toNat = windowBase + 4 * i := by
    rw [BitVec.toNat_ofNat, windowBase]; omega
  refine ⟨?_, fun v => memWrite_of_no_reg _ v s (regAt_window _ (by omega))⟩
  rw [memRead_window s i _ hi off, BitVec.toNat_setWidth_of_le (by decide)]

/-! ## The reset values (spec 10_state R33, 70_reset R261) -/

theorem statusWord_resetOf (c : Config) : statusWord (State.resetOf c) = 0#32 := by
  apply BitVec.eq_of_toNat_eq
  rw [statusWordHoldsItsFiveFields]
  simp [State.resetOf]

/-- Every pixel of an empty memory is black. -/
theorem readPixel_nil (i : Nat) : readPixel [] i = 0#24 := by
  simp [readPixel]

/-- Settles O38: the fixed fields by definition, `POS`, `FX` and `FY` by the centre of the grid. -/
theorem resetValuesAreTheSpecs : Obligations.ResetValuesAreTheSpecs := by
  rintro c s legal rfl
  have dims := legal_dimensions c legal
  exact ⟨statusWord_resetOf c, rfl, rfl, rfl, rfl, rfl, rfl, rfl, rfl, rfl, rfl, rfl, rfl,
    packXY_toNat _ _ (show c.width / 2 < 256 by omega) (show c.height / 2 < 256 by omega),
    by exact_mod_cast unitsOf_i2f _ (show c.width / 2 ≤ 256 by omega),
    by exact_mod_cast unitsOf_i2f _ (show c.height / 2 ≤ 256 by omega), readPixel_nil⟩

/-- Settles O13, table by table. -/
theorem directionTablesAreTheSpecs : Obligations.DirectionTablesAreTheSpecs :=
  ⟨rfl, fun _ => rfl, rfl⟩

end Sys2Proof.Machine

namespace Sys2Proof.Machine

/-! ## Host programs (spec 30_encoding R95, R96) -/

/-! ### One statement -/

theorem decode_encode (i : Instr) : decode (encode i) = .ok i := by cases i <;> decide

/-- A `wr` outside HALT is the register's write, and the Host goes on. -/
theorem runStmt_wr (r : Reg) (v : Word) (h : HostAgent) (s t : State) (live : s.coreState ≠ .halt)
    (write : writeReg r v s = .next t) : runStmt (.wr r v) h s = .next (h.advance, t) := by
  simp only [runStmt, hostAccess_writeReg r v s live, write]

/-- A `rd` stores the register's word, which also stands on the read port. -/
theorem runStmt_rd (r : Reg) (name : String) (h : HostAgent) (s : State) :
    runStmt (.rd r name) h s =
      .next (h.store name (readReg r s), { s with hostRead := some (readReg r s) }) := by
  simp only [runStmt, hostReadInto, hostAccess_readReg, memRead_regOffset]

theorem hostStep_of_getElem? (st : Stmt) (h : HostAgent) (s : State)
    (next : h.program[h.next]? = some st) : hostStep h s = runStmt st h s := by
  rw [hostStep, next]

theorem var_store_same (h : HostAgent) (name : String) (v : Word) :
    (h.store name v).var name = v := by
  simp [HostAgent.var, HostAgent.store]

theorem var_store_of_ne (h : HostAgent) (name other : String) (v : Word) (ne : other ≠ name) :
    (h.store name v).var other = h.var other := by
  simp [HostAgent.var, HostAgent.store, ne.symm]

/-! ### The operands of `setxy` and `setrgb` -/

/-- A field shifted above another one stands beside it. -/
theorem toNat_or_of_lt_two_pow {w : Nat} (k : Nat) (high low : BitVec w)
    (multiple : 2 ^ k ∣ high.toNat) (small : low.toNat < 2 ^ k) :
    (high ||| low).toNat = high.toNat + low.toNat := by
  obtain ⟨a, e⟩ := multiple
  rw [BitVec.toNat_or, e, Nat.two_pow_add_eq_or_of_lt small]

theorem toNat_byte (a : Nat) (ha : a < 256) : (BitVec.ofNat 32 a).toNat = a := by
  rw [BitVec.toNat_ofNat]; omega

/-- A byte shifted to bit `k` of a word. -/
theorem toNat_byte_shiftLeft (a k : Nat) (ha : a < 256) (hk : k ≤ 16) :
    (BitVec.ofNat 32 a <<< k).toNat = a * 2 ^ k := by
  have fits : a * 2 ^ k < 2 ^ 32 :=
    calc a * 2 ^ k ≤ 255 * 2 ^ 16 :=
          Nat.mul_le_mul (by omega) (Nat.pow_le_pow_right (by decide) hk)
      _ < 2 ^ 32 := by decide
  rw [BitVec.toNat_shiftLeft, toNat_byte a ha, Nat.shiftLeft_eq, Nat.mod_eq_of_lt fits]

theorem setXY_word (x y : Nat) (hx : x < 256) (hy : y < 256) :
    (BitVec.ofNat 32 y <<< 8 ||| BitVec.ofNat 32 x).extractLsb' 0 16 =
      BitVec.ofNat 16 (y * 2 ^ 8 + x) := by
  have ey := toNat_byte_shiftLeft y 8 hy (by decide)
  have ex := toNat_byte x hx
  rw [extractLsb'_zero_eq_ofNat_mod, toNat_or_of_lt_two_pow 8 _ _ (by omega) (by omega), ex, ey,
    Nat.mod_eq_of_lt (by omega)]

theorem setRgb_word (r g b : Nat) (hr : r < 256) (hg : g < 256) (hb : b < 256) :
    (BitVec.ofNat 32 r <<< 16 ||| BitVec.ofNat 32 g <<< 8 ||| BitVec.ofNat 32 b).extractLsb' 0 24 =
      BitVec.ofNat 24 (r * 2 ^ 16 + g * 2 ^ 8 + b) := by
  have er := toNat_byte_shiftLeft r 16 hr (by decide)
  have eg := toNat_byte_shiftLeft g 8 hg (by decide)
  have eb := toNat_byte b hb
  have erg := toNat_or_of_lt_two_pow 16 (BitVec.ofNat 32 r <<< 16) (BitVec.ofNat 32 g <<< 8)
    (by omega) (by omega)
  rw [extractLsb'_zero_eq_ofNat_mod, toNat_or_of_lt_two_pow 8 _ _ (by omega) (by omega), erg, er,
    eg, eb, Nat.mod_eq_of_lt (by omega)]

/-! ### `wait_idle` -/

/-- The statements of a block that stands in a program. -/
theorem getElem?_block (before block later : List Stmt) (k : Nat) (hk : k < block.length) :
    (before ++ block ++ later)[before.length + k]? = block[k]? := by
  rw [List.append_assoc, List.getElem?_append_right (by omega),
    List.getElem?_append_left (by omega), Nat.add_sub_cancel_left]

/-- A label that does not stand earlier in the program is found where it stands. -/
theorem labelIndex_eq (h : HostAgent) (before later : List Stmt) (name : String)
    (program : h.program = before ++ .label name :: later) (fresh : .label name ∉ before) :
    h.labelIndex name = before.length := by
  have absent : before.findIdx (fun st => decide (st = .label name)) = before.length :=
    List.findIdx_eq_length.2 fun st mem => decide_eq_false fun e => fresh (e ▸ mem)
  rw [HostAgent.labelIndex, program, List.findIdx_append, absent, if_neg (lt_irrefl _),
    List.findIdx_cons, decide_eq_true rfl, cond_true, Nat.zero_add]

/-- The branch of `wait_idle`: back to the label exactly when the `STATUS` read was busy. -/
theorem runStmt_bnz_status (h : HostAgent) (v label : String) (s u : State)
    (read : h.var v = statusWord s) : runStmt (.bnz v 0x1#32 label) h u =
      .next ({ h with next := if busy s then h.labelIndex label else h.next + 1 }, u) := by
  rw [runStmt, read]
  cases idle : busy s with
  | true => rw [if_neg (by simp [statusWord_and_one, idle])]; rfl
  | false => rw [if_pos (by simp [statusWord_and_one, idle])]; rfl

/-- Settles O50: each statement by its own rule; the three of `wait_idle` by their places in the
program. -/
theorem pseudoInstructionsDoWhatTheyName : Obligations.PseudoInstructionsDoWhatTheyName := by
  refine ⟨fun h s live => ⟨?ack, fun x y hx hy => ?setxy, fun r g b hr hg hb => ?setrgb,
    fun i t run => ?cmd⟩, fun h s before later fresh v program freshLabel => ?waitIdle⟩
  case ack =>
    exact runStmt_wr .status _ h s _ live (by simp [writeReg, clearSticky])
  case setxy =>
    exact runStmt_wr .xy _ h s _ live (by rw [writeReg, setXY_word x y hx hy]; rfl)
  case setrgb =>
    exact runStmt_wr .color _ h s _ live (by rw [writeReg, setRgb_word r g b hr hg hb]; rfl)
  case cmd =>
    exact runStmt_wr .cmd _ h s t live (by rw [writeReg, issueCommand, decode_encode]; exact run)
  case waitIdle =>
    have statement : ∀ k < 3, h.program[before.length + k]? = (waitIdle fresh v)[k]? := by
      rw [program]; exact getElem?_block before (waitIdle fresh v) later
    have label : (h.store v (statusWord s)).labelIndex fresh = before.length :=
      labelIndex_eq _ before _ fresh (program.trans (List.append_assoc _ _ _))
        freshLabel
    refine ⟨fun next => ?_, fun next => ⟨h.store v (statusWord s), ?_, rfl, ?_,
      var_store_same h v _, fun w ne => var_store_of_ne h v w _ ne, fun u => ?_⟩⟩
    · rw [hostStep_of_getElem? (.label fresh) h s (next ▸ statement 0 (by decide)), ← next]
      rfl
    · rw [hostStep_of_getElem? (.rd .status v) h s (next ▸ statement 1 (by decide)), runStmt_rd]
      rfl
    · rw [HostAgent.store, next]
    · have nextBnz : (h.store v (statusWord s)).next = before.length + 2 := by
        rw [HostAgent.store, next]
      rw [hostStep_of_getElem? (.bnz v 0x1#32 fresh) _ u (nextBnz ▸ statement 2 (by decide)),
        runStmt_bnz_status _ v fresh s u (var_store_same h v _), label, nextBnz]

end Sys2Proof.Machine

namespace Sys2Proof.Machine

/-! ## The register map and what lies outside it (spec 20_memory R72, R76, R77) -/

/-- The registers stand at word offsets up to that of `FY` (10_state R33). -/
theorem regOffset_in_map (r : Reg) : (regOffset r).toNat ≤ 0x030 ∧ (regOffset r).toNat % 4 = 0 := by
  cases r <;> decide

/-- An offset above the map, or one that is no word offset, is no register. -/
theorem regAt_outside_map (off : Offset) (h : 0x030 < off.toNat ∨ off.toNat % 4 ≠ 0) :
    regAt off = none := by
  rw [Option.eq_none_iff_forall_ne_some]
  intro r hr
  have inMap := regOffset_in_map r
  rw [← (regAt_eq_some off r).1 hr] at inMap
  omega

theorem inWindow_eq_false (c : Config) (off : Offset)
    (h : off.toNat < windowBase ∨ windowBase + 4 * pixelCount c ≤ off.toNat) :
    inWindow c off = false := by
  simp only [inWindow, Bool.and_eq_false_iff, decide_eq_false_iff_not]
  omega

theorem memRead_unmapped (off : Offset) (s : State) (noReg : regAt off = none)
    (outside : inWindow s.cfg off = false) : memRead off s = 0#32 := by
  rw [memRead, noReg]
  exact if_neg (Bool.eq_false_iff.1 outside)

/-- Settles O44: such an offset is neither a register nor in the window. -/
theorem unmappedOffsetsReadZeroAndIgnoreWrites :
    Obligations.UnmappedOffsetsReadZeroAndIgnoreWrites := by
  intro s off notReg notWindow
  have noReg : regAt off = none := regAt_outside_map off notReg
  exact ⟨memRead_unmapped off s noReg (inWindow_eq_false s.cfg off notWindow),
    fun v => memWrite_of_no_reg off v s noReg⟩

/-- A register whose own write is ignored ignores every Host write, in HALT too. -/
theorem memWrite_of_writeReg_ignored (r : Reg) (v : Word) (s : State)
    (ignored : writeReg r v s = .next s) : memWrite (regOffset r) v s = .next s := by
  by_cases halted : s.coreState = .halt
  · exact memWrite_halt _ v s halted
  · exact (memWrite_regOffset r v s halted).trans ignored

/-- A write to `STATUS` touches the sticky flags at most: none in HALT (60_exceptions R226). -/
theorem memWrite_status_frame (v : Word) (s : State) :
    ∃ b d, memWrite (regOffset .status) v s = .next { s with badcmd := b, drop := d } := by
  by_cases halted : s.coreState = .halt
  · exact ⟨s.badcmd, s.drop, memWrite_halt _ v s halted⟩
  · exact ⟨_, _, memWrite_regOffset .status v s halted⟩

/-- Settles O45, register by register; in the window and above it there is none. -/
theorem readOnlyRegistersIgnoreWrites : Obligations.ReadOnlyRegistersIgnoreWrites := by
  intro s v
  have ignored := fun r => memWrite_of_writeReg_ignored r v s
  exact ⟨ignored .cfg rfl, ignored .dir rfl, ignored .pos rfl, ignored .fx rfl, ignored .fy rfl,
    fun off above => memWrite_of_no_reg off v s (regAt_window off above),
    memWrite_status_frame v s⟩

/-! ## The bus contract (spec 20_memory R73, R74, R79) -/

/-- The width is looked at first (20_memory R73). -/
theorem hostAccess_of_width_ne (a : Access) (s : State) (h : a.width ≠ .bits32) :
    hostAccess a s = .refused .accessWidth := by
  simp [hostAccess, Access.wordWide, h]

/-- Of the accesses of the right width a misaligned one is refused (20_memory R74). -/
theorem hostAccess_of_misaligned (a : Access) (s : State) (wide : a.width = .bits32)
    (h : a.offset.toNat % 4 ≠ 0) : hostAccess a s = .refused .misaligned := by
  simp [hostAccess, Access.wordWide, Access.aligned, wide, h]

/-- Settles O48: the two refusals, and the accepted read and write. -/
theorem onlyAlignedWordAccessesAreAccepted : Obligations.OnlyAlignedWordAccessesAreAccepted := by
  intro s off width v
  refine ⟨fun narrow => ⟨?_, ?_⟩, fun wide misaligned => ⟨?_, ?_⟩, ?_⟩
  · exact hostAccess_of_width_ne (.read off width) s narrow
  · exact hostAccess_of_width_ne (.write off width v) s narrow
  · exact hostAccess_of_misaligned (.read off width) s wide misaligned
  · exact hostAccess_of_misaligned (.write off width v) s wide misaligned
  · rintro rfl aligned
    obtain ⟨t, written, -⟩ := memWrite_cases off v s
    exact ⟨⟨_, hostAccess_read off s aligned⟩, t, (hostAccess_write off v s aligned).trans written⟩

/-- No register and no pixel depends on the read port (log 13). -/
theorem memRead_hostRead (off : Offset) (s : State) (port : Option Word) :
    memRead off { s with hostRead := port } = memRead off s := by
  unfold memRead
  cases regAt off with
  | none => rfl
  | some r => cases r <;> rfl

/-- Settles O49: the second read finds the word of the first on the read port already. -/
theorem readsHaveNoSideEffects : Obligations.ReadsHaveNoSideEffects := by
  intro s off aligned
  refine ⟨_, hostAccess_read off s aligned, rfl, ?_⟩
  rw [hostAccess_read off _ aligned, memRead_hostRead off s]
  rfl

/-! ## The frame buffer while BUSY (spec 20_memory R86, 60_exceptions R230) -/

theorem coreStep_mem (s : State) : (coreStep s).mem = s.mem :=
  (congrArg State.mem (coreStep_frame s) :)

theorem receiveAnswer_mem (r : TxAnswer) (s : State) : (receiveAnswer r s).mem = s.mem :=
  (congrArg State.mem (receiveAnswer_frame r s) :)

theorem not_idle_of_busy {s : State} (h : busy s = true) : s.coreState ≠ .idle := by
  intro idle
  simp [busy, idle] at h

/-- Only an accepted command writes the frame buffer, and a command is accepted in IDLE only. -/
theorem writeEffect_mem_of_busy {v : Word} {s t : State} (h : WriteEffect v s t)
    (hb : busy s = true) : t.mem = s.mem :=
  writeEffect_keeps (fun u => u.mem = s.mem) h (fun _ _ _ _ _ _ _ _ => rfl)
    (fun _ idle => absurd idle (not_idle_of_busy hb))

theorem hostAccess_mem_of_busy (a : Access) (s t : State) (h : hostAccess a s = .next t)
    (hb : busy s = true) : t.mem = s.mem := by
  rcases hostAccess_cases a s t h with ⟨off, -, -, rfl⟩ | ⟨off, v, -, -, hw⟩
  · rfl
  · obtain ⟨u, written, effect⟩ := memWrite_cases off v s
    cases written.symm.trans hw
    exact writeEffect_mem_of_busy effect hb

/-- Of all events only reset writes the frame buffer while BUSY. -/
theorem applyInput_mem_of_busy (i : Input) (s t : State) (h : applyInput i s = .next t)
    (hb : busy s = true) (notReset : i ≠ .reset) : t.mem = s.mem := by
  cases i with
  | host a => exact hostAccess_mem_of_busy a s t h hb
  | core => cases h; exact coreStep_mem s
  | answer r => cases h; exact receiveAnswer_mem r s
  | tickRate v => cases h; rfl
  | reset => exact absurd rfl notReset

theorem step_mem_of_busy (s t : State) (h : step s = .next t) (hb : busy s = true)
    (notReset : ∀ rest, s.inputs ≠ .reset :: rest) : t.mem = s.mem := by
  obtain ⟨-, ⟨-, rfl⟩ | ⟨i, rest, pending, hi⟩⟩ := step_cases s t h
  · exact coreStep_mem s
  · exact applyInput_mem_of_busy i (popInput rest s) t hi hb
      (fun reset => notReset rest (pending.trans (by rw [reset])))

/-- Settles O56: the buffer is as before the step, and in WAIT the frame in flight is that
buffer's. -/
theorem frameBufferIsStableWhileBusy : Obligations.FrameBufferIsStableWhileBusy := by
  intro s t hb h notReset
  have stable : t.mem = s.mem := step_mem_of_busy s t h hb notReset
  refine ⟨stable, fun inv wait => ?_⟩
  obtain ⟨-, inFlight, -⟩ := inv
  rw [stable]
  exact (inFlight wait).2

end Sys2Proof.Machine

namespace Sys2Proof.Machine

/-! ## Command words and commands (spec 30_encoding R90 to R94) -/

/-! ### The two fields of a word -/

theorem rsvField_append_opField (w : Word) : rsvField w ++ opField w = w := by
  rw [rsvField, opField, BitVec.extractLsb'_append_extractLsb'_eq_extractLsb' (by rfl)]
  exact BitVec.extractLsb'_eq_self

theorem rsvField_toNat (w : Word) : (rsvField w).toNat = w.toNat / 2 ^ 4 := by
  have weights := toNat_append_weights (rsvField w) (opField w)
  rw [rsvField_append_opField] at weights
  omega

theorem opField_toNat (w : Word) : (opField w).toNat = w.toNat % 2 ^ 4 := by
  have weights := toNat_append_weights (rsvField w) (opField w)
  rw [rsvField_append_opField] at weights
  omega

theorem opField_toNat_le (w : Word) : (opField w).toNat ≤ w.toNat := by
  rw [opField_toNat]
  exact Nat.mod_le _ _

theorem encode_toNat_le (i : Instr) : (encode i).toNat ≤ 8 := by cases i <;> decide

/-! ### What the decoder can answer -/

/-- The opcode map is one to one onto the opcodes 0 to 8; the others are reserved (R91). -/
theorem decodeOp_cases (op : BitVec 4) :
    (∃ i, op = opcode i ∧ decodeOp op = .ok i) ∨
      (8 < op.toNat ∧ decodeOp op = .error .reservedOpcode) := by
  unfold decodeOp
  split
  case h_10 => exact .inr ⟨by grind, rfl⟩
  all_goals next code =>
    refine .inl ⟨_, ?_, rfl⟩
    exact BitVec.eq_of_toNat_eq code

/-- A word is the word of the command it decodes to, or lies above 8 and is reserved (R93, R94). -/
theorem decode_cases (w : Word) :
    (∃ i, w = encode i ∧ decode w = .ok i) ∨ (8 < w.toNat ∧ ∃ e, decode w = .error e) := by
  unfold decode
  split
  next rsv =>
    rcases decodeOp_cases (opField w) with ⟨i, op, legal⟩ | ⟨above, reserved⟩
    · refine .inl ⟨i, ?_, legal⟩
      calc w = rsvField w ++ opField w := (rsvField_append_opField w).symm
        _ = encode i := by rw [rsv, op, encode]; rfl
    · exact .inr ⟨above.trans_le (opField_toNat_le w), _, reserved⟩
  next rsv =>
    have positive : (rsvField w).toNat ≠ 0 := fun zero => rsv (BitVec.eq_of_toNat_eq zero)
    rw [rsvField_toNat] at positive
    exact .inr ⟨by omega, _, rfl⟩

theorem decode_eq_ok_iff (w : Word) (i : Instr) : decode w = .ok i ↔ w = encode i := by
  constructor
  · intro h
    rcases decode_cases w with ⟨j, word, legal⟩ | ⟨-, e, reserved⟩
    · cases h.symm.trans legal
      exact word
    · cases h.symm.trans reserved
  · rintro rfl
    exact decode_encode i

theorem decode_legal_iff (w : Word) : (∃ i, decode w = .ok i) ↔ w.toNat ≤ 8 := by
  constructor
  · rintro ⟨i, legal⟩
    rw [(decode_eq_ok_iff w i).mp legal]
    exact encode_toNat_le i
  · intro small
    rcases decode_cases w with ⟨i, -, legal⟩ | ⟨above, -⟩
    · exact ⟨i, legal⟩
    · omega

/-! ### Bytes -/

theorem wordOfBytes_bytesOfWord (w : Word) :
    wordOfBytes (w.extractLsb' 0 8) (w.extractLsb' 8 8) (w.extractLsb' 16 8)
      (w.extractLsb' 24 8) = w := by
  rw [wordOfBytes, BitVec.extractLsb'_append_extractLsb'_eq_extractLsb' (by rfl),
    BitVec.extractLsb'_append_extractLsb'_eq_extractLsb' (by rfl),
    BitVec.extractLsb'_append_extractLsb'_eq_extractLsb' (by rfl)]
  exact BitVec.extractLsb'_eq_self

/-- The byte decoder reads exactly the four bytes of a legal word. -/
theorem decodeBytes_bytesOfWord {w : Word} {i : Instr} (legal : decode w = .ok i)
    (rest : List Byte) : decodeBytes (bytesOfWord w ++ rest) = .ok (i, rest) := by
  simp only [bytesOfWord, List.cons_append, List.nil_append, decodeBytes,
    wordOfBytes_bytesOfWord, legal]

/-- Settles O2: a word is its two fields, and the opcode map loses nothing. -/
theorem decodeAndEncodeAgree : Obligations.DecodeAndEncodeAgree :=
  ⟨decode_eq_ok_iff, fun i rest _ => decodeBytes_bytesOfWord (decode_encode i) rest⟩

/-! ### Reserved words -/

/-- A reserved word that is accepted (R93, 60_exceptions R229). -/
theorem issueCommand_reserved {w : Word} {e : DecodeError} (s : State)
    (reserved : decode w = .error e) (idle : s.coreState = .idle) :
    issueCommand w s = .next (setBadcmd s) := by
  rw [issueCommand_eq, reserved, whenIdle_idle _ s idle]

/-- Settles O3: a word is `RSV` * 16 + `OP`, so its bounds are those of its fields. -/
theorem exactlyNineWordsAreLegal : Obligations.ExactlyNineWordsAreLegal := by
  intro w
  have fields : w.toNat ≤ 8 ↔ w.toNat / 2 ^ 4 = 0 ∧ w.toNat % 2 ^ 4 ≤ 8 := by omega
  refine ⟨(decode_legal_iff w).trans fields, decode_legal_iff w, fun above s idle => ?_⟩
  rcases decode_cases w with ⟨i, -, legal⟩ | ⟨-, e, reserved⟩
  · exact absurd ((decode_legal_iff w).mp ⟨i, legal⟩) (by omega)
  · exact issueCommand_reserved s reserved idle

/-- Settles O1: nine words are the words of the commands; of the other three one has a reserved
opcode and two have a bit of `RSV` set. -/
theorem commandWordsDecodeAsTheOpcodeMapSays :
    Obligations.CommandWordsDecodeAsTheOpcodeMapSays :=
  ⟨decode_encode .nop, decode_encode .clear, decode_encode .setpix, decode_encode .render,
    decode_encode .quant, decode_encode .ramp, decode_encode .movec, decode_encode .moved,
    decode_encode .encode, rfl, rfl, rfl⟩

end Sys2Proof.Machine

namespace Sys2Proof.Machine

/-! ## Frame-buffer commands (spec 40_framebuffer) -/

/-! ### Coordinates and pixel addresses -/

theorem coordX_eq_mod (r : BitVec 16) : coordX r = r.toNat % 256 := by
  rw [coordX, BitVec.extractLsb'_toNat, Nat.shiftRight_zero]

theorem coordY_eq_div (r : BitVec 16) : coordY r = r.toNat / 256 := by
  rw [coordY, BitVec.extractLsb'_toNat, Nat.shiftRight_eq_div_pow]
  omega

theorem inBounds_iff (c : Config) (x y : Nat) :
    inBounds c x y = true ↔ x < c.width ∧ y < c.height := by
  rw [inBounds, Bool.and_eq_true, decide_eq_true_iff, decide_eq_true_iff]

/-- The three lanes of a pixel of the buffer are bytes of pixels. -/
theorem ne_laneAddr_of_not_isPixelByte {n a i k : Nat} (outside : isPixelByte n a = false)
    (hi : i < n) (hk : k < 3) : a ≠ laneAddr i k := by
  rintro rfl
  have lane : k ≠ 3 := by omega
  simp [isPixelByte_laneAddr n i k (by omega), hi, lane] at outside

/-! ### What `setAt` writes and what it leaves alone -/

/-- The pixel `setAt` writes, by the row-major index of its coordinates (R104). -/
theorem readPixel_setAt_row_major (c : Config) (x y : Nat) (px : Pixel) (m : Memory) (j : Nat) :
    readPixel (setAt c x y px m) j =
      if x < c.width ∧ y < c.height ∧ j = y * c.width + x then px else readPixel m j := by
  rw [readPixel_setAt]
  simp only [inBounds_iff, and_assoc, pixelIndex, eq_comm (b := j)]

theorem setAt_of_out_of_bounds (c : Config) (x y : Nat) (px : Pixel) (m : Memory)
    (out : ¬(x < c.width ∧ y < c.height)) : setAt c x y px m = m :=
  if_neg (mt (inBounds_iff c x y).mp out)

/-- `setAt` writes the three lanes of the pixel at (x, y) only, and those in bounds only. -/
theorem readByte_setAt_of_ne (c : Config) (x y : Nat) (px : Pixel) (m : Memory) (a : Nat)
    (other : inBounds c x y = true → ∀ k < 3, a ≠ laneAddr (pixelIndex c x y) k) :
    readByte (setAt c x y px m) a = readByte m a := by
  unfold setAt
  split
  next inside =>
    have ne := other inside
    exact readByte_writePixel_of_ne m _ px a (ne 0 (by omega)) (ne 1 (by omega)) (ne 2 (by omega))
  next => rfl

/-- The bytes outside the pixels are out of reach of `setAt`. -/
theorem readByte_setAt_of_not_isPixelByte (c : Config) (x y : Nat) (px : Pixel) (m : Memory)
    (a : Nat) (outside : isPixelByte (pixelCount c) a = false) :
    readByte (setAt c x y px m) a = readByte m a :=
  readByte_setAt_of_ne c x y px m a fun inside _ hk =>
    ne_laneAddr_of_not_isPixelByte outside (pixelIndex_lt c x y inside) hk

/-- The bytes outside the pixels are out of reach of a clear. -/
theorem readByte_clearPixels_of_not_isPixelByte (n : Nat) (m : Memory) (a : Nat)
    (outside : isPixelByte n a = false) : readByte (clearPixels n m) a = readByte m a := by
  rw [readByte_clearPixels, outside, if_neg Bool.false_ne_true]

/-! ### The commands -/

/-- An accepted command answers its effect (60_exceptions R231). -/
theorem exec_of_idle (i : Instr) (s : State) (idle : s.coreState = .idle) :
    exec i s = .next (effectOf i s) := by
  rw [exec_eq, whenIdle_idle _ s idle]

theorem exec_of_busy (i : Instr) (s : State) (running : busy s = true) :
    exec i s = .next (setDrop s) := by
  rw [exec_eq, whenIdle_busy _ s running]

/-- Settles O9: the effect of NOP is the identity, behind the acceptance order of every command. -/
theorem nopChangesNothing : Obligations.NopChangesNothing :=
  ⟨decode_encode .nop, fun s => ⟨exec_of_idle .nop s, exec_of_busy .nop s⟩⟩

/-- Settles O10: the memory after CLEAR is the cleared one, and a clear reaches the bytes of pixels
only. -/
theorem clearMakesEveryPixelBlack : Obligations.ClearMakesEveryPixelBlack := by
  refine ⟨decode_encode .clear, fun s idle =>
    ⟨clearEffect s, exec_of_idle .clear s idle, rfl, fun i hi => ?black, fun a outside => ?frame⟩⟩
  case black => exact (readPixel_clearPixels _ s.mem i).trans (if_pos hi)
  case frame => exact readByte_clearPixels_of_not_isPixelByte _ s.mem a outside

/-- Each pixel after an in-bounds SETPIX. -/
theorem pixel_setpixEffect_of_in_bounds (s : State)
    (inside : coordX s.xy < s.cfg.width ∧ coordY s.xy < s.cfg.height) (j : Nat) :
    pixel (setpixEffect s) j =
      if j = coordY s.xy * s.cfg.width + coordX s.xy then s.color else pixel s j := by
  obtain ⟨hx, hy⟩ := inside
  have written := readPixel_setAt_row_major s.cfg (coordX s.xy) (coordY s.xy) s.color s.mem j
  simp only [hx, hy, true_and] at written
  exact written

/-- An out-of-bounds SETPIX is a silent no-op (40_framebuffer R102). -/
theorem setpixEffect_of_out_of_bounds (s : State)
    (out : ¬(coordX s.xy < s.cfg.width ∧ coordY s.xy < s.cfg.height)) : setpixEffect s = s := by
  rw [setpixEffect, setAt_of_out_of_bounds s.cfg _ _ s.color s.mem out]
  rfl

/-- Settles O11: SETPIX is `setAt` at the two bytes of `XY`. -/
theorem setpixWritesExactlyTheAddressedPixel :
    Obligations.SetpixWritesExactlyTheAddressedPixel := by
  refine ⟨decode_encode .setpix, fun s x y idle hx hy => ?_⟩
  rw [← coordX_eq_mod] at hx
  rw [← coordY_eq_div] at hy
  subst hx hy
  rw [exec_of_idle .setpix s idle]
  refine ⟨fun inside => ⟨setpixEffect s, rfl, rfl, fun j => ?pixels, fun a other => ?frame⟩,
    fun out => congrArg _ (setpixEffect_of_out_of_bounds s out)⟩
  case pixels => exact pixel_setpixEffect_of_in_bounds s inside j
  case frame => exact readByte_setAt_of_ne s.cfg _ _ s.color s.mem a fun _ => other

/-- Each pixel of the buffer after RENDER: the result does not depend on the pixels before it
(40_framebuffer R103). -/
theorem pixel_renderEffect (s : State) (i : Nat) (hi : i < pixelCount s.cfg) :
    pixel (renderEffect s) i =
      if coordX s.pos < s.cfg.width ∧ coordY s.pos < s.cfg.height ∧
        i = coordY s.pos * s.cfg.width + coordX s.pos then s.color else 0x000000#24 := by
  have black : readPixel (clearPixels (pixelCount s.cfg) s.mem) i = 0x000000#24 :=
    (readPixel_clearPixels _ s.mem i).trans (if_pos hi)
  rw [← black]
  exact readPixel_setAt_row_major s.cfg _ _ s.color _ i

/-- Settles O12: RENDER is a clear, then `setAt` at the two bytes of `POS`; both reach the bytes of
pixels only. -/
theorem renderDrawsTheMarkerOnBlack : Obligations.RenderDrawsTheMarkerOnBlack := by
  refine ⟨decode_encode .render, fun s x y idle hx hy => ?_⟩
  rw [← coordX_eq_mod] at hx
  rw [← coordY_eq_div] at hy
  subst hx hy
  refine ⟨renderEffect s, exec_of_idle .render s idle, rfl, pixel_renderEffect s,
    fun a outside => ?frame⟩
  calc readByte (renderEffect s).mem a
      = readByte (clearPixels (pixelCount s.cfg) s.mem) a :=
        readByte_setAt_of_not_isPixelByte s.cfg _ _ s.color _ a outside
    _ = readByte s.mem a := readByte_clearPixels_of_not_isPixelByte _ s.mem a outside

end Sys2Proof.Machine

namespace Sys2Proof.Machine

/-! ## The functions of the encoder (spec 41_encoder R134 to R139) -/

/-! ### Tick counts -/

/-- Settles O25: the floor by its two bounds; a timing constant is below 2^20. -/
theorem tickConversionIsTheFloor : Obligations.TickConversionIsTheFloor := by
  intro ns rate _ nsMax rateMax
  refine ⟨Nat.div_mul_le_self _ _, Nat.lt_mul_of_div_lt (Nat.lt_succ_self _) (by decide), ?_⟩
  calc ns * rate ≤ 1000000 * rate := Nat.mul_le_mul_right rate nsMax
    _ < 2 ^ 52 := by omega

/-- Settles O26: each constant's count is bounded at the two ends of the rates. -/
theorem defaultTimingPassesFromItsSmallestRate :
    Obligations.DefaultTimingPassesFromItsSmallestRate := by
  refine ⟨fun rate low high ns default => ?_, rfl⟩
  simp only [List.mem_cons, List.not_mem_nil, or_false] at default
  unfold ticks
  rcases default with rfl | rfl | rfl | rfl <;> omega

/-! ### The GRB word -/

/-- The bytes of three bytes side by side. -/
theorem extractLsb'_of_bytes (x y z : Byte) :
    (x ++ y ++ z : BitVec 24).extractLsb' 16 8 = x ∧
    (x ++ y ++ z : BitVec 24).extractLsb' 8 8 = y ∧
    (x ++ y ++ z : BitVec 24).extractLsb' 0 8 = z := by
  have weights : (x ++ y ++ z : BitVec 24).toNat =
      x.toNat * 2 ^ 16 + y.toNat * 2 ^ 8 + z.toNat := by
    rw [toNat_append_weights, toNat_append_weights]
    omega
  refine ⟨BitVec.eq_of_toNat_eq ?_, BitVec.eq_of_toNat_eq ?_, BitVec.eq_of_toNat_eq ?_⟩ <;>
    rw [BitVec.extractLsb'_toNat, Nat.shiftRight_eq_div_pow, weights] <;> omega

/-- Settles O28: `grb` swaps the two upper bytes of a pixel. -/
theorem grbReordersTheChannels : Obligations.GrbReordersTheChannels := by
  intro px
  obtain ⟨green, red, blue⟩ :=
    extractLsb'_of_bytes (px.extractLsb' 8 8) (px.extractLsb' 16 8) (px.extractLsb' 0 8)
  refine ⟨green, red, blue, ?twice, fun grey => ?own⟩
  case twice =>
    calc grb (grb px) = px.extractLsb' 16 8 ++ px.extractLsb' 8 8 ++ px.extractLsb' 0 8 :=
          congrArg₂ (· ++ ·) (congrArg₂ (· ++ ·) red green) blue
      _ = px := pixelOfLanes px
  case own =>
    calc grb px = px.extractLsb' 16 8 ++ px.extractLsb' 8 8 ++ px.extractLsb' 0 8 := by
          rw [grb, grey]
      _ = px := pixelOfLanes px

/-! ### Edge words -/

/-- The level of an edge word in its place (R139). -/
theorem toNat_level_shiftLeft (level : Bool) (k : Nat) (hk : k ≤ 31) :
    ((BitVec.ofBool level).setWidth 32 <<< k).toNat = if level then 2 ^ k else 0 := by
  have fits : 2 ^ k < 2 ^ 32 := Nat.pow_lt_pow_right (by decide) (by omega)
  cases level with
  | false => simp
  | true => simpa [Nat.shiftLeft_eq] using fits

/-- Settles O29: the duration lies below the level's bit. -/
theorem edgeWordHoldsLevelAboveDuration : Obligations.EdgeWordHoldsLevelAboveDuration := by
  intro c e _ bits short
  have duration : e.ticks < 2 ^ c.durBits := Nat.lt_of_le_pred (Nat.two_pow_pos _) short
  have fits : 2 ^ c.durBits < 2 ^ 32 := Nat.pow_lt_pow_right (by decide) (by omega)
  have level := toNat_level_shiftLeft e.level c.durBits bits
  have ticks : (BitVec.ofNat 32 e.ticks).toNat = e.ticks := by
    rw [BitVec.toNat_ofNat, Nat.mod_eq_of_lt (duration.trans fits)]
  rw [edgeWord, toNat_or_of_lt_two_pow c.durBits, level, ticks]
  · rw [level]
    split
    · exact dvd_rfl
    · exact dvd_zero _
  · rwa [ticks]

/-! ### The edges of a frame by their position -/

/-- The closed form at any position (R142): a high edge at an even, a low edge at an odd one, of a
bit of the position's pixel. -/
theorem frameEdges_position (e : Encoder) (m : Memory) (n k : Nat) (x : PulseEdge)
    (h : (frameEdges e m n)[k]? = some x) :
    ∃ p < n, ∃ j < 24, x =
      if k % 2 = 0 then ⟨true, highTicks e ((grb (readPixel m p)).getLsbD (23 - j))⟩
      else ⟨false, lowTicks e ((grb (readPixel m p)).getLsbD (23 - j))⟩ := by
  obtain ⟨inside, -⟩ := List.getElem?_eq_some_iff.mp h
  rw [frameEdges_length] at inside
  refine ⟨k / 48, by omega, k % 48 / 2, by omega, ?_⟩
  obtain ⟨high, low⟩ :=
    frameEdges_pair e m n (k / 48) (k % 48 / 2) (by omega) (by omega)
  split
  next even =>
    rw [show 48 * (k / 48) + 2 * (k % 48 / 2) = k by omega, h] at high
    exact Option.some.inj high
  next odd =>
    rw [show 48 * (k / 48) + 2 * (k % 48 / 2) + 1 = k by omega, h] at low
    exact Option.some.inj low

/-- The levels of a frame alternate, level 1 first (R141). -/
theorem frameEdges_level (e : Encoder) (m : Memory) (n k : Nat) (x : PulseEdge)
    (h : (frameEdges e m n)[k]? = some x) : x.level = true ↔ k % 2 = 0 := by
  obtain ⟨p, -, j, -, rfl⟩ := frameEdges_position e m n k x h
  split <;> simp_all

theorem grb_black : grb 0#24 = 0#24 := by decide

/-- A black buffer sends 0 bits only (R141). -/
theorem frameEdges_ticks_of_black (e : Encoder) (m : Memory) (n k : Nat) (x : PulseEdge)
    (black : ∀ i < n, readPixel m i = 0#24) (h : (frameEdges e m n)[k]? = some x) :
    x.ticks = if k % 2 = 0 then e.t0h else e.t0l := by
  obtain ⟨p, hp, j, -, rfl⟩ := frameEdges_position e m n k x h
  rw [black p hp, grb_black, BitVec.getLsbD_zero]
  split <;> rfl

end Sys2Proof.Machine

namespace Sys2Proof.Machine

/-! ## Entering and leaving a frame (spec 41_encoder R130 to R135, R148, R149) -/

/-! ### ENCODE -/

theorem statusWord_getLsbD_zero (s : State) : (statusWord s).getLsbD 0 = busy s := by
  rw [statusWord, BitVec.getLsbD_append, if_pos (by decide)]
  cases busy s <;> rfl

/-- Settles O24: the effect of ENCODE is PREP, in which `BUSY` is 1. -/
theorem encodeStartsAFrame : Obligations.EncodeStartsAFrame :=
  ⟨decode_encode .encode, fun s idle => ⟨encodeEffect s, exec_of_idle .encode s idle, rfl,
    statusWord_getLsbD_zero (encodeEffect s)⟩⟩

/-! ### PREP -/

/-- The block as EMIT begins: the rate sampled, the counts converted, no edge built. -/
def emitStart (s : State) : State :=
  setEncoder .emit { sampled s with p := 0, b := 23, ph := .high, edges := [] } s

theorem prepStep_of_no_rate (s : State) (h : s.tickRate = 0#32) :
    prepStep s = raiseFatal noTickRate s :=
  if_pos h

theorem prepStep_of_bad_counts (s : State) (rate : s.tickRate ≠ 0#32)
    (bad : countsOk s.cfg (sampled s) = false) : prepStep s = raiseFatal pulseRange s := by
  rw [prepStep, if_neg rate, bad, if_neg Bool.false_ne_true]

theorem prepStep_of_counts (s : State) (rate : s.tickRate ≠ 0#32)
    (ok : countsOk s.cfg (sampled s) = true) : prepStep s = emitStart s := by
  rw [prepStep, if_neg rate, if_pos ok, emitStart]

theorem pulseOk_iff (c : Config) (d : Nat) :
    pulseOk c d = true ↔ 1 ≤ d ∧ d ≤ 2 ^ c.durBits - 1 := by
  rw [pulseOk, Bool.and_eq_true, decide_eq_true_iff, decide_eq_true_iff, durMax]

/-- All four constants make pulses at the present rate (R135). -/
theorem countsOk_sampled_iff (s : State) :
    countsOk s.cfg (sampled s) = true ↔ ∀ ns ∈ timingConstants s.cfg,
      1 ≤ ns * s.tickRate.toNat / 10 ^ 9 ∧
        ns * s.tickRate.toNat / 10 ^ 9 ≤ 2 ^ s.cfg.durBits - 1 := by
  simp [countsOk, pulseOk_iff, sampled, ticks, timingConstants, and_assoc]

theorem tickRate_eq_zero_iff (s : State) : s.tickRate = 0#32 ↔ s.tickRate.toNat = 0 :=
  BitVec.toNat_eq

theorem coreStep_of_prep (s : State) (h : s.coreState = .prep) : coreStep s = prepStep s := by
  rw [coreStep, h]

theorem coreStep_of_emit (s : State) (h : s.coreState = .emit) : coreStep s = emitStep s := by
  rw [coreStep, h]

/-- Settles O27: the three cases of PREP in their order. -/
theorem prepChecksTheRateThenThePulses : Obligations.PrepChecksTheRateThenThePulses := by
  rintro s _ prep rfl
  simp only [coreStep_of_prep s prep, ne_eq, ← tickRate_eq_zero_iff]
  refine ⟨prepStep_of_no_rate s, fun rate bad => prepStep_of_bad_counts s rate ?_,
    fun rate good => ⟨_, prepStep_of_counts s rate ((countsOk_sampled_iff s).mpr good),
      rfl, rfl, rfl, rfl, rfl, rfl, rfl, rfl, rfl⟩⟩
  obtain ⟨ns, constant, bad⟩ := bad
  rw [← Bool.not_eq_true, countsOk_sampled_iff]
  intro good
  have := good ns constant
  omega

/-! ### Answers of the Transmitter -/

theorem step_answer (s : State) (r : TxAnswer) (rest : List Input) (legal : s.cfg.legal = true)
    (next : s.inputs = .answer r :: rest) :
    step s = .next (receiveAnswer r (popInput rest s)) :=
  step_cons s _ rest legal next

/-- An answer owed to an abandoned frame is counted off (70_reset R263, log 12). -/
theorem receiveAnswer_of_owed (r : TxAnswer) (s : State) (k : Nat) (owed : s.abandoned = k + 1) :
    receiveAnswer r s = { s with abandoned := k } := by
  simp [receiveAnswer, owed]

/-- No state but WAIT has a transition on an answer (R131, log 11). -/
theorem receiveAnswer_of_not_wait (r : TxAnswer) (s : State) (none_owed : s.abandoned = 0)
    (not_wait : s.coreState ≠ .wait) : receiveAnswer r s = s := by
  rcases receiveAnswer_cases r s with ⟨k, owed, -⟩ | ⟨-, -, e⟩ | ⟨-, wait, -⟩ | ⟨-, wait, -⟩
  · omega
  · exact e
  · exact absurd wait not_wait
  · exact absurd wait not_wait

/-- OK ends the frame (R148). -/
theorem receiveAnswer_ok_of_wait (s : State) (none_owed : s.abandoned = 0)
    (wait : s.coreState = .wait) : receiveAnswer .ok s = leaveFrame .idle s := by
  simp [receiveAnswer, none_owed, wait]

/-- HW_ERROR in WAIT is fatal (R149). -/
theorem receiveAnswer_hwError_of_wait (s : State) (none_owed : s.abandoned = 0)
    (wait : s.coreState = .wait) : receiveAnswer .hwError s = raiseFatal txError s := by
  simp [receiveAnswer, none_owed, wait]

/-- Settles O33: OK leaves the frame for IDLE, HW_ERROR is the fatal entry; neither writes a data
register, a pixel or a sticky flag. -/
theorem transmitterAnswersEndTheFrame : Obligations.TransmitterAnswersEndTheFrame := by
  intro s rest legal wait none_owed
  constructor
  · intro next
    refine ⟨leaveFrame .idle (popInput rest s), ?_, rfl, statusWord_getLsbD_zero _, rfl, rfl,
      by simp [sameData, sameStickies, sameEnvironment]⟩
    rw [step_answer s .ok rest legal next,
      receiveAnswer_ok_of_wait (popInput rest s) none_owed wait]
  · intro next
    refine ⟨raiseFatal txError (popInput rest s), ?_, rfl, rfl, rfl,
      by simp [sameData, sameStickies, sameEnvironment]⟩
    rw [step_answer s .hwError rest legal next,
      receiveAnswer_hwError_of_wait (popInput rest s) none_owed wait]

/-- Settles O34: an owed answer is counted off, one outside WAIT meets no transition. -/
theorem answersThatAreNotDueChangeNothing : Obligations.AnswersThatAreNotDueChangeNothing := by
  intro s r rest legal next
  rw [step_answer s r rest legal next]
  exact ⟨fun k owed => congrArg _ (receiveAnswer_of_owed r (popInput rest s) k owed),
    fun none_owed not_wait =>
      congrArg _ (receiveAnswer_of_not_wait r (popInput rest s) none_owed not_wait)⟩

end Sys2Proof.Machine

namespace Sys2Proof.Machine

/-! ## A frame in EMIT (spec 41_encoder R141 to R147) -/

/-! ### The step that hands a frame over -/

/-- The Core offers the whole frame of the present frame buffer, and no other (R141, R147). -/
theorem coreStep_hands_over (s : State) (E : List PulseEdge) (h : frameInv s)
    (noFrame : s.inFlight = none) (offered : (coreStep s).inFlight = some E) :
    E = frameEdges s.enc s.mem (pixelCount s.cfg) := by
  obtain ⟨emit, low, last, rfl⟩ := coreStep_inFlight s E noFrame offered
  obtain ⟨built, -, -⟩ := h
  calc (emitLow s.enc).edges
      = frameEdges (emitLow s.enc) s.mem (pixelCount s.cfg) := emitLow_last s (built emit) low last
    _ = frameEdges s.enc s.mem (pixelCount s.cfg) :=
      frameEdges_congr _ _ _ _ _ ⟨rfl, rfl, rfl, rfl⟩ fun _ _ => rfl

/-- An answer offers no frame. -/
theorem receiveAnswer_inFlight_of_none (r : TxAnswer) (s : State) (noFrame : s.inFlight = none) :
    (receiveAnswer r s).inFlight = none := by
  rcases receiveAnswer_cases r s with ⟨_, -, e⟩ | ⟨-, -, e⟩ | ⟨-, -, -, e⟩ | ⟨-, -, -, e⟩ <;> rw [e]
  exacts [noFrame, noFrame, rfl, rfl]

theorem hostAccess_inFlight (a : Access) (s t : State) (h : hostAccess a s = .next t) :
    t.inFlight = s.inFlight := by
  rcases hostAccess_cases a s t h with ⟨off, -, -, rfl⟩ | ⟨off, v, -, -, hw⟩
  · rfl
  · obtain ⟨u, written, effect⟩ := memWrite_cases off v s
    cases written.symm.trans hw
    exact writeEffect_inFlight v s t effect

/-- Of all steps only the Core's puts a frame in flight, and that frame is whole. -/
theorem step_hands_over (s t : State) (E : List PulseEdge) (h : frameInv s)
    (stepped : step s = .next t) (noFrame : s.inFlight = none) (offered : t.inFlight = some E) :
    E = frameEdges s.enc s.mem (pixelCount s.cfg) := by
  obtain ⟨-, ⟨-, rfl⟩ | ⟨i, rest, -, hi⟩⟩ := step_cases s t stepped
  · exact coreStep_hands_over s E h noFrame offered
  have silent (quiet : t.inFlight = none) : E = frameEdges s.enc s.mem (pixelCount s.cfg) := by
    simp [quiet] at offered
  cases i with
  | host a => exact silent ((hostAccess_inFlight a _ t hi).trans noFrame)
  | core => cases hi; exact coreStep_hands_over (popInput rest s) E h noFrame offered
  | answer r => cases hi; exact silent (receiveAnswer_inFlight_of_none r (popInput rest s) noFrame)
  | tickRate v => cases hi; exact silent noFrame
  | reset => cases hi; exact silent rfl

/-- Settles O31: the frame offered is the frame of the buffer, edge by edge. -/
theorem emittedFramesAreWholeAndAlternate : Obligations.EmittedFramesAreWholeAndAlternate := by
  intro s t E h stepped noFrame offered
  obtain rfl := step_hands_over s t E h stepped noFrame offered
  exact ⟨frameEdges_length _ _ _, frameEdges_level _ _ _,
    fun black k e => frameEdges_ticks_of_black _ _ _ k e black⟩

/-! ### One edge per step -/

/-- The frame depends on the encoder through the sampled rate only. -/
theorem frameEdges_of_same_rate (c : Config) (e f : Encoder) (m : Memory) (n : Nat)
    (he : countsInv c e) (hf : countsInv c f) (rate : e.rate = f.rate) :
    frameEdges e m n = frameEdges f m n := by
  obtain ⟨-, h0, l0, h1, l1, -⟩ := he
  obtain ⟨-, h0', l0', h1', l1', -⟩ := hf
  refine frameEdges_congr e f m m n ⟨?_, ?_, ?_, ?_⟩ fun _ _ => rfl
  · rw [h0, h0', rate]
  · rw [l0, l0', rate]
  · rw [h1, h1', rate]
  · rw [l1, l1', rate]

/-- The low half that goes past the last pixel is the one of edge 48 * n. -/
theorem emitLow_p_eq_iff (e : Encoder) (n : Nat) (low : e.ph = .low) (bit : e.b ≤ 23)
    (index : e.p < n) : (emitLow e).p = n ↔ edgesBuilt e + 1 = 48 * n := by
  simp only [emitLow, edgesBuilt, low]
  split <;> omega

/-- The edges before a high half are whole pairs, so the last edge of a frame is not a high one. -/
theorem edgesBuilt_high_ne (e : Encoder) (n : Nat) (high : e.ph = .high) :
    edgesBuilt e + 1 ≠ 48 * n := by
  simp only [edgesBuilt, high]
  omega

/-- `s` is what the EMIT state `s₀` has become with `k` edges built: the same rate, and no other
piece of state but the transient registers changed. -/
structure EmitsFrom (s₀ : State) (k : Nat) (s : State) : Prop where
  frame : s = setEncoder .emit s.enc s₀
  rate : s.enc.rate = s₀.enc.rate
  built : emitInv s
  count : edgesBuilt s.enc = k

/-- A step of EMIT before the last edge of the frame. -/
theorem EmitsFrom.next {s₀ s : State} {k : Nat} (h : EmitsFrom s₀ k s)
    (more : k + 1 < 48 * pixelCount s₀.cfg) : EmitsFrom s₀ (k + 1) (coreStep s) := by
  obtain ⟨frame, rate, built, count⟩ := h
  have emit : s.coreState = .emit := by rw [frame]; rfl
  have cfg : s.cfg = s₀.cfg := by rw [frame]; rfl
  obtain ⟨-, index, bit, -, -⟩ := id built
  rw [coreStep_of_emit s emit]
  rcases emitStep_cases s with ⟨high, e⟩ | ⟨low, last, e⟩ | ⟨low, notLast, e⟩
  · rw [e]
    refine ⟨?_, rate, emitInv_high s built high, ?_⟩
    · rw [frame]; rfl
    · rw [← count]; simp [edgesBuilt, emitHigh, high]
  · have := (emitLow_p_eq_iff s.enc _ low bit index).mp last
    rw [cfg] at this
    omega
  · rw [e]
    refine ⟨?_, rate, emitInv_low s built low notLast, ?_⟩
    · rw [frame]; rfl
    · rw [← count]; exact edgesBuilt_emitLow s.enc low bit

/-- The step of EMIT that builds the last edge. -/
theorem EmitsFrom.last {s₀ s : State} {k : Nat} (h : EmitsFrom s₀ k s) (start : emitInv s₀)
    (last : k + 1 = 48 * pixelCount s₀.cfg) : ∃ e : Encoder, coreStep s = emitFrame e s₀ ∧
      e.edges = frameEdges s₀.enc s₀.mem (pixelCount s₀.cfg) := by
  obtain ⟨frame, rate, built, count⟩ := h
  have emit : s.coreState = .emit := by rw [frame]; rfl
  have cfg : s.cfg = s₀.cfg := by rw [frame]; rfl
  have mem : s.mem = s₀.mem := by rw [frame]; rfl
  obtain ⟨counts, index, bit, -, -⟩ := id built
  obtain ⟨counts₀, -⟩ := start
  rw [← count, ← cfg] at last
  rw [coreStep_of_emit s emit]
  rcases emitStep_cases s with ⟨high, -⟩ | ⟨low, done, e⟩ | ⟨low, notLast, -⟩
  · exact absurd last (edgesBuilt_high_ne s.enc _ high)
  · refine ⟨emitLow s.enc, ?_, ?_⟩
    · rw [e, frame]; rfl
    · rw [emitLow_last s built low done, cfg, mem]
      exact frameEdges_of_same_rate s₀.cfg _ _ _ _ (cfg ▸ counts) counts₀ rate
  · exact absurd ((emitLow_p_eq_iff s.enc _ low bit index).mpr last) notLast

/-! ### The Core left to itself -/

/-- A state in which the Core does not move stays under any number of its steps. -/
theorem iterate_coreStep_of_still (s : State) (k : Nat)
    (h : s.coreState = .idle ∨ s.coreState = .wait ∨ s.coreState = .halt) : coreStep^[k] s = s :=
  Function.iterate_fixed (coreStep_of_still s h) k

/-- The first 48 * N - 1 steps of EMIT. -/
theorem iterate_coreStep_emits (s₀ : State) (start : EmitsFrom s₀ 0 s₀) (k : Nat)
    (hk : k < 48 * pixelCount s₀.cfg) : EmitsFrom s₀ k (coreStep^[k] s₀) := by
  induction k with
  | zero => exact start
  | succ k ih =>
    rw [Function.iterate_succ_apply']
    exact (ih (by omega)).next hk

/-- From 48 * N steps of EMIT on the Core waits with the whole frame in flight. -/
theorem iterate_coreStep_waits (s₀ : State) (start : EmitsFrom s₀ 0 s₀) :
    ∃ e : Encoder, e.edges = frameEdges s₀.enc s₀.mem (pixelCount s₀.cfg) ∧
      ∀ k, 48 * pixelCount s₀.cfg ≤ k → coreStep^[k] s₀ = emitFrame e s₀ := by
  obtain ⟨-, index, -⟩ := start.built
  have before := iterate_coreStep_emits s₀ start (48 * pixelCount s₀.cfg - 1) (by omega)
  obtain ⟨e, step, edges⟩ := before.last start.built (by omega)
  refine ⟨e, edges, fun k hk => ?_⟩
  have split : k = (k - 48 * pixelCount s₀.cfg) + (48 * pixelCount s₀.cfg - 1 + 1) := by omega
  rw [split, Function.iterate_add_apply, Function.iterate_succ_apply', step]
  exact iterate_coreStep_of_still _ _ (.inr (.inl rfl))

/-- EMIT begins with the sampled counts and no edge (R131). -/
theorem emitsFrom_emitStart (s : State) (legal : s.cfg.legal = true) (noFrame : s.inFlight = none)
    (rate : s.tickRate ≠ 0#32) (ok : countsOk s.cfg (sampled s) = true) :
    EmitsFrom (emitStart s) 0 (emitStart s) := by
  have inv := frameInv_prepStep s legal noFrame
  rw [prepStep_of_counts s rate ok] at inv
  obtain ⟨built, -, -⟩ := inv
  exact ⟨rfl, rfl, built rfl, rfl⟩

/-- With nothing pending a run is the Core's own steps. -/
theorem runSteps_of_no_inputs (k : Nat) (s : State) (legal : s.cfg.legal = true)
    (none_pending : s.inputs = []) : runSteps k s = .next (coreStep^[k] s) := by
  induction k generalizing s with
  | zero => rfl
  | succ k ih =>
    have inputs : (coreStep s).inputs = s.inputs := (congrArg State.inputs (coreStep_frame s) :)
    rw [runSteps, step_nil s legal none_pending, Function.iterate_succ_apply]
    exact ih (coreStep s) (by rwa [coreStep_cfg]) (inputs.trans none_pending)

/-- The block in PREP: its one pending event, an ENCODE, accepted. -/
def encodeAccepted (s : State) : State := encodeEffect (popInput [] s)

/-- The run of an ENCODE and nothing else: the Host's write, then the Core's own steps. -/
theorem runSteps_encode (s : State) (k : Nat) (legal : s.cfg.legal = true)
    (idle : s.coreState = .idle) (pending : s.inputs = [commandAccess 0x00000008#32]) :
    runSteps (k + 1) s = .next (coreStep^[k] (encodeAccepted s)) := by
  have accepted : step s = .next (encodeAccepted s) := by
    rw [step_command s _ .encode [] legal (decode_encode .encode) pending]
    exact exec_of_idle .encode (popInput [] s) idle
  rw [runSteps, accepted]
  exact runSteps_of_no_inputs k (encodeAccepted s) legal rfl

/-- The same run from the step of PREP on. -/
theorem runSteps_encode_prep (s : State) (k : Nat) (legal : s.cfg.legal = true)
    (idle : s.coreState = .idle) (pending : s.inputs = [commandAccess 0x00000008#32]) :
    runSteps (k + 2) s = .next (coreStep^[k] (prepStep (encodeAccepted s))) := by
  rw [runSteps_encode s (k + 1) legal idle pending, Function.iterate_succ_apply,
    coreStep_of_prep (encodeAccepted s) rfl]

/-! ### The whole frame -/

/-- The closed form of R142: the frame that EMIT begins with the counts of the present rate. -/
theorem frameEdges_emitStart (s : State) (n p j : Nat) (hp : p < n) (hj : j < 24) :
    (frameEdges (emitStart s).enc s.mem n)[48 * p + 2 * j]? = some ⟨true,
      (if (grb (pixel s p)).getLsbD (23 - j) then s.cfg.t1hNs else s.cfg.t0hNs)
        * s.tickRate.toNat / 10 ^ 9⟩ ∧
    (frameEdges (emitStart s).enc s.mem n)[48 * p + 2 * j + 1]? = some ⟨false,
      (if (grb (pixel s p)).getLsbD (23 - j) then s.cfg.t1lNs else s.cfg.t0lNs)
        * s.tickRate.toNat / 10 ^ 9⟩ := by
  obtain ⟨high, low⟩ := frameEdges_pair (emitStart s).enc s.mem n p j hp hj
  rw [high, low]
  unfold pixel highTicks lowTicks
  constructor <;> split <;> rfl

/-- The run of an ENCODE whose four constants make pulses, up to the hand-over. -/
theorem runSteps_encode_whole (s : State) (legal : s.cfg.legal = true)
    (idle : s.coreState = .idle) (noFrame : s.inFlight = none)
    (pending : s.inputs = [commandAccess 0x00000008#32]) (rate : s.tickRate ≠ 0#32)
    (ok : countsOk s.cfg (sampled s) = true) :
    (∀ k ≤ 1 + 48 * pixelCount s.cfg, ∃ u, runSteps k s = .next u ∧ u.inFlight = none) ∧
    ∃ e : Encoder,
      e.edges = frameEdges (emitStart (encodeAccepted s)).enc s.mem (pixelCount s.cfg) ∧
      runSteps (2 + 48 * pixelCount s.cfg) s =
        .next (emitFrame e (emitStart (encodeAccepted s))) := by
  have start := emitsFrom_emitStart (encodeAccepted s) legal noFrame rate ok
  have run (k : Nat) :
      runSteps (k + 2) s = .next (coreStep^[k] (emitStart (encodeAccepted s))) := by
    rw [runSteps_encode_prep s k legal idle pending,
      prepStep_of_counts (encodeAccepted s) rate ok]
  obtain ⟨e, edges, waits⟩ := iterate_coreStep_waits _ start
  refine ⟨fun k hk => ?before, e, edges, ?handOver⟩
  case handOver =>
    rw [Nat.add_comm 2, run]
    exact congrArg _ (waits _ le_rfl)
  rcases k with _ | _ | k
  · exact ⟨s, rfl, noFrame⟩
  · exact ⟨encodeAccepted s, runSteps_encode s 0 legal idle pending, noFrame⟩
  · have emits := iterate_coreStep_emits _ start k (show k < 48 * pixelCount s.cfg by omega)
    exact ⟨_, run k, by rw [emits.frame]; exact noFrame⟩

/-- Building a frame and handing it over writes the encoder's state only. -/
theorem handOver_keeps (e : Encoder) (s : State) :
    sameData s (emitFrame e (emitStart (encodeAccepted s))) ∧
    sameStickies s (emitFrame e (emitStart (encodeAccepted s))) ∧
    sameEnvironment s (emitFrame e (emitStart (encodeAccepted s))) ∧
    (emitFrame e (emitStart (encodeAccepted s))).errcode = s.errcode := by
  simp [sameData, sameStickies, sameEnvironment, emitStart, encodeAccepted, encodeEffect]

/-- Settles O30: PREP begins EMIT, 48 * N steps build the frame edge by edge, and an edge's duration
is its timing constant's count. -/
theorem encodeHandsOverTheClosedFormFrame : Obligations.EncodeHandsOverTheClosedFormFrame := by
  rintro s _ _ legal idle noFrame pending rfl rfl hasRate good
  obtain ⟨before, e, edges, handOver⟩ := runSteps_encode_whole s legal idle noFrame pending
    (mt (tickRate_eq_zero_iff s).mp hasRate) ((countsOk_sampled_iff s).mpr good)
  refine ⟨before, emitFrame e (emitStart (encodeAccepted s)), e.edges, handOver, rfl, rfl,
    ?length, fun p hp j hj => ?closedForm, handOver_keeps e s⟩
  case length => rw [edges, frameEdges_length, pixelCount]
  case closedForm =>
    rw [edges]
    exact frameEdges_emitStart (encodeAccepted s) (pixelCount s.cfg) p j hp hj

/-! ### Two blocks that agree on what the frame depends on -/

/-- Two blocks stand alike for the Transmitter: the same `core_state`, the same frame in flight and
the same fatal error. -/
def SameOutcome (t1 t2 : State) : Prop :=
  t1.coreState = t2.coreState ∧ t1.inFlight = t2.inFlight ∧
    (t1.coreState = .halt → t1.errcode = t2.errcode)

/-- Two blocks with no frame in flight agree on what a frame depends on (R146): the parameters, the
tick rate and the pixels. -/
structure AgreeOnFrame (s1 s2 : State) : Prop where
  cfg : s1.cfg = s2.cfg
  rate : s1.tickRate = s2.tickRate
  pixels : ∀ i < pixelCount s1.cfg, pixel s1 i = pixel s2 i
  noFrame1 : s1.inFlight = none
  noFrame2 : s2.inFlight = none

/-- A fatal error stays what it is, whatever the block. -/
theorem sameOutcome_of_fatal (code : BitVec 4) (s1 s2 : State) (k : Nat) :
    SameOutcome (coreStep^[k] (raiseFatal code s1)) (coreStep^[k] (raiseFatal code s2)) := by
  have halted (s : State) : coreStep^[k] (raiseFatal code s) = raiseFatal code s :=
    iterate_coreStep_of_still _ k (.inr (.inr rfl))
  rw [halted, halted]
  exact ⟨rfl, rfl, fun _ => rfl⟩

/-- While EMIT lasts nothing is in flight; then the two frames in flight are of the same counts and
pixels. -/
theorem sameOutcome_of_emitStart (s1 s2 : State) (agree : AgreeOnFrame s1 s2)
    (start1 : EmitsFrom (emitStart s1) 0 (emitStart s1))
    (start2 : EmitsFrom (emitStart s2) 0 (emitStart s2)) (k : Nat) :
    SameOutcome (coreStep^[k] (emitStart s1)) (coreStep^[k] (emitStart s2)) := by
  obtain ⟨cfg, rate, pixels, noFrame1, noFrame2⟩ := agree
  by_cases building : k < 48 * pixelCount s1.cfg
  · have emits1 := (iterate_coreStep_emits _ start1 k building).frame
    have emits2 := (iterate_coreStep_emits _ start2 k (cfg ▸ building)).frame
    rw [emits1, emits2]
    exact ⟨rfl, noFrame1.trans noFrame2.symm, nofun⟩
  · obtain ⟨e1, edges1, waits1⟩ := iterate_coreStep_waits _ start1
    obtain ⟨e2, edges2, waits2⟩ := iterate_coreStep_waits _ start2
    have frames : e1.edges = e2.edges :=
      calc e1.edges = frameEdges (emitStart s1).enc s1.mem (pixelCount s1.cfg) := edges1
        _ = frameEdges (emitStart s2).enc s2.mem (pixelCount s1.cfg) :=
          frameEdges_congr _ _ _ _ _ (by simp [emitStart, sampled, cfg, rate]) pixels
        _ = e2.edges := by rw [edges2, cfg]; rfl
    rw [waits1 k (not_lt.mp building), waits2 k (not_lt.mp (cfg ▸ building))]
    exact ⟨rfl, congrArg some frames, nofun⟩

/-- PREP takes the same way in both blocks, and so does the Core after it. -/
theorem sameOutcome_of_prepStep (s1 s2 : State) (legal : s1.cfg.legal = true)
    (agree : AgreeOnFrame s1 s2) (k : Nat) :
    SameOutcome (coreStep^[k] (prepStep s1)) (coreStep^[k] (prepStep s2)) := by
  obtain ⟨cfg, rate, -, noFrame1, noFrame2⟩ := id agree
  have counts : countsOk s2.cfg (sampled s2) = countsOk s1.cfg (sampled s1) := by
    simp [countsOk, sampled, cfg, rate]
  by_cases rate1 : s1.tickRate = 0#32
  · rw [prepStep_of_no_rate s1 rate1, prepStep_of_no_rate s2 (rate ▸ rate1)]
    exact sameOutcome_of_fatal _ s1 s2 k
  have rate2 : s2.tickRate ≠ 0#32 := rate ▸ rate1
  cases ok : countsOk s1.cfg (sampled s1) with
  | false =>
    rw [prepStep_of_bad_counts s1 rate1 ok, prepStep_of_bad_counts s2 rate2 (counts.trans ok)]
    exact sameOutcome_of_fatal _ s1 s2 k
  | true =>
    rw [prepStep_of_counts s1 rate1 ok, prepStep_of_counts s2 rate2 (counts.trans ok)]
    exact sameOutcome_of_emitStart s1 s2 agree (emitsFrom_emitStart s1 legal noFrame1 rate1 ok)
      (emitsFrom_emitStart s2 (cfg ▸ legal) noFrame2 rate2 (counts.trans ok)) k

/-- Settles O32: both runs are the Host's write, PREP, and then the Core's own steps. -/
theorem frameDependsOnPixelsRateAndParametersOnly :
    Obligations.FrameDependsOnPixelsRateAndParametersOnly := by
  intro s1 s2 legal cfg rate pixels idle1 idle2 noFrame1 noFrame2 pending1 pending2 k
  have legal2 : s2.cfg.legal = true := cfg ▸ legal
  rcases k with _ | _ | k
  · exact ⟨s1, s2, rfl, rfl, idle1.trans idle2.symm, noFrame1.trans noFrame2.symm,
      fun halted => absurd (idle1.symm.trans halted) (by decide)⟩
  · exact ⟨encodeAccepted s1, encodeAccepted s2, runSteps_encode s1 0 legal idle1 pending1,
      runSteps_encode s2 0 legal2 idle2 pending2, rfl, noFrame1.trans noFrame2.symm, nofun⟩
  · exact ⟨_, _, runSteps_encode_prep s1 k legal idle1 pending1,
      runSteps_encode_prep s2 k legal2 idle2 pending2,
      sameOutcome_of_prepStep (encodeAccepted s1) (encodeAccepted s2) legal
        ⟨cfg, rate, pixels, noFrame1, noFrame2⟩ k⟩

end Sys2Proof.Machine

namespace Sys2Proof.Machine

/-! ## The motion commands (spec 42_motion R177, R182, R186) -/

/-- Settles O16: the effect of QUANT is a write of `DIR`. -/
theorem quantWritesOnlyTheDirection : Obligations.QuantWritesOnlyTheDirection :=
  ⟨decode_encode .quant, fun s idle => exec_of_idle .quant s idle⟩

/-- The pattern of `{y[7:0], x[7:0]}`, for coordinates of any size. -/
theorem packXY_eq_ofNat (x y : Nat) : packXY x y = BitVec.ofNat 16 (y % 256 * 256 + x % 256) := by
  apply BitVec.eq_of_toNat_eq
  rw [packXY, toNat_append_weights, BitVec.toNat_ofNat, BitVec.toNat_ofNat, BitVec.toNat_ofNat]
  omega

/-- Settles O21: MOVEC goes one of its two ways, and `POS` is the packed pair of floors. -/
theorem movecIntegratesAndClamps : Obligations.MovecIntegratesAndClamps := by
  refine ⟨decode_encode .movec, ?_⟩
  rintro s d fx fy idle rfl rfl rfl
  rw [exec_of_idle .movec s idle, effectOf]
  rcases movecEffect_cases s with ⟨stay, effect⟩ | ⟨moving, fx, fy, rfl, rfl, effect⟩
  · rw [effect]
    exact ⟨fun _ => rfl, fun moving => absurd stay moving⟩
  · refine ⟨fun stay => absurd stay moving, fun _ => ?_⟩
    rw [effect, setMotion, packXY_eq_ofNat]
    rfl

/-- One coordinate of MOVED as the clamp of R187, by the largest coordinate plus one. -/
theorem eq_stepCell {x old dim : Nat} {delta : Int} (pos : 1 ≤ dim)
    (h : (x : Int) = min (max ((old : Int) + delta) 0) (dim - 1)) :
    x = stepCell old delta (dim - 1) := by
  unfold stepCell sat
  omega

/-- Settles O23: MOVED goes one of its two ways; within a legal part the cell fits its two bytes. -/
theorem movedStepsOneCellAndSaturates : Obligations.MovedStepsOneCellAndSaturates := by
  refine ⟨decode_encode .moved, ?_⟩
  rintro s d x y legal idle rfl hx hy
  have dims := legal_dimensions s.cfg legal
  have hx := eq_stepCell (by omega) hx
  have hy := eq_stepCell (by omega) hy
  rw [← coordX_eq_mod] at hx
  rw [← coordY_eq_div] at hy
  rw [exec_of_idle .moved s idle, effectOf]
  rcases movedEffect_cases s with ⟨stay, effect⟩ | ⟨moving, x', y', hx', hy', effect⟩
  · rw [effect]
    exact ⟨fun _ => rfl, fun moving => absurd stay moving⟩
  · refine ⟨fun stay => absurd stay moving, fun _ => ?_⟩
    obtain rfl : x = x' := hx.trans hx'.symm
    obtain rfl : y = y' := hy.trans hy'.symm
    have maxima := legal_maxima s.cfg legal
    have lex : x ≤ xMax s.cfg := hx ▸ stepCell_le _ _ _
    have ley : y ≤ yMax s.cfg := hy ▸ stepCell_le _ _ _
    rw [effect, setMotion, packXY_eq_ofNat, Nat.mod_eq_of_lt (by omega : x < 256),
      Nat.mod_eq_of_lt (by omega : y < 256)]
    rfl

end Sys2Proof.Machine

namespace Sys2Proof.Machine

/-! ## The magnitude (spec 42_motion R173) -/

/-! ### Infinite products, signs of results that are no NaN -/

/-- An infinity times a number that is neither NaN nor zero. -/
theorem isInf_fmul {a b : F32} (na : isNaN a = false) (nb : isNaN b = false)
    (za : isZero a = false) (zb : isZero b = false) (h : isInf a = true ∨ isInf b = true) :
    isInf (fmul a b) = true := by
  rw [fmul_of_inf na nb za zb h]
  exact isInf_packSign_infBits _

/-- A product has the sign of its factors together, an infinite one too. -/
theorem signOf_fmul_of_not_nan {a b : F32} (h : isNaN (fmul a b) = false) :
    signOf (fmul a b) = (signOf a ^^ signOf b) := by
  have valid := mt (isNaN_fmul_iff a b).2 (Bool.not_eq_true _ ▸ h)
  simp only [not_or, not_and, Bool.not_eq_true] at valid
  obtain ⟨na, nb, infZero, zeroInf⟩ := valid
  by_cases inf : isInf a = true ∨ isInf b = true
  · have za : isZero a = false := by grind [isZero_of_isInf]
    have zb : isZero b = false := by grind [isZero_of_isInf]
    rw [fmul_of_inf na nb za zb inf, signOf_packSign_infBits]
  · obtain ⟨ia, ib⟩ := not_or.1 inf
    rw [Bool.not_eq_true] at ia ib
    exact signOf_fmul_of_finite ((isFinite_iff a).2 ⟨na, ia⟩) ((isFinite_iff b).2 ⟨nb, ib⟩)

theorem unitsOf_of_signOf {v : F32} (h : signOf v = false) : unitsOf v = magOf v := by
  rw [unitsOf, h, if_neg Bool.false_ne_true]

/-- Terms without a sign are never an invalid sum, and their sum has no sign. -/
theorem fadd_of_signOf {a b : F32} (sa : signOf a = false) (sb : signOf b = false)
    (na : isNaN a = false) (nb : isNaN b = false) :
    isNaN (fadd a b) = false ∧ signOf (fadd a b) = false := by
  cases ia : isInf a with
  | true => rw [fadd_of_inf_left ia nb fun _ => sb.trans sa.symm]; exact ⟨na, sa⟩
  | false =>
    cases ib : isInf b with
    | true => rw [fadd_of_inf_right ib na fun _ => sa.trans sb.symm]; exact ⟨nb, sb⟩
    | false =>
      rw [fadd_of_finite ((isFinite_iff a).2 ⟨na, ia⟩) ((isFinite_iff b).2 ⟨nb, ib⟩)]
      refine ⟨isNaN_roundF _ _ _, ?_⟩
      rw [signOf_roundF, sumSign, unitsOf_of_signOf sa, unitsOf_of_signOf sb, sa]
      split
      · rfl
      · simp; omega

/-- A square is NaN for a NaN only. -/
theorem isNaN_fmul_self (v : F32) : isNaN (fmul v v) = isNaN v := by
  have notBoth : isZero v = true → isInf v = false := isInf_of_isZero
  rw [Bool.eq_iff_iff, isNaN_fmul_iff]
  grind

theorem signOf_fmul_self {v : F32} (h : isNaN v = false) : signOf (fmul v v) = false := by
  rw [signOf_fmul_of_not_nan ((isNaN_fmul_self v).trans h), Bool.xor_self]

/-- The square of an infinity is infinite. -/
theorem isInf_fmul_self {v : F32} (h : isInf v = true) : isInf (fmul v v) = true :=
  isInf_fmul (isNaN_of_isInf h) (isNaN_of_isInf h) (isZero_of_isInf h) (isZero_of_isInf h) (.inl h)

/-- The only infinity without a sign. -/
theorem eq_infinity {v : F32} (h : isInf v = true) (s : signOf v = false) : v = 0x7F800000#32 :=
  eq_of_isInf h (by decide) (s.trans (by decide))

/-! ### The sum of squares and its root -/

/-- The sum of squares of numbers is a number without a sign. -/
theorem fadd_squares {p r : F32} (np : isNaN p = false) (nr : isNaN r = false) :
    isNaN (fadd (fmul p p) (fmul r r)) = false ∧ signOf (fadd (fmul p p) (fmul r r)) = false :=
  fadd_of_signOf (signOf_fmul_self np) (signOf_fmul_self nr)
    ((isNaN_fmul_self p).trans np) ((isNaN_fmul_self r).trans nr)

theorem isInf_fadd_squares {p r : F32} (np : isNaN p = false) (nr : isNaN r = false)
    (inf : isInf p = true ∨ isInf r = true) : isInf (fadd (fmul p p) (fmul r r)) = true := by
  have signs : signOf (fmul p p) = signOf (fmul r r) :=
    (signOf_fmul_self np).trans (signOf_fmul_self nr).symm
  rcases inf with ip | ir
  · rw [fadd_of_inf_left (isInf_fmul_self ip) ((isNaN_fmul_self r).trans nr) fun _ => signs.symm]
    exact isInf_fmul_self ip
  · rw [fadd_of_inf_right (isInf_fmul_self ir) ((isNaN_fmul_self p).trans np) fun _ => signs]
    exact isInf_fmul_self ir

/-- A root is the zero it is taken of, or positive. -/
theorem signOf_fsqrt {v : F32} (s : signOf v = false) (n : isNaN v = false) :
    signOf (fsqrt v) = false := by
  rcases nan_or_inf_or_finite v with nan | inf | fin
  · exact absurd nan (by rw [n]; decide)
  · rw [fsqrt_of_inf inf s, s]
  · have nonneg : 0 ≤ unitsOf v := by rw [unitsOf_of_signOf s]; omega
    rw [(fsqrt_of_nonneg fin nonneg).2.1, s]

theorem isNaN_mag_iff (p r : F32) :
    isNaN (mag p r) = true ↔ isNaN p = true ∨ isNaN r = true := by
  by_cases nan : isNaN p = true ∨ isNaN r = true
  · refine iff_of_true ?_ nan
    rw [mag, fadd_of_nan (by rwa [isNaN_fmul_self, isNaN_fmul_self]), fsqrt_of_nan isNaN_defaultNaN]
    exact isNaN_defaultNaN
  · refine iff_of_false ?_ nan
    obtain ⟨np, nr⟩ := not_or.1 nan
    rw [Bool.not_eq_true] at np nr
    obtain ⟨number, sign⟩ := fadd_squares np nr
    rw [mag, isNaN_fsqrt_iff, number, sign]
    simp

theorem signOf_mag {p r : F32} (h : isNaN (mag p r) = false) : signOf (mag p r) = false := by
  have numbers := mt (isNaN_mag_iff p r).2 (by rw [h]; decide)
  simp only [not_or, Bool.not_eq_true] at numbers
  obtain ⟨np, nr⟩ := numbers
  obtain ⟨number, sign⟩ := fadd_squares np nr
  exact signOf_fsqrt sign number

/-- Settles O14: the sum of squares has no sign, so its root is never invalid. -/
theorem magnitudeIsNaNExactlyWhenAnOperandIs :
    Obligations.MagnitudeIsNaNExactlyWhenAnOperandIs := by
  refine fun p r => ⟨rfl, isNaN_mag_iff p r, signOf_mag, fun np nr inf => ?_⟩
  have infinite := isInf_fadd_squares np nr inf
  obtain ⟨-, sign⟩ := fadd_squares np nr
  rw [mag, fsqrt_of_inf infinite sign]
  exact eq_infinity infinite sign

/-! ## The quantizer (spec 42_motion R174, R176) -/

/-- The boundaries of R172 in half degrees. -/
theorem unitsOf_boundaries :
    unitsOf b1 = halfDegrees 45 ∧ unitsOf b2 = halfDegrees 135 ∧ unitsOf b3 = halfDegrees 225 ∧
    unitsOf b4 = halfDegrees 315 ∧ unitsOf (minus b1) = halfDegrees (-45) ∧
    unitsOf (minus b2) = halfDegrees (-135) ∧ unitsOf (minus b3) = halfDegrees (-225) ∧
    unitsOf (minus b4) = halfDegrees (-315) := by decide

theorem isNaN_boundaries :
    isNaN b1 = false ∧ isNaN b2 = false ∧ isNaN b3 = false ∧ isNaN b4 = false ∧
    isNaN (minus b1) = false ∧ isNaN (minus b2) = false ∧ isNaN (minus b3) = false ∧
    isNaN (minus b4) = false := by decide

/-- The test for a sector, of an angle that is no NaN. -/
theorem inSector_iff {a lo hi : F32} (na : isNaN a = false) (nlo : isNaN lo = false)
    (nhi : isNaN hi = false) :
    (fge a lo && flt a hi) = true ↔ unitsOf lo ≤ unitsOf a ∧ unitsOf a < unitsOf hi := by
  rw [Bool.and_eq_true, fge, fle_iff, flt_iff]
  simp only [na, nlo, nhi, true_and]

/-- The table of R176 for an angle that is no NaN: in each row the interval and the Direction. -/
theorem bucket_cases {a : F32} (na : isNaN a = false) :
    (bucket a = .e ∧ halfDegrees (-45) ≤ unitsOf a ∧ unitsOf a < halfDegrees 45) ∨
    (bucket a = .ne ∧ halfDegrees 45 ≤ unitsOf a ∧ unitsOf a < halfDegrees 135) ∨
    (bucket a = .n ∧ halfDegrees 135 ≤ unitsOf a ∧ unitsOf a < halfDegrees 225) ∨
    (bucket a = .nw ∧ halfDegrees 225 ≤ unitsOf a ∧ unitsOf a < halfDegrees 315) ∨
    (bucket a = .se ∧ halfDegrees (-135) ≤ unitsOf a ∧ unitsOf a < halfDegrees (-45)) ∨
    (bucket a = .s ∧ halfDegrees (-225) ≤ unitsOf a ∧ unitsOf a < halfDegrees (-135)) ∨
    (bucket a = .sw ∧ halfDegrees (-315) ≤ unitsOf a ∧ unitsOf a < halfDegrees (-225)) ∨
    (bucket a = .w ∧ (halfDegrees 315 ≤ unitsOf a ∨ unitsOf a < halfDegrees (-315))) := by
  obtain ⟨n1, n2, n3, n4, m1, m2, m3, m4⟩ := isNaN_boundaries
  obtain ⟨u1, u2, u3, u4, w1, w2, w3, w4⟩ := unitsOf_boundaries
  unfold bucket
  simp only [inSector_iff na, n1, n2, n3, n4, m1, m2, m3, m4, u1, u2, u3, u4, w1, w2, w3, w4]
  generalize unitsOf a = u
  unfold halfDegrees
  split_ifs <;> simp only [false_and, true_and, false_or, or_false] <;> omega

/-- A NaN angle fails every test. -/
theorem bucket_of_nan {a : F32} (h : isNaN a = true) : bucket a = .w := by
  simp [bucket, fge, fle, h]

theorem bucket_ne_stay (a : F32) : bucket a ≠ .stay := by
  unfold bucket
  split_ifs <;> decide

theorem quant_eq_stay_iff (c : Config) (p r : F32) :
    quant c p r = .stay ↔ flt (mag p r) c.moveThresh = true := by
  rw [quant]
  split
  next below => exact iff_of_true rfl below
  next above => exact iff_of_false (bucket_ne_stay _) above

/-- Settles O15: the intervals of the table are disjoint, so the row that holds an angle is the only
one. -/
theorem quantizerFollowsTheSectorTable : Obligations.QuantizerFollowsTheSectorTable := by
  refine ⟨fun c p r => ⟨quant_eq_stay_iff c p r, fun above => ?_⟩, fun a => ⟨bucket_of_nan, ?_⟩⟩
  · rw [quant, above, if_neg Bool.false_ne_true]
    rfl
  · intro na
    have rows := bucket_cases na
    generalize unitsOf a = u at rows ⊢
    unfold halfDegrees at rows ⊢
    rcases rows with ⟨e, row⟩ | ⟨e, row⟩ | ⟨e, row⟩ | ⟨e, row⟩ | ⟨e, row⟩ | ⟨e, row⟩ | ⟨e, row⟩ |
      ⟨e, row⟩ <;> simp only [e, reduceCtorEq, false_iff, true_iff] <;> omega

end Sys2Proof.Machine

namespace Sys2Proof.Machine

/-! ## Each operation is monotone (spec 00_scope R13)

Rounding keeps the order of the exact results, so an operation keeps it in the arguments in which
the exact operation does. -/

/-! ### Order of patterns -/

/-- A number n with a sign. -/
def signed (sign : Bool) (n : Nat) : Int := if sign then -(n : Int) else n

theorem unitsOf_eq_signed (v : F32) : unitsOf v = signed (signOf v) (magOf v) := rfl

/-- The value that stands for an infinity of either sign. -/
theorem magOf_of_isInf {v : F32} (h : isInf v = true) : magOf v = magUnits infBits := by
  rw [magOf_eq, (isInf_iff v).1 h]

theorem unitsOf_of_isInf {v : F32} (h : isInf v = true) :
    unitsOf v = signed (signOf v) (magUnits infBits) := by
  rw [unitsOf_eq_signed, magOf_of_isInf h]

/-- Away from NaN a pattern is finite exactly below the value that stands for infinity. -/
theorem isFinite_iff_magOf_lt {v : F32} (n : isNaN v = false) :
    isFinite v = true ↔ magOf v < magUnits infBits := by
  constructor
  · intro finite
    exact (magOf_lt finite).trans_eq magUnits_infBits.symm
  · intro lt
    rw [isFinite_iff]
    exact ⟨n, Bool.eq_false_iff.2 fun inf => absurd (magOf_of_isInf inf) lt.ne⟩

theorem magOf_le {v : F32} (n : isNaN v = false) : magOf v ≤ magUnits infBits := by
  cases inf : isInf v with
  | true => exact (magOf_of_isInf inf).le
  | false => exact ((isFinite_iff_magOf_lt n).1 ((isFinite_iff v).2 ⟨n, inf⟩)).le

/-- A value other than zero has one pattern. -/
theorem eq_of_unitsOf_eq {a b : F32} (h : unitsOf a = unitsOf b) (nonzero : unitsOf b ≠ 0) :
    a = b := by
  have magnitude : magOf a = magOf b := by rw [← natAbs_unitsOf, h, natAbs_unitsOf]
  have positive : magOf b ≠ 0 := by rw [← natAbs_unitsOf]; omega
  have sign : signOf a = signOf b := by
    unfold unitsOf at h
    cases sa : signOf a <;> cases sb : signOf b <;> simp [sa, sb] at h ⊢ <;> omega
  have bits : a.toNat % 2 ^ 31 = b.toNat % 2 ^ 31 :=
    magUnits_strictMono.injective (by rw [← magOf_eq, ← magOf_eq, magnitude])
  rw [← packSign_fields a, ← packSign_fields b, sign, bits]

/-- The ordered comparison is antisymmetric away from the two zeros. -/
theorem fle_antisymm {a b : F32} (ab : fle a b = true) (ba : fle b a = true)
    (nonzero : unitsOf b ≠ 0) : a = b := by
  obtain ⟨-, -, le⟩ := (fle_iff a b).1 ab
  obtain ⟨-, -, ge⟩ := (fle_iff b a).1 ba
  exact eq_of_unitsOf_eq (le_antisymm le ge) nonzero

/-- A number between finite ones is finite. -/
theorem isFinite_of_between {lo v hi : F32} (flo : isFinite lo = true) (fhi : isFinite hi = true)
    (h1 : fle lo v = true) (h2 : fle v hi = true) : isFinite v = true := by
  obtain ⟨nlo, nv, le1⟩ := (fle_iff lo v).1 h1
  obtain ⟨-, nhi, le2⟩ := (fle_iff v hi).1 h2
  rw [isFinite_iff_magOf_lt nlo, ← natAbs_unitsOf] at flo
  rw [isFinite_iff_magOf_lt nhi, ← natAbs_unitsOf] at fhi
  rw [isFinite_iff_magOf_lt nv, ← natAbs_unitsOf]
  omega

theorem unitsOf_le_of_fle {a b : F32} (h : fle a b = true) : unitsOf a ≤ unitsOf b :=
  ((fle_iff a b).1 h).2.2

/-! ### Order of results -/

theorem unitsOf_roundF (sign : Bool) (n d : Nat) :
    unitsOf (roundF sign n d) = signed sign (magUnits (roundMag n d)) := by
  rw [unitsOf_eq_signed, signOf_roundF, magOf_roundF]

theorem roundMag_zero (d : Nat) (hd : 0 < d) : roundMag 0 d = 0 := by
  have pattern := roundMag_exact 0 d hd (Nat.zero_le _)
  rwa [show magUnits 0 = 0 by decide, Nat.zero_mul] at pattern

/-- Rounding keeps the order of signed values. -/
theorem unitsOf_roundF_mono (s1 s2 : Bool) (n1 n2 d : Nat) (hd : 0 < d)
    (h : signed s1 n1 ≤ signed s2 n2) :
    unitsOf (roundF s1 n1 d) ≤ unitsOf (roundF s2 n2 d) := by
  have mono {n m : Nat} (le : n ≤ m) : magUnits (roundMag n d) ≤ magUnits (roundMag m d) :=
    magUnits_strictMono.monotone (roundMag_mono n d m d hd hd (Nat.mul_le_mul_right d le))
  rw [unitsOf_roundF, unitsOf_roundF]
  cases s1 <;> cases s2 <;> simp only [signed, if_true, Bool.false_eq_true, if_false] at h ⊢
  case false.false => exact_mod_cast mono (by omega)
  case true.true => exact Int.neg_le_neg (by exact_mod_cast mono (by omega))
  case true.false => omega
  case false.true =>
    obtain ⟨rfl, rfl⟩ : n1 = 0 ∧ n2 = 0 := by omega
    rw [roundMag_zero d hd]
    decide

theorem signed_sumSign (a b : F32) :
    signed (sumSign a b) (unitsOf a + unitsOf b).natAbs = unitsOf a + unitsOf b := by
  unfold signed sumSign
  generalize unitsOf a + unitsOf b = sum
  by_cases zero : sum = 0
  · simp [zero]
  · rw [if_neg zero]
    simp only [decide_eq_true_iff]
    split <;> omega

/-- Sums are ordered as the exact sums. -/
theorem fadd_mono {a b c d : F32} (fa : isFinite a = true) (fb : isFinite b = true)
    (fc : isFinite c = true) (fd : isFinite d = true)
    (h : unitsOf a + unitsOf b ≤ unitsOf c + unitsOf d) : fle (fadd a b) (fadd c d) = true := by
  rw [fadd_of_finite fa fb, fadd_of_finite fc fd, fle_iff]
  refine ⟨isNaN_roundF _ _ _, isNaN_roundF _ _ _, unitsOf_roundF_mono _ _ _ _ 1 Nat.one_pos ?_⟩
  rwa [signed_sumSign, signed_sumSign]

/-- Differences are ordered as the exact differences. -/
theorem fsub_mono {a b c d : F32} (fa : isFinite a = true) (fb : isFinite b = true)
    (fc : isFinite c = true) (fd : isFinite d = true)
    (h : unitsOf a - unitsOf b ≤ unitsOf c - unitsOf d) : fle (fsub a b) (fsub c d) = true :=
  fadd_mono fa (by rwa [isFinite_fneg]) fc (by rwa [isFinite_fneg])
    (by rw [unitsOf_fneg, unitsOf_fneg]; omega)

/-- Products are ordered as the exact products. -/
theorem fmul_mono {a b c d : F32} (fa : isFinite a = true) (fb : isFinite b = true)
    (fc : isFinite c = true) (fd : isFinite d = true)
    (h : unitsOf a * unitsOf b ≤ unitsOf c * unitsOf d) : fle (fmul a b) (fmul c d) = true := by
  rw [fmul_of_finite fa fb, fmul_of_finite fc fd, fle_iff]
  refine ⟨isNaN_roundF _ _ _, isNaN_roundF _ _ _,
    unitsOf_roundF_mono _ _ _ _ _ (Nat.two_pow_pos 149) ?_⟩
  rwa [unitsOf_mul, unitsOf_mul] at h

/-- Quotients of numbers without a sign by one of them are ordered as the dividends, an infinite
dividend included. -/
theorem fdiv_mono {a b d : F32} (sa : signOf a = false) (sb : signOf b = false)
    (fd : isFinite d = true) (zd : isZero d = false) (sd : signOf d = false)
    (h : fle a b = true) : fle (fdiv a d) (fdiv b d) = true := by
  obtain ⟨na, nb, le⟩ := (fle_iff a b).1 h
  rw [unitsOf_of_signOf sa, unitsOf_of_signOf sb] at le
  have pos := magOf_pos ((isFinite_iff d).1 fd).1 zd
  have nq {v : F32} (nv : isNaN v = false) : isNaN (fdiv v d) = false := by
    rw [← Bool.not_eq_true, isNaN_fdiv_iff]
    simp [nv, (isFinite_iff d).1 fd, zd]
  cases ib : isInf b with
  | true =>
    rw [fle_iff]
    refine ⟨nq na, nq nb, ?_⟩
    have top : unitsOf (fdiv b d) = magUnits infBits := by
      rw [fdiv_of_inf_left ib fd, sb, sd, unitsOf_of_isInf (isInf_packSign_infBits _),
        signOf_packSign_infBits]
      rfl
    have bound := magOf_le (nq na)
    rw [← natAbs_unitsOf] at bound
    omega
  | false =>
    have fb := (isFinite_iff b).2 ⟨nb, ib⟩
    have fa : isFinite a = true := by
      rw [isFinite_iff_magOf_lt nb] at fb
      rw [isFinite_iff_magOf_lt na]
      omega
    rw [fdiv_of_finite fa fd zd, fdiv_of_finite fb fd zd, sa, sb, fle_iff]
    refine ⟨isNaN_roundF _ _ _, isNaN_roundF _ _ _, unitsOf_roundF_mono _ _ _ _ _ pos ?_⟩
    rw [sd]
    simp only [signed, bne_self_eq_false, Bool.false_eq_true, if_false]
    exact Int.ofNat_le.2 (Nat.mul_le_mul_right _ (by omega))

/-- The value of a clamp is the clamp of the value. -/
theorem unitsOf_clamp {v lo hi : F32} (nv : isNaN v = false) (h : fle lo hi = true) :
    unitsOf (clamp v lo hi) = min (max (unitsOf v) (unitsOf lo)) (unitsOf hi) := by
  obtain ⟨nlo, nhi, le⟩ := (fle_iff lo hi).1 h
  unfold clamp fgt fge
  rw [flt, fle]
  simp only [nv, nlo, nhi, Bool.not_false, Bool.true_and, decide_eq_true_iff]
  split_ifs <;> omega

theorem clamp_mono {v w lo hi : F32} (h : fle lo hi = true) (vw : fle v w = true) :
    fle (clamp v lo hi) (clamp w lo hi) = true := by
  obtain ⟨nv, nw, le⟩ := (fle_iff v w).1 vw
  rw [fle_iff, unitsOf_clamp nv h, unitsOf_clamp nw h]
  exact ⟨(clamp_range v lo hi h).1, (clamp_range w lo hi h).1, by omega⟩

/-! ## The speed ramp (spec 42_motion R178 to R180) -/

/-- A ramp parameter, or a value between: a number in [0, 1]. -/
def InUnit (v : F32) : Prop := fle plusZero v = true ∧ fle v one = true

theorem InUnit.finite {v : F32} (h : InUnit v) : isFinite v = true :=
  isFinite_of_between (by decide) (by decide) h.1 h.2

theorem InUnit.nonneg {v : F32} (h : InUnit v) : 0 ≤ unitsOf v :=
  ((fle_iff plusZero v).1 h.1).2.2

theorem InUnit.le_one {v : F32} (h : InUnit v) : unitsOf v ≤ unitsOf one :=
  ((fle_iff v one).1 h.2).2.2

theorem inUnit_plusZero : InUnit plusZero := by unfold InUnit; decide

theorem inUnit_one : InUnit one := by unfold InUnit; decide

/-- 1 - v falls as v grows. -/
theorem one_sub_antitone {v w : F32} (hv : InUnit v) (hw : InUnit w) (le : unitsOf v ≤ unitsOf w) :
    fle (fsub one w) (fsub one v) = true :=
  fsub_mono inUnit_one.finite hw.finite inUnit_one.finite hv.finite (by omega)

theorem inUnit_one_sub {v : F32} (hv : InUnit v) : InUnit (fsub one v) := by
  have upper := one_sub_antitone inUnit_plusZero hv hv.nonneg
  have lower := one_sub_antitone hv inUnit_one hv.le_one
  rw [show fsub one plusZero = one by decide] at upper
  rw [show fsub one one = plusZero by decide] at lower
  exact ⟨lower, upper⟩

theorem square_mono {v w : F32} (hv : InUnit v) (hw : InUnit w) (le : unitsOf v ≤ unitsOf w) :
    fle (fmul v v) (fmul w w) = true :=
  fmul_mono hv.finite hv.finite hw.finite hw.finite (Int.mul_le_mul le le hv.nonneg hw.nonneg)

theorem inUnit_square {v : F32} (hv : InUnit v) : InUnit (fmul v v) := by
  have lower := square_mono inUnit_plusZero hv hv.nonneg
  have upper := square_mono hv inUnit_one hv.le_one
  rw [show fmul plusZero plusZero = plusZero by decide] at lower
  rw [show fmul one one = one by decide] at upper
  exact ⟨lower, upper⟩

/-- The last two operations of the ramp, 1 + x * 15, grow with x. -/
theorem one_add_scaled_mono {x y : F32} (hx : InUnit x) (hy : InUnit y)
    (le : unitsOf x ≤ unitsOf y) :
    fle (fadd one (fmul x fifteen)) (fadd one (fmul y fifteen)) = true := by
  have f15 : isFinite fifteen = true := by decide
  have scaled {x y : F32} (hx : InUnit x) (hy : InUnit y) (le : unitsOf x ≤ unitsOf y) :
      fle (fmul x fifteen) (fmul y fifteen) = true :=
    fmul_mono hx.finite f15 hy.finite f15 (Int.mul_le_mul_of_nonneg_right le (by decide))
  have finite {x : F32} (hx : InUnit x) : isFinite (fmul x fifteen) = true :=
    isFinite_of_between (by decide) (by decide) (scaled inUnit_plusZero hx hx.nonneg)
      (scaled hx inUnit_one hx.le_one)
  have step := unitsOf_le_of_fle (scaled hx hy le)
  exact fadd_mono inUnit_one.finite (finite hx) inUnit_one.finite (finite hy) (by omega)

/-- R180 (c) in the ramp parameter: two operations turn the order around, the others keep it. -/
theorem rampOf_mono {v w : F32} (hv : InUnit v) (hw : InUnit w) (le : unitsOf v ≤ unitsOf w) :
    fle (rampOf v) (rampOf w) = true := by
  have uv := inUnit_one_sub hv
  have uw := inUnit_one_sub hw
  have u := one_sub_antitone hv hw le
  have q := square_mono uw uv (unitsOf_le_of_fle u)
  have u4 := square_mono (inUnit_square uw) (inUnit_square uv) (unitsOf_le_of_fle q)
  have u4v := inUnit_square (inUnit_square uv)
  have u4w := inUnit_square (inUnit_square uw)
  have rise := one_sub_antitone u4w u4v (unitsOf_le_of_fle u4)
  exact one_add_scaled_mono (inUnit_one_sub u4v) (inUnit_one_sub u4w) (unitsOf_le_of_fle rise)

/-! ### The ends of the ramp -/

/-- 16.0. -/
def sixteen : F32 := 0x41800000#32

/-- R180 (b). -/
theorem rampOf_plusZero : rampOf plusZero = one := by decide +kernel

theorem rampOf_one : rampOf one = sixteen := by decide +kernel

theorem rampOf_range {t : F32} (h : InUnit t) :
    fle one (rampOf t) = true ∧ fle (rampOf t) sixteen = true :=
  ⟨rampOf_plusZero ▸ rampOf_mono inUnit_plusZero h h.nonneg,
    rampOf_one ▸ rampOf_mono h inUnit_one h.le_one⟩

/-- A ramp parameter of value 0, of either sign, gives 1.0. -/
theorem rampOf_eq_one {t : F32} (h : InUnit t) (le : unitsOf t ≤ 0) : rampOf t = one :=
  fle_antisymm (rampOf_plusZero ▸ rampOf_mono h inUnit_plusZero le) (rampOf_range h).1 (by decide)

/-! ### The ramp parameter -/

/-- The ramp parameter of a magnitude (42_motion R178). -/
def rampTOf (m : F32) : F32 := clamp (fdiv m ninety) plusZero one

theorem ramp_eq (p r : F32) : ramp p r = rampOf (rampTOf (mag p r)) := rfl

theorem inUnit_rampTOf (m : F32) : InUnit (rampTOf m) :=
  (clamp_range _ plusZero one (by decide)).2

/-- The ramp parameter does not decrease in a magnitude. -/
theorem rampTOf_mono {m n : F32} (sm : signOf m = false) (sn : signOf n = false)
    (h : fle m n = true) : fle (rampTOf m) (rampTOf n) = true :=
  clamp_mono (by decide) (fdiv_mono sm sn (by decide) (by decide) (by decide) h)

theorem rampOf_rampTOf_mono {m n : F32} (sm : signOf m = false) (sn : signOf n = false)
    (h : fle m n = true) : fle (rampOf (rampTOf m)) (rampOf (rampTOf n)) = true :=
  rampOf_mono (inUnit_rampTOf m) (inUnit_rampTOf n) (unitsOf_le_of_fle (rampTOf_mono sm sn h))

/-- A zero magnitude gives 1.0 (R179). -/
theorem rampOf_rampTOf_of_isZero {m : F32} (sm : signOf m = false) (z : isZero m = true) :
    rampOf (rampTOf m) = one := by
  have n := isNaN_of_isZero z
  have zero : fle m plusZero = true := by
    rw [fle_iff, unitsOf_of_signOf sm, (isZero_iff n).1 z]
    exact ⟨n, by decide, by decide⟩
  have bottom : rampTOf plusZero = plusZero := by decide +kernel
  have le := unitsOf_le_of_fle (rampTOf_mono sm (by decide) zero)
  rw [bottom, unitsOf_plusZero] at le
  exact rampOf_eq_one (inUnit_rampTOf m) le

/-- A NaN magnitude gives 1.0 (R179). -/
theorem rampOf_rampTOf_of_nan {m : F32} (n : isNaN m = true) : rampOf (rampTOf m) = one := by
  rw [rampTOf, clamp_nan _ _ _ ((isNaN_fdiv_iff m ninety).2 (.inl n)), rampOf_plusZero]

/-- From 0x42B1A28F up the ramp is at its upper end (R180 (d)). -/
theorem rampOf_rampTOf_of_plateau {m : F32} (sm : signOf m = false)
    (h : fle 0x42B1A28F#32 m = true) : rampOf (rampTOf m) = sixteen := by
  have start : rampOf (rampTOf 0x42B1A28F#32) = sixteen := by decide +kernel
  exact fle_antisymm (rampOf_range (inUnit_rampTOf m)).2
    (start ▸ rampOf_rampTOf_mono (by decide) sm h) (by decide)

/-- A magnitude that compares with a number has no sign. -/
theorem signOf_mag_of_fle {p r a : F32} (h : fle a (mag p r) = true) : signOf (mag p r) = false :=
  signOf_mag ((fle_iff _ _).1 h).2.1

/-- Settles O17: the magnitude has no sign where it is a number, and the corner cases are values of
the ramp at a zero, on the plateau, at a NaN and at 45. -/
theorem rampWritesOnlyTheMultiplier : Obligations.RampWritesOnlyTheMultiplier := by
  refine ⟨decode_encode .ramp, ?_⟩
  rintro s m t u q u4 idle hm rfl rfl rfl rfl
  refine ⟨rampOf (rampTOf m), ?_, rfl, fun z => ?zero, fun ge => ?ninety, rampOf_rampTOf_of_nan,
    ?at45⟩
  · rw [exec_of_idle .ramp s idle, hm]
    rfl
  case zero => exact rampOf_rampTOf_of_isZero (hm ▸ signOf_mag (hm ▸ isNaN_of_isZero z)) z
  case ninety =>
    exact rampOf_rampTOf_of_plateau (hm ▸ signOf_mag_of_fle (hm ▸ ge))
      (fle_trans _ ninety m (by decide) ge)
  case at45 =>
    intro at45
    rw [at45]
    decide +kernel

/-- Settles O18: the ramp parameter lies in [0, 1], and the ramp takes its bounds at the ends. -/
theorem rampStaysBetweenOneAndSixteen : Obligations.RampStaysBetweenOneAndSixteen := by
  refine ⟨fun p r => ?_, rampOf_plusZero, rampOf_one⟩
  obtain ⟨lower, upper⟩ := rampOf_range (inUnit_rampTOf (mag p r))
  exact ⟨isFinite_of_between (by decide) (by decide) lower upper, lower, upper⟩

/-- Settles O19: every operation of the ramp keeps or turns around the order of the magnitudes. -/
theorem rampDoesNotDecreaseInTheMagnitude : Obligations.RampDoesNotDecreaseInTheMagnitude := by
  intro p1 r1 p2 r2 h
  have number := ((fle_iff _ _).1 h).1
  exact rampOf_rampTOf_mono (signOf_mag number) (signOf_mag_of_fle h) h

/-- Settles O20: the ramp has reached its upper end at 0x42B1A28F and never falls again. -/
theorem rampPlateauBeginsBelowNinety : Obligations.RampPlateauBeginsBelowNinety := by
  refine ⟨fun p r h => rampOf_rampTOf_of_plateau (signOf_mag_of_fle h) h, fun p r h => ?_⟩
  rw [ramp_eq, h]
  decide +kernel

end Sys2Proof.Machine

namespace Sys2Proof.Machine

/-! ## Special operands of MOVEC (spec 42_motion R190)

What a coordinate becomes depends on the kind of the product velocity * `DT` * `MULT`: NaN, an
infinity, or a zero. -/

/-! ### What each kind of product does to a coordinate -/

theorem clamp_of_below {v lo hi : F32} (below : flt v lo = true) (h : fle lo hi = true) :
    clamp v lo hi = lo := by
  obtain ⟨-, -, lt⟩ := (flt_iff v lo).1 below
  have le := unitsOf_le_of_fle h
  have notAbove : fgt v hi = false := by
    rw [fgt, ← Bool.not_eq_true, flt_iff]
    omega
  have notWithin : fge v lo = false := by
    rw [fge, ← Bool.not_eq_true, fle_iff]
    omega
  simp [clamp, notAbove, notWithin]

theorem clamp_of_above {v lo hi : F32} (above : flt hi v = true) : clamp v lo hi = hi :=
  if_pos above

/-- A coordinate of the grid (10_state R48), of either sign of zero. -/
structure InGrid (old : F32) (max : Nat) : Prop where
  small : max ≤ 255
  lower : fle plusZero old = true
  upper : fle old (i2f max) = true

theorem isFinite_i2f (k : Nat) (h : k ≤ 256) : isFinite (i2f k) = true := by
  have value : k * 2 ^ 149 < 2 ^ 24 * 2 ^ 253 := by omega
  rw [isFinite_iff_magOf_lt (isNaN_i2f k), (i2f_table k (by omega)).2.2, magUnits_infBits]
  exact value

theorem InGrid.range {old : F32} {max : Nat} (h : InGrid old max) :
    fle plusZero (i2f max) = true :=
  plusZero_fle_i2f max (h.small.trans (by decide))

theorem InGrid.finite {old : F32} {max : Nat} (h : InGrid old max) : isFinite old = true :=
  isFinite_of_between (by decide) (isFinite_i2f max (h.small.trans (by decide))) h.lower h.upper

/-- A NaN product: the coordinate goes to +0. -/
theorem clamp_fadd_of_nan {old w : F32} {max : Nat} (nan : isNaN w = true) :
    clamp (fadd old w) plusZero (i2f max) = plusZero :=
  clamp_nan _ _ _ ((isNaN_fadd_iff old w).2 (.inr (.inl nan)))

/-- An infinite product: the coordinate goes to its limit on the side of the sign. -/
theorem clamp_fadd_of_inf {old w : F32} {max : Nat} (grid : InGrid old max)
    (inf : isInf w = true) :
    clamp (fadd old w) plusZero (i2f max) = if signOf w then plusZero else i2f max := by
  obtain ⟨nan, notInf⟩ := (isFinite_iff old).1 grid.finite
  have limit := isFinite_i2f max (grid.small.trans (by decide))
  rw [isFinite_iff_magOf_lt (isNaN_i2f max), ← natAbs_unitsOf] at limit
  have value := unitsOf_of_isInf inf
  rw [fadd_of_inf_right inf nan fun i => absurd i (by rw [notInf]; decide)]
  cases s : signOf w <;> rw [s] at value
  case true =>
    refine clamp_of_below ((flt_iff _ _).2 ⟨isNaN_of_isInf inf, by decide, ?_⟩) grid.range
    rw [value]
    decide
  case false =>
    refine clamp_of_above ((flt_iff _ _).2 ⟨isNaN_i2f max, isNaN_of_isInf inf, ?_⟩)
    rw [value]
    exact lt_of_le_of_lt Int.le_natAbs (Int.ofNat_lt.2 limit)

theorem unitsOf_of_isZero {v : F32} (h : isZero v = true) : unitsOf v = 0 := by
  have := natAbs_unitsOf v
  rw [(isZero_iff (isNaN_of_isZero h)).1 h] at this
  omega

theorem isFinite_of_isZero {v : F32} (h : isZero v = true) : isFinite v = true :=
  (isFinite_iff v).2 ⟨isNaN_of_isZero h, isInf_of_isZero h⟩

theorem magBits_lt {v : F32} (f : isFinite v = true) : v.toNat % 2 ^ 31 < infBits := by
  rw [isFinite_iff_magOf_lt ((isFinite_iff v).1 f).1, magOf_eq] at f
  exact magUnits_strictMono.lt_iff_lt.1 f

/-- The magnitude of a finite pattern rounds to that pattern. -/
theorem roundMag_magOf {v : F32} (f : isFinite v = true) (d : Nat) (hd : 0 < d) :
    roundMag (magOf v * d) d = v.toNat % 2 ^ 31 := by
  rw [magOf_eq, roundMag_exact _ d hd (magBits_lt f).le]

/-- Adding a zero leaves the value; a sum of zeros may have another sign. -/
theorem unitsOf_fadd_zero {v w : F32} (f : isFinite v = true) (z : isZero w = true) :
    unitsOf (fadd v w) = unitsOf v := by
  have sign := signed_sumSign v w
  have unrounded := roundMag_magOf f 1 Nat.one_pos
  rw [Nat.mul_one] at unrounded
  rw [unitsOf_of_isZero z, Int.add_zero, natAbs_unitsOf] at sign
  rw [fadd_of_finite f (isFinite_of_isZero z), unitsOf_roundF, unitsOf_of_isZero z, Int.add_zero,
    natAbs_unitsOf, unrounded, ← magOf_eq, sign]

/-- A product that is zero: the number does not change. -/
theorem clamp_fadd_of_zero {old w : F32} {max : Nat} (grid : InGrid old max)
    (zero : isZero w = true) :
    isNaN (clamp (fadd old w) plusZero (i2f max)) = false ∧
      unitsOf (clamp (fadd old w) plusZero (i2f max)) = unitsOf old := by
  have same := unitsOf_fadd_zero grid.finite zero
  have number : isNaN (fadd old w) = false := by
    rw [fadd_of_finite grid.finite (isFinite_of_isZero zero)]
    exact isNaN_roundF _ _ _
  refine ⟨(clamp_range _ _ _ grid.range).1, ?_⟩
  have lower := unitsOf_le_of_fle grid.lower
  have upper := unitsOf_le_of_fle grid.upper
  rw [unitsOf_clamp number grid.range, same]
  omega

/-! ### The kinds of a product -/

theorem fmul_comm (a b : F32) : fmul a b = fmul b a := by
  unfold fmul
  rw [Bool.or_comm (isNaN a), Bool.or_comm (isInf a), Bool.or_comm (isZero a), bne_comm,
    Nat.mul_comm]

/-- A zero times a finite number. -/
theorem isZero_fmul {a b : F32} (z : isZero a = true) (f : isFinite b = true) :
    isZero (fmul a b) = true := by
  rw [fmul_of_finite (isFinite_of_isZero z) f, (isZero_iff (isNaN_of_isZero z)).1 z, Nat.zero_mul,
    roundF, roundMag_zero _ (Nat.two_pow_pos 149)]
  exact isZero_packSign_zero _

theorem nan_or_inf_fmul {a : F32} (b : F32) (i : isInf a = true) :
    isNaN (fmul a b) = true ∨ isInf (fmul a b) = true := by
  by_cases valid : isNaN b = false ∧ isZero b = false
  · exact .inr (isInf_fmul (isNaN_of_isInf i) valid.1 (isZero_of_isInf i) valid.2 (.inl i))
  · left
    rw [isNaN_fmul_iff, i]
    grind

theorem nan_or_zero_fmul {a : F32} (b : F32) (z : isZero a = true) :
    isNaN (fmul a b) = true ∨ isZero (fmul a b) = true := by
  rcases nan_or_inf_or_finite b with n | i | f
  · exact .inl ((isNaN_fmul_iff a b).2 (.inr (.inl n)))
  · exact .inl ((isNaN_fmul_iff a b).2 (.inr (.inr (.inr ⟨z, i⟩))))
  · exact .inr (isZero_fmul z f)

/-- A NaN or an infinity times a zero. -/
theorem isNaN_fmul_zero {a b : F32} (h : isNaN a = true ∨ isInf a = true) (z : isZero b = true) :
    isNaN (fmul a b) = true := by
  rw [isNaN_fmul_iff]
  exact h.elim .inl fun i => .inr (.inr (.inl ⟨i, z⟩))

/-- A NaN or a zero times an infinity. -/
theorem isNaN_fmul_inf {a b : F32} (h : isNaN a = true ∨ isZero a = true) (i : isInf b = true) :
    isNaN (fmul a b) = true := by
  rw [isNaN_fmul_iff]
  exact h.elim .inl fun z => .inr (.inr (.inr ⟨z, i⟩))

/-- Numbers other than zero have no invalid product. -/
theorem isNaN_fmul_eq_false {a b : F32} (na : isNaN a = false) (nb : isNaN b = false)
    (za : isZero a = false) (zb : isZero b = false) : isNaN (fmul a b) = false := by
  rw [← Bool.not_eq_true, isNaN_fmul_iff, na, nb, za, zb]
  simp

/-- A factor above 0.5 keeps a product with a number other than zero from rounding to zero: the
least such product is just above half a unit. -/
theorem isZero_fmul_eq_false {v a : F32} (nv : isNaN v = false) (na : isNaN a = false)
    (za : isZero a = false) (large : 2 ^ 148 < magOf v) : isZero (fmul v a) = false := by
  have zv : isZero v = false := by
    rw [← Bool.not_eq_true, isZero_iff nv]
    omega
  by_cases inf : isInf v = true ∨ isInf a = true
  · exact isZero_of_isInf (isInf_fmul nv na zv za inf)
  · obtain ⟨iv, ia⟩ := not_or.1 inf
    rw [Bool.not_eq_true] at iv ia
    have least : roundMag (2 ^ 148 + 1) (2 ^ 149) = 1 := by decide
    have product : 2 ^ 148 + 1 ≤ magOf v * magOf a :=
      large.trans_le (Nat.le_mul_of_pos_right _ (magOf_pos na za))
    have bits : 1 ≤ roundMag (magOf v * magOf a) (2 ^ 149) :=
      least ▸ roundMag_mono _ _ _ _ (Nat.two_pow_pos 149) (Nat.two_pow_pos 149)
        (Nat.mul_le_mul_right _ product)
    have value : magUnits 1 ≤ magUnits (roundMag (magOf v * magOf a) (2 ^ 149)) :=
      magUnits_strictMono.monotone bits
    rw [fmul_of_finite ((isFinite_iff v).2 ⟨nv, iv⟩) ((isFinite_iff a).2 ⟨na, ia⟩),
      ← Bool.not_eq_true, isZero_iff (isNaN_roundF _ _ _), magOf_roundF]
    exact (Nat.lt_of_lt_of_le (by decide) value).ne'

/-- A factor of at most 1 keeps a product with a finite number finite. -/
theorem isFinite_fmul {v a : F32} (fv : isFinite v = true) (fa : isFinite a = true)
    (small : magOf v ≤ 2 ^ 149) : isFinite (fmul v a) = true := by
  rw [fmul_of_finite fv fa, isFinite_roundF_iff]
  calc roundMag (magOf v * magOf a) (2 ^ 149)
      ≤ roundMag (magOf a * 2 ^ 149) (2 ^ 149) :=
        roundMag_mono _ _ _ _ (Nat.two_pow_pos 149) (Nat.two_pow_pos 149)
          (Nat.mul_le_mul_right _ (Nat.mul_comm (magOf v) _ ▸ Nat.mul_le_mul_left _ small))
    _ = a.toNat % 2 ^ 31 := roundMag_magOf fa _ (Nat.two_pow_pos 149)
    _ < infBits := magBits_lt fa

/-! ### The kinds of velocity * `DT` * `MULT` -/

section
variable {v dt mult : F32}

theorem isNaN_step_of_nan (h : isNaN v = true ∨ isNaN dt = true ∨ isNaN mult = true) :
    isNaN (fmul (fmul v dt) mult) = true := by
  rw [isNaN_fmul_iff, isNaN_fmul_iff]
  tauto

/-- Zero and infinity as `DT` and `MULT`, in either order. -/
theorem isNaN_step_of_inf_zero
    (h : (isInf dt = true ∧ isZero mult = true) ∨ (isZero dt = true ∧ isInf mult = true)) :
    isNaN (fmul (fmul v dt) mult) = true := by
  rw [fmul_comm v]
  rcases h with ⟨i, z⟩ | ⟨z, i⟩
  · exact isNaN_fmul_zero (nan_or_inf_fmul v i) z
  · exact isNaN_fmul_inf (nan_or_zero_fmul v z) i

/-- A velocity of zero with an infinite operand. -/
theorem isNaN_step_of_zero_velocity (z : isZero v = true)
    (inf : isInf dt = true ∨ isInf mult = true) : isNaN (fmul (fmul v dt) mult) = true := by
  rcases inf with i | i
  · rw [isNaN_fmul_iff]
    exact .inl (isNaN_fmul_inf (.inr z) i)
  · exact isNaN_fmul_inf (nan_or_zero_fmul dt z) i

/-- An infinite velocity with a zero operand. -/
theorem isNaN_step_of_inf_velocity (i : isInf v = true)
    (zero : isZero dt = true ∨ isZero mult = true) : isNaN (fmul (fmul v dt) mult) = true := by
  rcases zero with z | z
  · rw [isNaN_fmul_iff]
    exact .inl (isNaN_fmul_zero (.inr i) z)
  · exact isNaN_fmul_zero (nan_or_inf_fmul dt i) z

/-- A product velocity * `DT` that underflows to zero, with an infinite operand. -/
theorem isNaN_step_of_underflow (z : isZero (fmul v dt) = true)
    (inf : isInf dt = true ∨ isInf mult = true) : isNaN (fmul (fmul v dt) mult) = true := by
  rcases inf with i | i
  · rw [fmul_comm] at z
    rcases nan_or_inf_fmul v i with n | i
    · exact absurd n (by rw [isNaN_of_isZero z]; decide)
    · exact absurd i (by rw [isInf_of_isZero z]; decide)
  · exact isNaN_fmul_inf (.inr z) i

/-- A product velocity * `DT` that overflows, with a zero operand. -/
theorem isNaN_step_of_overflow (i : isInf (fmul v dt) = true)
    (zero : isZero dt = true ∨ isZero mult = true) : isNaN (fmul (fmul v dt) mult) = true := by
  rcases zero with z | z
  · rw [fmul_comm] at i
    rcases nan_or_zero_fmul v z with n | z
    · exact absurd n (by rw [isNaN_of_isInf i]; decide)
    · exact absurd z (by rw [isZero_of_isInf i]; decide)
  · exact isNaN_fmul_zero (.inr i) z

/-- An infinite operand, the other and the velocity neither NaN nor zero, and no underflow. -/
theorem isInf_step (nv : isNaN v = false) (zv : isZero v = false) (nd : isNaN dt = false)
    (zd : isZero dt = false) (nm : isNaN mult = false) (zm : isZero mult = false)
    (inf : isInf dt = true ∨ isInf mult = true) (away : isZero (fmul v dt) = false) :
    isInf (fmul (fmul v dt) mult) = true ∧
      signOf (fmul (fmul v dt) mult) = (signOf v ^^ signOf dt ^^ signOf mult) := by
  have number := isNaN_fmul_eq_false nv nd zv zd
  have infinite : isInf (fmul (fmul v dt) mult) = true :=
    isInf_fmul number nm away zm (inf.imp_left fun i => isInf_fmul nv nd zv zd (.inr i))
  refine ⟨infinite, ?_⟩
  rw [signOf_fmul_of_not_nan (isNaN_of_isInf infinite), signOf_fmul_of_not_nan number]

/-- A zero operand, the other finite, and no overflow. -/
theorem isZero_step (fv : isFinite v = true)
    (zero : (isZero dt = true ∧ isFinite mult = true) ∨ (isZero mult = true ∧ isFinite dt = true))
    (below : magOf v ≤ 2 ^ 149 ∨ isFinite (fmul v dt) = true) :
    isZero (fmul (fmul v dt) mult) = true := by
  rcases zero with ⟨z, f⟩ | ⟨z, f⟩
  · exact isZero_fmul (fmul_comm dt v ▸ isZero_fmul z fv) f
  · rw [fmul_comm]
    exact isZero_fmul z (below.elim (isFinite_fmul fv f) id)

end

/-- Settles O22, by the kind of the product velocity * `DT` * `MULT` in each case. -/
theorem movecSpecialOperandsGoWhereTheRulesSay :
    Obligations.MovecSpecialOperandsGoWhereTheRulesSay := by
  rintro old v dt mult res max small lower upper rfl
  have grid : InGrid old max := ⟨small, lower, upper⟩
  have toZero (nan : isNaN (fmul (fmul v dt) mult) = true) :
      clamp (fadd old (fmul (fmul v dt) mult)) 0#32 (i2f max) = 0#32 := clamp_fadd_of_nan nan
  refine ⟨fun nan => toZero (isNaN_step_of_nan nan), fun h => toZero (isNaN_step_of_inf_zero h),
    fun operands => ?infinite, fun operands => ?zero⟩
  case infinite =>
    have inf : isInf dt = true ∨ isInf mult = true := operands.imp And.left And.left
    refine ⟨fun zv => toZero (isNaN_step_of_zero_velocity zv inf), fun nv zv =>
      ⟨fun away => ?limit, fun z => toZero (isNaN_step_of_underflow z inf)⟩⟩
    obtain ⟨nd, zd, nm, zm⟩ : isNaN dt = false ∧ isZero dt = false ∧ isNaN mult = false ∧
        isZero mult = false := by
      rcases operands with ⟨i, n, z⟩ | ⟨i, n, z⟩
      · exact ⟨isNaN_of_isInf i, isZero_of_isInf i, n, z⟩
      · exact ⟨n, z, isNaN_of_isInf i, isZero_of_isInf i⟩
    obtain ⟨infinite, sign⟩ :=
      isInf_step nv zv nd zd nm zm inf (away.elim (isZero_fmul_eq_false nv nd zd) id)
    rw [← sign]
    exact clamp_fadd_of_inf grid infinite
  case zero =>
    have zero : isZero dt = true ∨ isZero mult = true := operands.imp And.left And.left
    exact ⟨fun iv => toZero (isNaN_step_of_inf_velocity iv zero), fun fv =>
      ⟨fun below => clamp_fadd_of_zero grid (isZero_step fv operands below),
        fun overflow => toZero (isNaN_step_of_overflow overflow zero)⟩⟩

end Sys2Proof.Machine

namespace Sys2Proof.Machine

/-! ## The acceptance order (spec 60_exceptions R226, R229 to R231) -/

/-- Outside HALT and IDLE the Core is BUSY (10_state R35). -/
theorem busy_of_not_halt_of_not_idle {s : State} (live : s.coreState ≠ .halt)
    (not_idle : s.coreState ≠ .idle) : busy s = true := by
  cases hc : s.coreState with
  | idle => exact absurd hc not_idle
  | halt => exact absurd hc live
  | prep | emit | wait => simp [busy_iff, hc]

/-- HALT ignores every command (R226). -/
theorem exec_of_halt (i : Instr) (s : State) (halted : s.coreState = .halt) :
    exec i s = .next s := by
  rw [exec_eq, whenIdle_halt _ s halted]

/-- Settles O7: the two rows of the acceptance order in which a command has no effect. -/
theorem commandsAreTurnedAwayOutsideIdle : Obligations.CommandsAreTurnedAwayOutsideIdle :=
  fun i s => ⟨exec_of_halt i s,
    fun live not_idle => exec_of_busy i s (busy_of_not_halt_of_not_idle live not_idle)⟩

/-! ### Any word, legal or reserved -/

theorem issueCommand_of_halt (w : Word) (s : State) (halted : s.coreState = .halt) :
    issueCommand w s = .next s := by
  rw [issueCommand_eq, whenIdle_halt _ s halted]

/-- BUSY drops a reserved word like a legal one (R230, R231). -/
theorem issueCommand_of_busy (w : Word) (s : State) (running : busy s = true) :
    issueCommand w s = .next (setDrop s) := by
  rw [issueCommand_eq, whenIdle_busy _ s running]

/-- IDLE reports a reserved word (R229). -/
theorem issueCommand_reserved_of_idle (w : Word) (e : DecodeError) (s : State)
    (idle : s.coreState = .idle) (reserved : decode w = .error e) :
    issueCommand w s = .next (setBadcmd s) := by
  rw [issueCommand_eq, whenIdle_idle _ s idle, reserved]

/-- The Host's write of any word to `CMD` is `issue_command`, in HALT too. -/
theorem hostAccess_write_cmd (w : Word) (s : State) :
    hostAccess (.write (regOffset .cmd) .bits32 w) s = issueCommand w s := by
  by_cases halted : s.coreState = .halt
  · rw [hostAccess_write _ w s (by decide), memWrite_halt _ w s halted,
      issueCommand_of_halt w s halted]
  · exact hostAccess_writeReg .cmd w s halted

/-- A step at the Host's write of any word to `CMD`. -/
theorem step_cmd_write (s : State) (w : Word) (rest : List Input) (legal : s.cfg.legal = true)
    (next : s.inputs = commandAccess w :: rest) : step s = issueCommand w (popInput rest s) :=
  (step_cons s _ rest legal next).trans (hostAccess_write_cmd w _)

/-- Settles O6, line by line of the acceptance order. -/
theorem cmdWriteFollowsTheAcceptanceOrder : Obligations.CmdWriteFollowsTheAcceptanceOrder := by
  intro s w rest legal next
  have issued := step_cmd_write s w rest legal next
  refine ⟨fun halted => ?halt, fun live not_idle => ?busy, fun idle =>
    ⟨fun e reserved => ?reserved, fun i decoded => step_command s w i rest legal decoded next⟩⟩
  case halt => exact issued.trans (issueCommand_of_halt w (popInput rest s) halted)
  case busy =>
    have running : busy (popInput rest s) = true := busy_of_not_halt_of_not_idle live not_idle
    exact issued.trans (issueCommand_of_busy w _ running)
  case reserved =>
    exact issued.trans (issueCommand_reserved_of_idle w e (popInput rest s) idle reserved)

/-! ## Fatal errors and HALT (spec 60_exceptions R224, R226, R227) -/

/-! ### The fatal entry -/

theorem statusWord_getLsbD_one (s : State) : (statusWord s).getLsbD 1 = fatal s := by
  rw [statusWord, BitVec.getLsbD_append, if_neg (by decide), BitVec.getLsbD_append,
    if_pos (by decide)]
  cases fatal s <;> rfl

/-- Settles O36: `ERRCODE` and `core_state` are written, and `STATUS` follows `core_state`. -/
theorem fatalEntryChangesOnlyErrcodeAndCoreState :
    Obligations.FatalEntryChangesOnlyErrcodeAndCoreState := by
  rintro s _ code rfl
  exact ⟨rfl, rfl, statusWord_getLsbD_one (raiseFatal code s),
    statusWord_getLsbD_zero (raiseFatal code s), rfl,
    by simp [sameData, sameStickies, sameEnvironment]⟩

/-! ### The way out of HALT -/

/-- In HALT a Host access can return a word on the read port, and nothing else (R226). -/
theorem hostAccess_of_halt (a : Access) (s t : State) (halted : s.coreState = .halt)
    (h : hostAccess a s = .next t) : ∃ port, t = { s with hostRead := port } := by
  rcases hostAccess_cases a s t h with ⟨off, -, -, rfl⟩ | ⟨off, v, -, -, written⟩
  · exact ⟨_, rfl⟩
  · rw [memWrite_halt off v s halted] at written
    cases written
    exact ⟨s.hostRead, rfl⟩

/-- In HALT an answer is discarded; one owed to an abandoned frame is counted off (70_reset
R263). -/
theorem receiveAnswer_of_halt (r : TxAnswer) (s : State) (halted : s.coreState = .halt) :
    ∃ owed, receiveAnswer r s = { s with abandoned := owed } := by
  cases owed : s.abandoned with
  | succ k => exact ⟨k, receiveAnswer_of_owed r s k owed⟩
  | zero => exact ⟨s.abandoned, receiveAnswer_of_not_wait r s owed (by simp [halted])⟩

/-- In HALT an event other than reset reaches nothing but the model's own fields. -/
theorem applyInput_of_halt (i : Input) (s t : State) (halted : s.coreState = .halt)
    (notReset : i ≠ .reset) (h : applyInput i s = .next t) :
    ∃ port rate owed, t = { s with hostRead := port, tickRate := rate, abandoned := owed } := by
  cases i with
  | host a =>
    obtain ⟨port, rfl⟩ := hostAccess_of_halt a s t halted h
    exact ⟨port, s.tickRate, s.abandoned, rfl⟩
  | core =>
    cases h
    exact ⟨s.hostRead, s.tickRate, s.abandoned, coreStep_of_still s (.inr (.inr halted))⟩
  | answer r =>
    cases h
    obtain ⟨owed, e⟩ := receiveAnswer_of_halt r s halted
    exact ⟨s.hostRead, s.tickRate, owed, e⟩
  | tickRate rate =>
    cases h
    exact ⟨s.hostRead, rate, s.abandoned, rfl⟩
  | reset => exact absurd rfl notReset

/-- A step in HALT that is no reset takes its event and leaves the block as it is (R226). -/
theorem step_of_halt (s t : State) (halted : s.coreState = .halt) (h : step s = .next t)
    (notReset : ∀ rest, s.inputs ≠ .reset :: rest) :
    ∃ rest port rate owed, t =
      { s with inputs := rest, hostRead := port, tickRate := rate, abandoned := owed } := by
  obtain ⟨-, ⟨-, rfl⟩ | ⟨i, rest, pending, hi⟩⟩ := step_cases s t h
  · exact ⟨s.inputs, s.hostRead, s.tickRate, s.abandoned,
      coreStep_of_still s (.inr (.inr halted))⟩
  · exact ⟨rest, applyInput_of_halt i (popInput rest s) t halted
      (fun reset => notReset rest (reset ▸ pending)) hi⟩

/-- A step at reset is reset, whatever the state (R227, 70_reset R260). -/
theorem step_of_reset (s t : State) (rest : List Input) (h : step s = .next t)
    (next : s.inputs = .reset :: rest) : t = resetBlock (popInput rest s) := by
  obtain ⟨legal, -⟩ := step_cases s t h
  rw [step_cons s _ rest legal next] at h
  cases h
  rfl

/-- Settles O37: reset gives the reset values, every other step in HALT keeps the block. -/
theorem haltIsLeftOnlyByReset : Obligations.HaltIsLeftOnlyByReset := by
  intro s t halted h
  constructor
  · rintro ⟨rest, reset⟩
    rw [step_of_reset s t rest h reset]
    exact ⟨rfl, rfl⟩
  · intro notReset
    obtain ⟨rest, port, rate, owed, rfl⟩ := step_of_halt s t halted h notReset
    exact ⟨halted, rfl, rfl, by simp [sameData], by simp [sameStickies]⟩

end Sys2Proof.Machine

namespace Sys2Proof.Machine

/-! ## The duration of a frame (spec 70_reset R272) -/

/-- `E` lasts as long as `bits` bits of which `ones` are 1: one pair of edges for each bit. -/
def LastsAsBits (e : Encoder) (E : List PulseEdge) (bits ones : Nat) : Prop :=
  ∃ zeros, zeros + ones = bits ∧
    totalTicks E = zeros * (e.t0h + e.t0l) + ones * (e.t1h + e.t1l)

@[simp] theorem totalTicks_append (E F : List PulseEdge) :
    totalTicks (E ++ F) = totalTicks E + totalTicks F := by
  simp [totalTicks]

theorem totalTicks_bitPair (e : Encoder) (v : Bool) :
    totalTicks (bitPair e v) = highTicks e v + lowTicks e v := by
  simp [totalTicks, bitPair]

theorem lastsAsBits_nil (e : Encoder) : LastsAsBits e [] 0 0 := ⟨0, rfl, by simp [totalTicks]⟩

theorem lastsAsBits_bitPair (e : Encoder) (v : Bool) :
    LastsAsBits e (bitPair e v) 1 (if v then 1 else 0) := by
  cases v with
  | false => exact ⟨1, rfl, by simp [totalTicks_bitPair, highTicks, lowTicks]⟩
  | true => exact ⟨0, rfl, by simp [totalTicks_bitPair, highTicks, lowTicks]⟩

/-- Lists of edges sent one after the other add their bits and their durations. -/
theorem LastsAsBits.append {e : Encoder} {E F : List PulseEdge} {n k a b : Nat}
    (first : LastsAsBits e E n a) (second : LastsAsBits e F k b) :
    LastsAsBits e (E ++ F) (n + k) (a + b) := by
  obtain ⟨y, countE, ticksE⟩ := first
  obtain ⟨z, countF, ticksF⟩ := second
  refine ⟨y + z, by omega, ?_⟩
  rw [totalTicks_append, ticksE, ticksF]
  ring

theorem lastsAsBits_bitPairs (e : Encoder) (w : BitVec 24) (n : Nat) :
    LastsAsBits e (bitPairs e w n) n (onesBelow w n) := by
  induction n with
  | zero => exact lastsAsBits_nil e
  | succ n ih =>
    have sent := (lastsAsBits_bitPair e (w.getLsbD n)).append ih
    rwa [Nat.add_comm 1 n, Nat.add_comm _ (onesBelow w n)] at sent

theorem lastsAsBits_frameEdges (e : Encoder) (m : Memory) (n : Nat) :
    LastsAsBits e (frameEdges e m n) (24 * n) (frameOnes m n) := by
  induction n with
  | zero => exact lastsAsBits_nil e
  | succ n ih => exact ih.append (lastsAsBits_bitPairs e (grb (readPixel m n)) 24)

/-- Settles O35: each bit of each pixel adds the two durations of its pair. -/
theorem frameDurationCountsItsBits : Obligations.FrameDurationCountsItsBits := by
  intro e m n
  obtain ⟨z, count, duration⟩ := lastsAsBits_frameEdges e m n
  exact ⟨z, frameOnes m n, rfl, count, duration⟩

/-! ## Reset in any state (spec 70_reset R260, R261, R263) -/

/-- At reset the step of a legal part is `resetBlock`. -/
theorem step_reset (s : State) (rest : List Input) (legal : s.cfg.legal = true)
    (next : s.inputs = .reset :: rest) : step s = .next (resetBlock (popInput rest s)) :=
  step_cons s .reset rest legal next

/-- Reset leaves the data registers and the pixels of a part just reset (R261). -/
theorem sameData_resetBlock (s : State) : sameData (State.resetOf s.cfg) (resetBlock s) := by
  simp [sameData, State.resetOf]

/-- One answer more is owed exactly for a frame abandoned in WAIT (R263, log 12). -/
theorem resetBlock_abandoned_eq_add (s : State) :
    (resetBlock s).abandoned = s.abandoned + if s.coreState = .wait then 1 else 0 := by
  rw [resetBlock_abandoned]
  split <;> rfl

/-- Settles O39: the next state is `resetBlock`, whatever the state was. -/
theorem resetFromAnyStateReachesTheResetValues :
    Obligations.ResetFromAnyStateReachesTheResetValues := by
  intro s rest legal next
  exact ⟨resetBlock (popInput rest s), step_reset s rest legal next,
    sameData_resetBlock (popInput rest s), resetBlock_badcmd _, resetBlock_drop _,
    resetBlock_errcode _, resetBlock_coreState _, resetBlock_inFlight _, resetBlock_cfg _,
    resetBlock_tickRate _, resetBlock_inputs _, resetBlock_abandoned_eq_add (popInput rest s)⟩

end Sys2Proof.Machine
